-- ==== Sys2Proof/Word.lean ====
section
/-! DEFINITION. The word type of the host port: one slot is one 64-bit word (20_memory.md R50). -/

namespace Sys2Proof

/-- The 64-bit word of one slot of the host port (00_scope.md R8, `SLOTW = 64`; 20_memory.md R50). A float pattern
`Fbits` stands in bits `FLEN - 1 : 0` of it (20_memory.md R57). -/
abbrev Word := BitVec 64

end Sys2Proof
end

