-- ==== Sys2Proof/Syntax.lean ====
section
/-! DEFINITION. The seven commands, and the names the spec gives its registers, buffers, fault kinds and causes. -/

namespace Sys2Proof

/-- The commands, one constructor per row of spec/opcode_table.json (30_encoding.md R70). `w` is the `W` field of
bits 9:4, unsigned (R73); `sfs`, `ofs`, `e` are the flags of bits 10, 11, 12 (R71, R72). -/
inductive Instr where
  /-- `UQ W`, uniform_quantizer (41_uniform.md R120). -/
  | uq (w : BitVec 6)
  /-- `UDQ W`, uniform_dequantizer (41_uniform.md R121). -/
  | udq (w : BitVec 6)
  /-- `ASMQ W`, `ASMQ.SF W`, adaptive_sign_magnitude_quantizer (43_adaptive_sign_magnitude.md R140). -/
  | asmq (w : BitVec 6) (sfs : Bool)
  /-- `ASMDQ`, `ASMDQ.E`, adaptive_sign_magnitude_dequantizer (43_adaptive_sign_magnitude.md R141). -/
  | asmdq (e : Bool)
  /-- `ORQ W` with its `.SF` and `.OF` forms, offset_refinement_quantizer (44_offset_refinement.md R150). -/
  | orq (w : BitVec 6) (sfs : Bool) (ofs : Bool)
  /-- `ORDQ`, offset_refinement_dequantizer (44_offset_refinement.md R151). -/
  | ordq
  /-- `EM`, error_metrics_mse_psnr (42_error_metrics.md R130). -/
  | em
  deriving DecidableEq, Repr

/-- The fault kinds of 60_exceptions.md R160. `numericError` is carried for fidelity to the source's taxonomy; no cause has
it (R163). -/
inductive FaultKind where
  | none
  | domainError
  | rangeError
  | illegalCommand
  | numericError
  deriving DecidableEq, Repr

/-- The fault causes, one constructor per row of 60_exceptions.md R164. -/
inductive Cause where
  | nRange
  | nonfiniteElem
  | nonfiniteScalar
  | allZero
  | sfNonpos
  | ipartOvf
  | offsetRange
  | dpartOvf
  | residual
  | codeRange
  | signReserved
  | outOvf
  | opReserved
  | fieldReserved
  | wRange
  deriving DecidableEq, Repr

/-- The registers, in slot order from 0x00 to 0x0A (10_state.md R22). -/
inductive Reg where
  | cmd
  | status
  | finfo
  | n
  | sf
  | offset
  | scale
  | min
  | max
  | mse
  | psnr
  deriving DecidableEq, Repr

/-- The array buffers, in the order of their numbers `k = 1` to `9` (10_state.md R30). -/
inductive Buf where
  | data
  | recon
  | err
  | code
  | sign
  | ipart
  | dpart
  | iopart
  | dopart
  deriving DecidableEq, Repr

end Sys2Proof
end

