-- ==== Sys2Proof/WellFormed.lean ====
section
/-! DEFINITION. Which command terms the encoding admits: the range of `W` (30_encoding.md R72, R73). -/

namespace Sys2Proof

/-- Legal values of `W` where a command uses it: `1 ≤ W ≤ BMAX = 32` (30_encoding.md R73). -/
def legalWidth (w : BitVec 6) : Bool := 1 ≤ w.toNat && w.toNat ≤ 32

/-- A command term is well formed when its `W` is legal (30_encoding.md R72); the flags are free in the commands that
have them, and a command that does not use a field has no such argument (log 12). -/
def Instr.wellFormed : Instr → Bool
  | .uq w => legalWidth w
  | .udq w => legalWidth w
  | .asmq w _ => legalWidth w
  | .asmdq _ => true
  | .orq w _ _ => legalWidth w
  | .ordq => true
  | .em => true

end Sys2Proof
end

