-- ==== Sys2Proof/Decode.lean ====
section
/-! DEFINITION. The decoder of the command word, total on every 64-bit word and rejecting by the cause the spec names
(30_encoding.md R71 to R75), and the encoder (R71, R81). -/

namespace Sys2Proof

/-- `OP`, bits 3:0 (30_encoding.md R71). -/
def cmdOp (v : Word) : BitVec 4 := v.extractLsb' 0 4

/-- `W`, bits 9:4, unsigned (30_encoding.md R71, R73). -/
def cmdW (v : Word) : BitVec 6 := v.extractLsb' 4 6

/-- `SFS`, bit 10 (30_encoding.md R71). -/
def cmdSfs (v : Word) : Bool := v.getLsbD 10

/-- `OFS`, bit 11 (30_encoding.md R71). -/
def cmdOfs (v : Word) : Bool := v.getLsbD 11

/-- `E`, bit 12 (30_encoding.md R71). -/
def cmdE (v : Word) : Bool := v.getLsbD 12

/-- Bits 63:32 and 31:13, all of which must be zero (30_encoding.md R71). -/
def cmdReserved (v : Word) : BitVec 51 := v.extractLsb' 13 51

/-- The command of a word by its `OP` alone, before the tests of its other fields; none for the reserved `OP` 0 and 8 to
15 (30_encoding.md R70, R75 test 2). -/
def commandOfOp (v : Word) : Option Instr :=
  match (cmdOp v).toNat with
  | 1 => some (.uq (cmdW v))
  | 2 => some (.udq (cmdW v))
  | 3 => some (.asmq (cmdW v) (cmdSfs v))
  | 4 => some (.asmdq (cmdE v))
  | 5 => some (.orq (cmdW v) (cmdSfs v) (cmdOfs v))
  | 6 => some .ordq
  | 7 => some .em
  | _ => none

/-- A flag the command does not use is 1 (30_encoding.md R72, R75 test 3). -/
def unusedFlagSet (i : Instr) (v : Word) : Bool :=
  match i with
  | .uq _ => cmdSfs v || cmdOfs v || cmdE v
  | .udq _ => cmdSfs v || cmdOfs v || cmdE v
  | .asmq _ _ => cmdOfs v || cmdE v
  | .asmdq _ => cmdSfs v || cmdOfs v
  | .orq _ _ _ => cmdE v
  | .ordq => cmdSfs v || cmdOfs v || cmdE v
  | .em => cmdSfs v || cmdOfs v || cmdE v

/-- `W` is in the command's range: 1 to 32 where it is used, exactly 0 where it is not (30_encoding.md R72, R75 test 4). -/
def widthInRange (i : Instr) (v : Word) : Bool :=
  match i with
  | .uq w => legalWidth w
  | .udq w => legalWidth w
  | .asmq w _ => legalWidth w
  | .asmdq _ => cmdW v == 0
  | .orq w _ _ => legalWidth w
  | .ordq => cmdW v == 0
  | .em => cmdW v == 0

/-- The decoder: the command of a word written to `CMD`, or the cause of the first test that fails, in the order of
30_encoding.md R75. -/
def decode (v : Word) : Except Cause Instr :=
  if cmdReserved v ≠ 0 then .error .fieldReserved
  else
    match commandOfOp v with
    | none => .error .opReserved
    | some i =>
      if unusedFlagSet i v then .error .fieldReserved
      else if widthInRange i v then .ok i
      else .error .wRange

/-- A command word from its fields (30_encoding.md R71): `E`, `OFS`, `SFS`, `W`, `OP` from bit 12 down, the rest zero. -/
def commandWord (op : BitVec 4) (w : BitVec 6) (sfs ofs e : Bool) : BitVec 32 :=
  (0#19 ++ BitVec.ofBool e ++ BitVec.ofBool ofs ++ BitVec.ofBool sfs ++ w ++ op : BitVec 32)

/-- The encoder: the 32-bit command word (30_encoding.md R71, R74, R81). -/
def encode : Instr → BitVec 32
  | .uq w => commandWord 1 w false false false
  | .udq w => commandWord 2 w false false false
  | .asmq w sfs => commandWord 3 w sfs false false
  | .asmdq e => commandWord 4 0 false false e
  | .orq w sfs ofs => commandWord 5 w sfs ofs false
  | .ordq => commandWord 6 0 false false false
  | .em => commandWord 7 0 false false false

/-- The 64-bit word a host writes to `CMD` for a command: the command word with bits 63:32 zero (30_encoding.md R71). -/
def cmdWrite (i : Instr) : Word := (encode i).setWidth 64

/-- The word the host writes to `CMD` for the low `nbits` bits of `w`, every bit above them zero (30_encoding.md R71). -/
def tableWord (nbits w : Nat) : Word := BitVec.ofNat 64 (w % 2 ^ nbits)

/-- The instruction the decoder reads from a word numbered as spec/opcode_table.json numbers it: one 32-bit word in bits
31:0 of the `CMD` write (30_encoding.md R71, R76). -/
def decodeTableWord (nbits w : Nat) : Option Instr :=
  match decode (tableWord nbits w) with
  | .ok i => some i
  | .error _ => none

end Sys2Proof
end

