-- ==== Sys2Proof/Config.lean ====
section
/-! DEFINITION. The open parameters of the block: `FLEN` and `AW` (00_scope.md R8; 93_implementation_defined.md U2, U3). -/

namespace Sys2Proof

/-- `FLEN`, the float width: 32 or 64 (00_scope.md R8; 40_numerics.md R90). -/
inductive FloatWidth where
  | b32
  | b64
  deriving DecidableEq, Repr

/-- The two parameters the spec leaves OPEN. Every statement holds for all of them: the state carries its own
configuration, which no step changes (log 2). `AW` is an integer at least 4 (00_scope.md R8): `awAbove` is what it
exceeds 4 by, so that no smaller `AW` can be written down. -/
structure Config where
  flen : FloatWidth
  awAbove : Nat
  deriving DecidableEq, Repr

/-- `AW`, log2 of the capacity of each buffer (00_scope.md R8). -/
def Config.aw (c : Config) : Nat := 4 + c.awAbove

/-- `NMAX = 2^AW`, the capacity of each buffer in elements, and the stride of the buffers in the slot map
(00_scope.md R8; 20_memory.md R56). -/
def Config.nmax (c : Config) : Nat := 2 ^ c.aw

/-- `FLEN = 64`, `AW = 16`: the values the spec suggests (00_scope.md R8). DESIGN CHOICE (log 2): `State.reset` uses them. -/
def Config.suggested : Config := ⟨.b64, 12⟩

end Sys2Proof
end

