-- ==== Sys2Proof/Machine/Float.lean ====
section
/-! DEFINITION. Numbers (40_numerics.md): the float format, its value function, the one rounding `fl`, and the exact arithmetic
primitives `rnd`, `kexp`, `median`, `min`, `max`, `mean`. Exact reals are rationals: every operand is one (R93). -/

namespace Sys2Proof

/-- `FLEN` (40_numerics.md R90). -/
def FloatWidth.bits : FloatWidth → Nat
  | .b32 => 32
  | .b64 => 64

/-- The precision `p` (40_numerics.md R90). -/
def FloatWidth.precision : FloatWidth → Nat
  | .b32 => 24
  | .b64 => 53

/-- The width of the exponent field (40_numerics.md R90). -/
def FloatWidth.expBits : FloatWidth → Nat
  | .b32 => 8
  | .b64 => 11

/-- The bias (40_numerics.md R90). -/
def FloatWidth.bias : FloatWidth → Nat
  | .b32 => 127
  | .b64 => 1023

/-- `emin` (40_numerics.md R90). -/
def FloatWidth.emin : FloatWidth → ℤ
  | .b32 => -126
  | .b64 => -1022

/-- `emax` (40_numerics.md R90). -/
def FloatWidth.emax : FloatWidth → ℤ
  | .b32 => 127
  | .b64 => 1023

/-- `EMAXF`, the all-ones exponent (40_numerics.md R90). -/
def FloatWidth.emaxf : FloatWidth → Nat
  | .b32 => 255
  | .b64 => 2047

/-- The largest finite value `MAXF` (40_numerics.md R92). -/
def FloatWidth.maxf (f : FloatWidth) : ℚ := (2 - (2 : ℚ) ^ (1 - (f.precision : ℤ))) * (2 : ℚ) ^ f.emax

/-- The sign bit `s` of a pattern (40_numerics.md R90). -/
def FloatWidth.signBit (f : FloatWidth) (b : Word) : Bool := b.getLsbD (f.bits - 1)

/-- The exponent field `e` of a pattern (40_numerics.md R90). -/
def FloatWidth.exponent (f : FloatWidth) (b : Word) : Nat := (b.extractLsb' (f.precision - 1) f.expBits).toNat

/-- The fraction field `f` of a pattern (40_numerics.md R90). -/
def FloatWidth.fraction (f : FloatWidth) (b : Word) : Nat := (b.extractLsb' 0 (f.precision - 1)).toNat

/-- `isfinite(b)` (40_numerics.md R91). -/
def FloatWidth.isFinite (f : FloatWidth) (b : Word) : Bool := f.exponent b != f.emaxf

/-- `|val(b)|` (40_numerics.md R91): zero and subnormals when the exponent field is 0, otherwise a normal number. -/
def FloatWidth.magnitude (f : FloatWidth) (b : Word) : ℚ :=
  if f.exponent b = 0 then (f.fraction b : ℚ) * (2 : ℚ) ^ (f.emin - f.precision + 1)
  else (2 ^ (f.precision - 1) + f.fraction b : ℚ) * (2 : ℚ) ^ ((f.exponent b : ℤ) - f.bias - f.precision + 1)

/-- `val(b)` of a finite pattern (40_numerics.md R91). A pattern that is not finite has no value: a command tests
`isfinite` first (R103; log 13). -/
def FloatWidth.val (f : FloatWidth) (b : Word) : ℚ :=
  if f.signBit b then - f.magnitude b else f.magnitude b

/-- `rnd(x)`: the nearest integer, ties to even (40_numerics.md R94; log 9). -/
def rnd (x : ℚ) : ℤ :=
  if x - ⌊x⌋ < 1 / 2 then ⌊x⌋
  else if 1 / 2 < x - ⌊x⌋ then ⌊x⌋ + 1
  else if ⌊x⌋ % 2 = 0 then ⌊x⌋
  else ⌊x⌋ + 1

/-- `E = max(floor(log2 |x|), emin)` of 40_numerics.md R92, for `x ≠ 0`. -/
def FloatWidth.binade (f : FloatWidth) (x : ℚ) : ℤ := max (Int.log 2 |x|) f.emin

/-- `q = 2^(E - p + 1)` of 40_numerics.md R92: the distance between neighbouring patterns at `x`. -/
def FloatWidth.ulp (f : FloatWidth) (x : ℚ) : ℚ := (2 : ℚ) ^ (f.binade x - f.precision + 1)

/-- `m = rnd(|x| / q)` of 40_numerics.md R92. -/
def FloatWidth.significand (f : FloatWidth) (x : ℚ) : ℤ := rnd (|x| / f.ulp x)

/-- The pattern with significand `m` in binade `e` and sign bit 1 iff `neg` (40_numerics.md R90, R91). The exponent field of a
normal number is `e + bias` and its fraction `m - 2^(p-1)`, and a significand of `2^p` carries into the exponent; a
significand below `2^(p-1)` stands in binade `emin` only and leaves the exponent field 0. -/
def FloatWidth.pattern (f : FloatWidth) (neg : Bool) (e m : ℤ) : Word :=
  BitVec.ofNat 64
    ((if neg then 2 ^ (f.bits - 1) else 0) + (e + f.bias - 1).toNat * 2 ^ (f.precision - 1) + m.toNat)

/-- `fl(x)`: round to nearest, ties to even, with gradual underflow; a zero result is `+0.0`, and `none` is the outcome
`overflow` (40_numerics.md R92). -/
def FloatWidth.fl (f : FloatWidth) (x : ℚ) : Option Word :=
  if x = 0 then some 0
  else if (2 : ℚ) ^ (f.emax + 1) ≤ f.significand x * f.ulp x then none
  else if f.significand x = 0 then some 0
  else some (f.pattern (x < 0) (f.binade x) (f.significand x))

/-- `fl(x)` where the spec shows that it is never `overflow` (40_numerics.md R106; log 7). -/
def FloatWidth.flFits (f : FloatWidth) (x : ℚ) : Word := (f.fl x).getD 0

/-- `+Infinity` (40_numerics.md R91; 42_error_metrics.md R131). -/
def FloatWidth.posInf : FloatWidth → Word
  | .b32 => 0x000000007F800000
  | .b64 => 0x7FF0000000000000

/-- `-Infinity` (40_numerics.md R91; 42_error_metrics.md R131). -/
def FloatWidth.negInf : FloatWidth → Word
  | .b32 => 0x00000000FF800000
  | .b64 => 0xFFF0000000000000

/-- `sgn(x)` (40_numerics.md R95). -/
def sgn (x : ℚ) : ℤ := if x < 0 then -1 else if x = 0 then 0 else 1

/-- `kexp(m) = ceil(-log10 m)`, the least integer `k` with `10^k * m ≥ 1`, that is with `1/m ≤ 10^k`
(40_numerics.md R98). -/
def kexp (m : ℚ) : ℤ := Int.clog 10 m⁻¹

/-- The least element of a non-empty list (40_numerics.md R96). -/
def minOf : List ℚ → ℚ
  | [] => 0
  | x :: xs => xs.foldl min x

/-- The greatest element of a non-empty list (40_numerics.md R96). -/
def maxOf : List ℚ → ℚ
  | [] => 0
  | x :: xs => xs.foldl max x

/-- The exact mean of a non-empty list (40_numerics.md R96). -/
def mean (xs : List ℚ) : ℚ := xs.sum / xs.length

/-- The median of a non-empty list of integers; of an even number of them the mean of the two middle ones
(40_numerics.md R97; log 9). -/
def median (xs : List ℤ) : ℚ :=
  let s := xs.insertionSort (· ≤ ·)
  if s.length % 2 = 1 then (s.getD ((s.length - 1) / 2) 0 : ℚ)
  else ((s.getD (s.length / 2 - 1) 0 : ℚ) + (s.getD (s.length / 2) 0 : ℚ)) / 2

end Sys2Proof
end

