-- ==== Sys2Proof/Machine/State.lean ====
section
/-! DEFINITION. The state of the block (10_state.md R35: eleven registers and nine buffers), the host's side of the port, and the
reasons a step can stop. -/

namespace Sys2Proof.Machine

/-- The cells of one buffer whose elements are `w` bits wide (10_state.md R30): pairs of an index and the element's stored
bits, indexes strictly rising. An index that is not listed was never written since reset and has no value
(70_reset_and_hazards.md R193; 93_implementation_defined.md U1; log 3, 4). -/
abbrev Buffer (w : Nat) := List (Nat × BitVec w)

/-- The nine buffers, each at the width kept of 10_state.md R30. `DATA`, `RECON` and `ERR` hold `Fbits`, in bits
`FLEN - 1 : 0` of a 64-bit word. -/
structure Memory where
  data : Buffer 64
  recon : Buffer 64
  err : Buffer 64
  code : Buffer 32
  sign : Buffer 2
  ipart : Buffer 32
  dpart : Buffer 64
  iopart : Buffer 8
  dopart : Buffer 64
  deriving DecidableEq, Repr

/-- What the outside world does to the block: the port's two transactions (20_memory.md R50) and the reset input
(70_reset_and_hazards.md R190). -/
inductive HostEvent where
  | read (a : Nat)
  | write (a : Nat) (v : Word)
  | reset
  deriving DecidableEq, Repr

/-- What the port answered to a transaction (20_memory.md R52, R53): the data of a read, the completion of a write, or the
error response. -/
inductive Response where
  | data (v : Word)
  | done
  | error
  deriving DecidableEq, Repr

/-- The whole state: the eleven registers of 10_state.md R22 and the nine buffers of R30 (R35), and three fields of the
model's own: the open parameters `cfg`, which no step changes (log 2), the host's transactions still to come, oldest
first, and the port's answer to the last one (log 1). The float registers hold `Fbits` in bits `FLEN - 1 : 0`. -/
structure State where
  cfg : Config
  cmd : Word
  status : BitVec 17
  finfo : BitVec 36
  n : BitVec 32
  sf : Word
  offset : Word
  scale : Word
  min : Word
  max : Word
  mse : Word
  psnr : Word
  mem : Memory
  pending : List HostEvent
  response : Option Response
  deriving DecidableEq, Repr

/-- The model's own fault, which the block does not detect. -/
inductive Fault where
  /-- Raised by a command that reads element `i` of buffer `b` when it was never written since reset: the hardware reads
  an unspecified pattern and the model gives the read no value (70_reset_and_hazards.md R193; 93_implementation_defined.md
  U1, treatment `fault`). SAFE: the model stops where the hardware goes on (log 3). -/
  | unwrittenElement (b : Buf) (i : Nat)
  deriving DecidableEq, Repr

/-- The steps the model does not take. -/
inductive Refusal where
  /-- Raised by exec for an instruction that has no meaning yet. SAFE. No arm raises it now. -/
  | notModelled (mnemonic : String)
  /-- Raised by a HostRead of element `i` of buffer `b` when it was never written since reset (70_reset_and_hazards.md R193;
  93_implementation_defined.md U1, treatment `refuse`). SAFE (log 3). -/
  | unwrittenRead (b : Buf) (i : Nat)
  deriving DecidableEq, Repr

/-- Why a command's rule stops before its writes: the pseudocode's `raise` (00_scope.md R11), or the read of an element
that has no value (93_implementation_defined.md U1). -/
inductive Stop where
  | raise (c : Cause) (info : BitVec 36)
  | unwritten (b : Buf) (i : Nat)
  deriving DecidableEq, Repr

/-- Where a slot address leads (20_memory.md R56). -/
inductive Slot where
  | reg (r : Reg)
  | elem (b : Buf) (i : Nat)
  | unmapped
  deriving DecidableEq, Repr

/-- Every element of every buffer unspecified, that is unwritten (10_state.md R36; 93_implementation_defined.md U8). -/
def Memory.unwritten : Memory := ⟨[], [], [], [], [], [], [], [], []⟩

/-- The block after reset (10_state.md R36; 70_reset_and_hazards.md R190) with the parameters `c`, and a host that has
issued nothing yet (DESIGN CHOICE, log 1). -/
def State.resetOf (c : Config) : State where
  cfg := c
  cmd := 0
  status := 0
  finfo := 0
  n := 0
  sf := 0
  offset := 0
  scale := 0
  min := 0
  max := 0
  mse := 0
  psnr := 0
  mem := Memory.unwritten
  pending := []
  response := none

/-- The state right after reset (10_state.md R36), with the suggested parameters `FLEN = 64`, `AW = 16` (00_scope.md R8;
log 2). -/
def State.reset : State := State.resetOf Config.suggested

end Sys2Proof.Machine
end

