-- ==== Sys2Proof/Machine/Flags.lean ====
section
/-! DEFINITION. The `STATUS` and `FINFO` words: their fields (10_state.md R25, R26), the codes of kinds and causes
(60_exceptions.md R160, R164), and the words a fault and a success write (R166, R167). -/

namespace Sys2Proof

/-- The `KIND` code (10_state.md R25; 60_exceptions.md R160). -/
def FaultKind.toBits : FaultKind → BitVec 3
  | .none => 0
  | .domainError => 1
  | .rangeError => 2
  | .illegalCommand => 3
  | .numericError => 4

/-- The kind of a cause (60_exceptions.md R164). -/
def Cause.kind : Cause → FaultKind
  | .nRange => .domainError
  | .nonfiniteElem => .domainError
  | .nonfiniteScalar => .domainError
  | .allZero => .domainError
  | .sfNonpos => .domainError
  | .ipartOvf => .rangeError
  | .offsetRange => .rangeError
  | .dpartOvf => .rangeError
  | .residual => .rangeError
  | .codeRange => .rangeError
  | .signReserved => .rangeError
  | .outOvf => .rangeError
  | .opReserved => .illegalCommand
  | .fieldReserved => .illegalCommand
  | .wRange => .illegalCommand

/-- The `CAUSE` code (60_exceptions.md R164). -/
def Cause.code : Cause → BitVec 5
  | .nRange => 1
  | .nonfiniteElem => 2
  | .nonfiniteScalar => 3
  | .allZero => 4
  | .sfNonpos => 5
  | .ipartOvf => 8
  | .offsetRange => 9
  | .dpartOvf => 10
  | .residual => 11
  | .codeRange => 12
  | .signReserved => 13
  | .outOvf => 14
  | .opReserved => 16
  | .fieldReserved => 17
  | .wRange => 18

/-- The buffer number `k` (10_state.md R30). -/
def Buf.number : Buf → Nat
  | .data => 1
  | .recon => 2
  | .err => 3
  | .code => 4
  | .sign => 5
  | .ipart => 6
  | .dpart => 7
  | .iopart => 8
  | .dopart => 9

/-- The slot address of a register (10_state.md R22). -/
def Reg.slot : Reg → Nat
  | .cmd => 0
  | .status => 1
  | .finfo => 2
  | .n => 3
  | .sf => 4
  | .offset => 5
  | .scale => 6
  | .min => 7
  | .max => 8
  | .mse => 9
  | .psnr => 10

namespace Machine

/-- `STATUS.DONE`, bit 0 (10_state.md R25). -/
def statusDone (v : BitVec 17) : Bool := v.getLsbD 0

/-- `STATUS.ERR`, bit 1 (10_state.md R25). -/
def statusErr (v : BitVec 17) : Bool := v.getLsbD 1

/-- `STATUS.KIND`, bits 4:2 (10_state.md R25). -/
def statusKind (v : BitVec 17) : BitVec 3 := v.extractLsb' 2 3

/-- `STATUS.CAUSE`, bits 12:8 (10_state.md R25). -/
def statusCause (v : BitVec 17) : BitVec 5 := v.extractLsb' 8 5

/-- `STATUS.STICKY`, bit 16 (10_state.md R25). -/
def statusSticky (v : BitVec 17) : Bool := v.getLsbD 16

/-- A `STATUS` word from its fields; bits 15:13 and 7:5 read 0 (10_state.md R25). -/
def statusWord (sticky : Bool) (cause : BitVec 5) (kind : BitVec 3) (err done : Bool) : BitVec 17 :=
  (BitVec.ofBool sticky ++ 0#3 ++ cause ++ 0#3 ++ kind ++ BitVec.ofBool err ++ BitVec.ofBool done : BitVec 17)

/-- `STATUS` after a fault (60_exceptions.md R166): `DONE`, `ERR` and `STICKY` are 1, `KIND` and `CAUSE` the fault's. -/
def statusFault (c : Cause) : BitVec 17 := statusWord true c.code c.kind.toBits true true

/-- `STATUS` after a success (60_exceptions.md R167): `DONE` is 1, `ERR`, `KIND` and `CAUSE` are 0, `STICKY` keeps its value. -/
def statusSuccess (old : BitVec 17) : BitVec 17 :=
  statusWord (statusSticky old) 0 FaultKind.none.toBits false true

/-- `FINFO.INDEX`, bits 31:0 (10_state.md R26). -/
def finfoIndex (v : BitVec 36) : BitVec 32 := v.extractLsb' 0 32

/-- `FINFO.WHERE`, bits 35:32 (10_state.md R26). -/
def finfoWhere (v : BitVec 36) : BitVec 4 := v.extractLsb' 32 4

/-- A `FINFO` word from its fields (10_state.md R26). -/
def finfoWord (wher : BitVec 4) (index : BitVec 32) : BitVec 36 := wher ++ index

/-- `FINFO` of a fault that names no element and no register (10_state.md R26). -/
def finfoNone : BitVec 36 := 0

/-- `FINFO` of a fault that names element `i` of buffer `b` (10_state.md R26). -/
def finfoElem (b : Buf) (i : Nat) : BitVec 36 := finfoWord (BitVec.ofNat 4 b.number) (BitVec.ofNat 32 i)

/-- `FINFO` of a fault that names a scalar register (10_state.md R26). -/
def finfoReg (r : Reg) : BitVec 36 := finfoWord 0 (BitVec.ofNat 32 r.slot)

end Machine
end Sys2Proof
end

