-- ==== Sys2Proof/Machine/Ops.lean ====
section
/-! DEFINITION. The named operations every command is written with: reading and writing a buffer, scanning an array from the
lowest index, taking a fault (60_exceptions.md R166) and succeeding (R167). -/

namespace Sys2Proof.Machine

/-- The stored bits of element `i` of a buffer, none when it was never written since reset (70_reset_and_hazards.md R193;
log 3). -/
def Buffer.read? {w : Nat} : Buffer w → Nat → Option (BitVec w)
  | [], _ => none
  | (j, x) :: rest, i => if j = i then some x else Buffer.read? rest i

/-- Store `x` in element `i` of a buffer, keeping the indexes strictly rising (10_state.md R31). -/
def Buffer.write {w : Nat} : Buffer w → Nat → BitVec w → Buffer w
  | [], i, x => [(i, x)]
  | (j, y) :: rest, i, x =>
    if i < j then (i, x) :: (j, y) :: rest
    else if i = j then (i, x) :: rest
    else (j, y) :: Buffer.write rest i x

/-- Store a list in the elements from `i` on. -/
def Buffer.writeFrom {w : Nat} (b : Buffer w) (i : Nat) : List (BitVec w) → Buffer w
  | [] => b
  | x :: xs => Buffer.writeFrom (Buffer.write b i x) (i + 1) xs

/-- `BUF[i] <- x[i] for i in 0..N-1` (00_scope.md R11). -/
def Buffer.writeAll {w : Nat} (b : Buffer w) (xs : List (BitVec w)) : Buffer w := Buffer.writeFrom b 0 xs

/-- The indexes of a buffer are strictly rising and above `lo`, if there is one. -/
def Buffer.risingAbove {w : Nat} : Option Nat → Buffer w → Bool
  | _, [] => true
  | none, (j, _) :: rest => Buffer.risingAbove (some j) rest
  | some lo, (j, _) :: rest => decide (lo < j) && Buffer.risingAbove (some j) rest

/-- The canonical form of a buffer: its indexes are strictly rising (log 4). -/
def Buffer.canonical {w : Nat} (b : Buffer w) : Bool := Buffer.risingAbove none b

/-- The canonical form of the memory: each of the nine buffers has it. -/
def Memory.wf (m : Memory) : Bool :=
  Buffer.canonical m.data && Buffer.canonical m.recon && Buffer.canonical m.err && Buffer.canonical m.code &&
    Buffer.canonical m.sign && Buffer.canonical m.ipart && Buffer.canonical m.dpart && Buffer.canonical m.iopart &&
    Buffer.canonical m.dopart

/-- `f` for every element of a list from the lowest index on, stopping at the first that stops (00_scope.md R11,
`for i in 0..N-1`); `i` is the index of the first element. -/
def forEachFrom {α β : Type} (f : Nat → α → Except Stop β) : Nat → List α → Except Stop (List β)
  | _, [] => .ok []
  | i, a :: rest =>
    match f i a with
    | .error e => .error e
    | .ok b =>
      match forEachFrom f (i + 1) rest with
      | .error e => .error e
      | .ok bs => .ok (b :: bs)

/-- `f` for every index from 0 to `n - 1`, stopping at the lowest that stops (00_scope.md R11). -/
def forIndex {β : Type} (f : Nat → Except Stop β) (n : Nat) : Except Stop (List β) :=
  forEachFrom (fun i _ => f i) 0 (List.replicate n ())

/-- `for i in 0..N-1, lowest i first: if bad x[i]: raise c`, naming the element of buffer `b` (00_scope.md R11, R12). -/
def checkEach {α : Type} (bad : α → Bool) (c : Cause) (b : Buf) (xs : List α) : Except Stop Unit :=
  match xs.findIdx? bad with
  | some i => .error (.raise c (finfoElem b i))
  | none => .ok ()

/-- Taking a fault of cause `c` with fault information `info`: `STATUS` and `FINFO` are written and nothing else changes;
control goes nowhere (60_exceptions.md R166). There is no return from a fault: nothing was saved (R168). -/
def takeFault (c : Cause) (info : BitVec 36) (s : State) : State :=
  { s with status := statusFault c, finfo := info }

/-- What every successful command writes besides its outputs (60_exceptions.md R167). -/
def succeed (s : State) : State := { s with status := statusSuccess s.status, finfo := finfoNone }

/-- The end of a command started in `s` (60_exceptions.md R160): success with the outputs its rule has written, a fault that
leaves `s` but for `STATUS` and `FINFO`, or the model's own fault for an element that has no value (log 3). -/
def finish (s : State) : Except Stop State → Host.Outcome State Fault Refusal
  | .ok t => .next (succeed t)
  | .error (.raise c info) => .next (takeFault c info s)
  | .error (.unwritten b i) => .fault (.unwrittenElement b i)

end Sys2Proof.Machine
end

