-- ==== Sys2Proof/Machine/Operands.lean ====
section
/-! DEFINITION. The operand forms of the commands, each with the check the spec makes when it is read: the element count, float
and integer elements, scalar registers, the inferred scaling factor, and the rounding of a float array output. -/

namespace Sys2Proof.Machine

/-- The element count: `N`, with `1 ≤ N ≤ NMAX` checked (10_state.md R27; step 1 of every command). -/
def elementCount (s : State) : Except Stop Nat :=
  if s.n.toNat = 0 ∨ s.cfg.nmax < s.n.toNat then .error (.raise .nRange finfoNone) else .ok s.n.toNat

/-- Element `i` of buffer `b` as an operand: it has no value when it was never written (93_implementation_defined.md U1;
log 3). -/
def readElem {w : Nat} (b : Buf) (m : Buffer w) (i : Nat) : Except Stop (BitVec w) :=
  match Buffer.read? m i with
  | some x => .ok x
  | none => .error (.unwritten b i)

/-- The elements `0..n-1` of a buffer whose rule puts no check on them. -/
def readElems {w : Nat} (b : Buf) (m : Buffer w) (n : Nat) : Except Stop (List (BitVec w)) :=
  forIndex (readElem b m) n

/-- The value of element `i` of a float buffer, which must be finite (40_numerics.md R103). -/
def finiteElem (f : FloatWidth) (b : Buf) (m : Buffer 64) (i : Nat) : Except Stop ℚ := do
  let x ← readElem b m i
  if f.isFinite x then .ok (f.val x) else .error (.raise .nonfiniteElem (finfoElem b i))

/-- The values of the elements `0..n-1` of a float buffer, the lowest non-finite one reported (40_numerics.md R93, R103). -/
def finiteElems (f : FloatWidth) (b : Buf) (m : Buffer 64) (n : Nat) : Except Stop (List ℚ) :=
  forIndex (finiteElem f b m) n

/-- `2^W - 1` (30_encoding.md R73). -/
def maxCode (w : BitVec 6) : ℤ := 2 ^ w.toNat - 1

/-- Element `i` of `CODE` as an integer, at most `2^W - 1` (41_uniform.md R121 step 3). -/
def codeElem (w : BitVec 6) (m : Buffer 32) (i : Nat) : Except Stop ℤ := do
  let x ← readElem .code m i
  if maxCode w < x.toNat then .error (.raise .codeRange (finfoElem .code i)) else .ok x.toNat

/-- Element `i` of `SIGN` as an integer in -1, 0, 1; the code `0b10` is reserved (10_state.md R32;
43_adaptive_sign_magnitude.md R141 step 3). -/
def signElem (m : Buffer 2) (i : Nat) : Except Stop ℤ := do
  let x ← readElem .sign m i
  if x = 0b10#2 then .error (.raise .signReserved (finfoElem .sign i)) else .ok x.toInt

/-- The value of a scalar operand register, which must be finite (40_numerics.md R103). -/
def finiteScalar (f : FloatWidth) (r : Reg) (x : Word) : Except Stop ℚ :=
  if f.isFinite x then .ok (f.val x) else .error (.raise .nonfiniteScalar (finfoReg r))

/-- The value of `SF` as an operand: finite, then positive (60_exceptions.md R164, R165 step 4). -/
def suppliedSf (s : State) : Except Stop ℚ := do
  let v ← finiteScalar s.cfg.flen .sf s.sf
  if v ≤ 0 then .error (.raise .sfNonpos (finfoReg .sf)) else .ok v

/-- The inferred scaling factor `fl(10^kexp(m))`, `m` the least non-zero magnitude of the list
(43_adaptive_sign_magnitude.md R140 step 4; 40_numerics.md R108). -/
def inferSf (f : FloatWidth) (magnitudes : List ℚ) : Except Stop Word :=
  let nonzero := magnitudes.filter (· ≠ 0)
  if nonzero.isEmpty then .error (.raise .allZero finfoNone)
  else
    match f.fl ((10 : ℚ) ^ kexp (minOf nonzero)) with
    | none => .error (.raise .outOvf (finfoReg .sf))
    | some b => .ok b

/-- The scaling factor's pattern: the register `SF` when it is supplied, the inferred one otherwise
(43_adaptive_sign_magnitude.md R140 step 4). -/
def scalingFactor (sfs : Bool) (s : State) (magnitudes : List ℚ) : Except Stop Word :=
  if sfs then do
    let _ ← suppliedSf s
    .ok s.sf
  else inferSf s.cfg.flen magnitudes

/-- `integer_part = floor(a)` of a magnitude (43_adaptive_sign_magnitude.md R140 step 5). -/
def integerPart (a : ℚ) : ℤ := ⌊a⌋

/-- The width check on the integer parts of the magnitudes of `DATA` (43_adaptive_sign_magnitude.md R140 step 5). -/
def checkIntegerParts (w : BitVec 6) (magnitudes : List ℚ) : Except Stop Unit :=
  checkEach (fun a => maxCode w < integerPart a) .ipartOvf .data magnitudes

/-- The largest value of a 64-bit signed element, `2^63 - 1` (40_numerics.md R100). -/
def maxDpart : ℤ := 2 ^ 63 - 1

/-- A float array output: `fl` of each ideal value, the lowest overflow reported as element of buffer `b`
(40_numerics.md R106). -/
def roundElems (f : FloatWidth) (b : Buf) (vs : List ℚ) : Except Stop (List Word) := do
  checkEach (fun v => (f.fl v).isNone) .outOvf b vs
  .ok (vs.map f.flFits)

/-- An integer stored in `w` bits, two's complement (00_scope.md R9); its rule has checked that it fits (10_state.md R31). -/
def storeInts (w : Nat) (xs : List ℤ) : List (BitVec w) := xs.map (BitVec.ofInt w)

end Sys2Proof.Machine
end

