-- ==== Sys2Proof/Machine/Adaptive.lean ====
section
/-! DEFINITION. The adaptive sign-magnitude quantizer and dequantizer: `ASMQ` (43_adaptive_sign_magnitude.md R140) and `ASMDQ`
(R141). -/

namespace Sys2Proof.Machine

/-- `decimal_part` of a magnitude with the factor `sf` (43_adaptive_sign_magnitude.md R140 step 6). -/
def decimalPart (sf a : ℚ) : ℤ := rnd ((a - integerPart a) * sf)

/-- The ideal reconstruction of an element (43_adaptive_sign_magnitude.md R141 step 5). -/
def adaptiveValue (sf : ℚ) (sign ip dp : ℤ) : ℚ := sign * (ip + dp / sf)

/-- `ASMQ W` and `ASMQ.SF W` up to their writes (43_adaptive_sign_magnitude.md R140). -/
def asmqResult (w : BitVec 6) (sfs : Bool) (s : State) : Except Stop State := do
  let n ← elementCount s
  let d ← finiteElems s.cfg.flen .data s.mem.data n
  let a := d.map (fun x => |x|)
  let sfb ← scalingFactor sfs s a
  let sf := s.cfg.flen.val sfb
  checkIntegerParts w a
  checkEach (fun x => maxDpart < decimalPart sf x) .dpartOvf .data a
  .ok { s with
    mem := { s.mem with
      sign := Buffer.writeAll s.mem.sign (storeInts 2 (d.map sgn))
      ipart := Buffer.writeAll s.mem.ipart (storeInts 32 (a.map integerPart))
      dpart := Buffer.writeAll s.mem.dpart (storeInts 64 (a.map (decimalPart sf))) }
    sf := if sfs then s.sf else sfb }

/-- The ideal reconstructions of a list of signs with their integer and decimal parts (43_adaptive_sign_magnitude.md R141
step 5). -/
def adaptiveValues (sf : ℚ) (signs : List ℤ) (ips : List (BitVec 32)) (dps : List (BitVec 64)) : List ℚ :=
  (signs.zip (ips.zip dps)).map (fun e => adaptiveValue sf e.1 e.2.1.toNat e.2.2.toInt)

/-- `ASMDQ` and `ASMDQ.E` up to their writes (43_adaptive_sign_magnitude.md R141). With `E = 0` no element of `DATA` is read
and the list of errors is empty, so that `ERR` is left as it is; with `E = 1` the error is taken against the delivered
reconstruction. -/
def asmdqResult (e : Bool) (s : State) : Except Stop State := do
  let n ← elementCount s
  let sf ← suppliedSf s
  let signs ← forIndex (signElem s.mem.sign) n
  let d ← if e then finiteElems s.cfg.flen .data s.mem.data n else .ok []
  let ips ← readElems .ipart s.mem.ipart n
  let dps ← readElems .dpart s.mem.dpart n
  let recon ← roundElems s.cfg.flen .recon (adaptiveValues sf signs ips dps)
  let err ← roundElems s.cfg.flen .err (d.zipWith (fun x r => x - s.cfg.flen.val r) recon)
  .ok { s with mem := { s.mem with
    recon := Buffer.writeAll s.mem.recon recon
    err := Buffer.writeAll s.mem.err err } }

/-- `ASMQ W`, adaptive_sign_magnitude_quantizer (43_adaptive_sign_magnitude.md R140). -/
def execAsmq (w : BitVec 6) (sfs : Bool) (s : State) : Host.Outcome State Fault Refusal := finish s (asmqResult w sfs s)

/-- `ASMDQ`, adaptive_sign_magnitude_dequantizer (43_adaptive_sign_magnitude.md R141). -/
def execAsmdq (e : Bool) (s : State) : Host.Outcome State Fault Refusal := finish s (asmdqResult e s)

end Sys2Proof.Machine
end

