-- ==== Sys2Proof/Machine/Log10.lean ====
section
/-! DEFINITION. `fl` of the exact decimal logarithm of a rational, by integer comparisons only (40_numerics.md R99), and the
`PSNR` pattern (42_error_metrics.md R131). Log 5 says how. -/

namespace Sys2Proof

/-- The binary digits of a decimal logarithm by repeated squaring. With `10^n * y = Q^(2^j)` and
`lo / 2^prec ≤ y ≤ hi / 2^prec`, `1 ≤ y < 10`, squaring `y` doubles the logarithm, and the next digit is 1 when `y^2 ≥ 10`.
`none`: the precision does not tell the digit. -/
def logDigits (prec : Nat) : Nat → Nat → Nat → ℤ → Option ℤ
  | 0, _, _, n => some n
  | k + 1, lo, hi, n =>
    if 10 * 2 ^ prec ≤ lo * lo / 2 ^ prec then
      logDigits prec k (lo * lo / 2 ^ prec / 10) ((hi * hi / 2 ^ prec + 1) / 10 + 1) (2 * n + 1)
    else if hi * hi / 2 ^ prec + 1 < 10 * 2 ^ prec then
      logDigits prec k (lo * lo / 2 ^ prec) (hi * hi / 2 ^ prec + 1) (2 * n)
    else none

/-- `floor(2^j * log10 Q)` by interval squaring at precision `prec`, when that precision suffices. -/
def logByInterval (j : Nat) (Q : ℚ) (prec : Nat) : Option ℤ :=
  let n := Int.log 10 Q
  let y := ⌊Q / (10 : ℚ) ^ n * (2 : ℚ) ^ prec⌋.toNat
  logDigits prec j y (y + 1) n

/-- `floor(2^j * log10 Q)`, that is `floor(log10 (Q^(2^j)))`, exactly: by interval squaring where one of three precisions
suffices, and by its definition otherwise. Both give the same integer (Laws, `scaledLog_eq`). -/
def scaledLog (j : Nat) (Q : ℚ) : ℤ :=
  ([j + 64, 4 * j + 64, 16 * j + 64].findSome? (logByInterval j Q)).getD (Int.log 10 (Q ^ (2 ^ j)))

/-- Every boundary at which `fl` changes is a multiple of `2^(emin - p)` (40_numerics.md R92): this is `p - emin`. -/
def FloatWidth.gridBits (f : FloatWidth) : Nat := ((f.precision : ℤ) - f.emin).toNat

/-- `fl(log10 Q)` for a rational `Q > 0` (40_numerics.md R92, R99). The logarithm is an integer when `Q` is a power of ten and
irrational otherwise; then it lies strictly between the neighbouring multiples `h` and `h + 1` of `2^(emin - p)`, where no
rounding boundary is, so that `fl` of the point half-way between them is `fl` of the logarithm. -/
def FloatWidth.flLog10 (f : FloatWidth) (Q : ℚ) : Option Word :=
  if (10 : ℚ) ^ Int.log 10 Q = Q then f.fl (Int.log 10 Q)
  else f.fl ((2 * scaledLog f.gridBits Q + 1) / 2 ^ (f.gridBits + 1))

/-- The `PSNR` pattern (42_error_metrics.md R131). In the third case `20 * log10(peak / sqrt(mse))` is
`10 * log10(peak^2 / mse)` (40_numerics.md R99), the decimal logarithm of `(peak^2 / mse)^10`; it never overflows
(R131; log 7). -/
def FloatWidth.psnr (f : FloatWidth) (mse peak : ℚ) : Word :=
  if mse = 0 then f.posInf
  else if peak = 0 then f.negInf
  else (f.flLog10 ((peak ^ 2 / mse) ^ 10)).getD 0

end Sys2Proof
end

