-- ==== Sys2Proof/Machine/Metrics.lean ====
section
/-! DEFINITION. The error metrics: `EM` (42_error_metrics.md R130, R131). -/

namespace Sys2Proof.Machine

/-- The exact `mse` of an original and a reconstruction (42_error_metrics.md R130 step 4). -/
def exactMse (o r : List ℚ) : ℚ := mean (o.zipWith (fun x y => (x - y) ^ 2) r)

/-- The exact `peak` of the original (42_error_metrics.md R130 step 4). -/
def exactPeak (o : List ℚ) : ℚ := maxOf (o.map (fun x => |x|))

/-- `EM` up to its writes (42_error_metrics.md R130). -/
def emResult (s : State) : Except Stop State := do
  let n ← elementCount s
  let o ← finiteElems s.cfg.flen .data s.mem.data n
  let r ← finiteElems s.cfg.flen .recon s.mem.recon n
  match s.cfg.flen.fl (exactMse o r) with
  | none => .error (.raise .outOvf (finfoReg .mse))
  | some mse => .ok { s with mse := mse, psnr := s.cfg.flen.psnr (exactMse o r) (exactPeak o) }

/-- `EM`, error_metrics_mse_psnr (42_error_metrics.md R130). -/
def execEm (s : State) : Host.Outcome State Fault Refusal := finish s (emResult s)

end Sys2Proof.Machine
end

