-- ==== Sys2Proof/Machine/Offset.lean ====
section
/-! DEFINITION. The offset-refinement quantizer and dequantizer: `ORQ` (44_offset_refinement.md R150) and `ORDQ` (R151). -/

namespace Sys2Proof.Machine

/-- `t = integer_part - offset` of a magnitude, an exact rational (44_offset_refinement.md R150 step 8). -/
def offsetDifference (o a : ℚ) : ℚ := integerPart a - o

/-- `t` is not an integer of `[-128, 127]` (44_offset_refinement.md R150 step 8). -/
def offsetUnfit (o a : ℚ) : Bool :=
  offsetDifference o a ≠ ⌊offsetDifference o a⌋ || offsetDifference o a < -128 || 127 < offsetDifference o a

/-- `integer_offset_part`, the difference once it is known to be an integer (44_offset_refinement.md R150 step 8). -/
def offsetPart (o a : ℚ) : ℤ := ⌊offsetDifference o a⌋

/-- The residual before rounding (44_offset_refinement.md R150 step 9; 90_conflicts.md C2). -/
def residual (sf o a : ℚ) : ℚ := (a - (offsetPart o a + o)) * sf

/-- `decimal_offset_part` (44_offset_refinement.md R150 step 9). -/
def decimalOffsetPart (sf o a : ℚ) : ℤ := rnd (residual sf o a)

/-- The ideal reconstruction of an element (44_offset_refinement.md R151 step 4, the canonical formula of R152). -/
def offsetValue (sf o : ℚ) (sign iop dop : ℤ) : ℚ := sign * (iop + o + dop / sf)

/-- The check of the supplied scalars, `SF` before `OFFSET` (44_offset_refinement.md R150 step 4). -/
def checkSupplied (sfs ofs : Bool) (s : State) : Except Stop Unit := do
  if sfs then
    let _ ← suppliedSf s
  if ofs then
    let _ ← finiteScalar s.cfg.flen .offset s.offset

/-- The offset's pattern: the register when it is supplied, the rounded median of the integer parts otherwise, which never
overflows (44_offset_refinement.md R150 step 7; 40_numerics.md R106, R108; log 7). -/
def offsetBits (ofs : Bool) (s : State) (magnitudes : List ℚ) : Word :=
  if ofs then s.offset else s.cfg.flen.flFits (median (magnitudes.map integerPart))

/-- `ORQ W` with its flags up to its writes (44_offset_refinement.md R150). -/
def orqResult (w : BitVec 6) (sfs ofs : Bool) (s : State) : Except Stop State := do
  let n ← elementCount s
  let d ← finiteElems s.cfg.flen .data s.mem.data n
  let a := d.map (fun x => |x|)
  checkSupplied sfs ofs s
  let sfb ← scalingFactor sfs s a
  let sf := s.cfg.flen.val sfb
  checkIntegerParts w a
  let ofb := offsetBits ofs s a
  let o := s.cfg.flen.val ofb
  checkEach (offsetUnfit o) .offsetRange .data a
  checkEach (fun x => residual sf o x < 0 || sf ≤ residual sf o x) .residual .data a
  checkEach (fun x => maxDpart < decimalOffsetPart sf o x) .dpartOvf .data a
  .ok { s with
    mem := { s.mem with
      sign := Buffer.writeAll s.mem.sign (storeInts 2 (d.map sgn))
      iopart := Buffer.writeAll s.mem.iopart (storeInts 8 (a.map (offsetPart o)))
      dopart := Buffer.writeAll s.mem.dopart (storeInts 64 (a.map (decimalOffsetPart sf o))) }
    sf := if sfs then s.sf else sfb
    offset := if ofs then s.offset else ofb }

/-- The ideal reconstructions of a list of signs with their offset parts (44_offset_refinement.md R151 step 4). -/
def offsetValues (sf o : ℚ) (signs : List ℤ) (iops : List (BitVec 8)) (dops : List (BitVec 64)) : List ℚ :=
  (signs.zip (iops.zip dops)).map (fun e => offsetValue sf o e.1 e.2.1.toInt e.2.2.toInt)

/-- `ORDQ` up to its writes (44_offset_refinement.md R151). -/
def ordqResult (s : State) : Except Stop State := do
  let n ← elementCount s
  let sf ← suppliedSf s
  let o ← finiteScalar s.cfg.flen .offset s.offset
  let signs ← forIndex (signElem s.mem.sign) n
  let iops ← readElems .iopart s.mem.iopart n
  let dops ← readElems .dopart s.mem.dopart n
  let recon ← roundElems s.cfg.flen .recon (offsetValues sf o signs iops dops)
  .ok { s with mem := { s.mem with recon := Buffer.writeAll s.mem.recon recon } }

/-- `ORQ W`, offset_refinement_quantizer (44_offset_refinement.md R150). -/
def execOrq (w : BitVec 6) (sfs ofs : Bool) (s : State) : Host.Outcome State Fault Refusal :=
  finish s (orqResult w sfs ofs s)

/-- `ORDQ`, offset_refinement_dequantizer (44_offset_refinement.md R151). -/
def execOrdq (s : State) : Host.Outcome State Fault Refusal := finish s (ordqResult s)

end Sys2Proof.Machine
end

