-- ==== Sys2Proof/Machine/Uniform.lean ====
section
/-! DEFINITION. The uniform quantizer and dequantizer: `UQ` (41_uniform.md R120) and `UDQ` (R121). -/

namespace Sys2Proof.Machine

/-- The ideal scale `s` of `UQ` (41_uniform.md R120 step 4): 0 for a constant array. -/
def uniformScale (w : BitVec 6) (mn mx : ℚ) : ℚ := if mx = mn then 0 else maxCode w / (mx - mn)

/-- The code of a sample (41_uniform.md R120 step 4), with the source's clamp, which never acts (R122). -/
def uniformCode (w : BitVec 6) (mn mx d : ℚ) : ℤ :=
  if mx = mn then 0 else min (max (rnd ((d - mn) * uniformScale w mn mx)) 0) (maxCode w)

/-- The ideal value of a code (41_uniform.md R121 step 4). -/
def uniformValue (w : BitVec 6) (scale mn mx : ℚ) (code : ℤ) : ℚ :=
  if scale = 0 then mn else (code : ℚ) / maxCode w * (mx - mn) + mn

/-- `UQ W` up to its writes (41_uniform.md R120). -/
def uqResult (w : BitVec 6) (s : State) : Except Stop State := do
  let n ← elementCount s
  let d ← finiteElems s.cfg.flen .data s.mem.data n
  let mn := minOf d
  let mx := maxOf d
  match s.cfg.flen.fl (uniformScale w mn mx) with
  | none => .error (.raise .outOvf (finfoReg .scale))
  | some scale =>
    .ok { s with
      mem := { s.mem with code := Buffer.writeAll s.mem.code (storeInts 32 (d.map (uniformCode w mn mx))) }
      scale := scale
      min := s.cfg.flen.flFits mn
      max := s.cfg.flen.flFits mx }

/-- `UDQ W` up to its writes (41_uniform.md R121); its outputs never overflow (R123; log 7). -/
def udqResult (w : BitVec 6) (s : State) : Except Stop State := do
  let n ← elementCount s
  let scale ← finiteScalar s.cfg.flen .scale s.scale
  let mn ← finiteScalar s.cfg.flen .min s.min
  let mx ← finiteScalar s.cfg.flen .max s.max
  let codes ← forIndex (codeElem w s.mem.code) n
  let v := codes.map (uniformValue w scale mn mx)
  .ok { s with mem := { s.mem with recon := Buffer.writeAll s.mem.recon (v.map s.cfg.flen.flFits) } }

/-- `UQ W`, uniform_quantizer (41_uniform.md R120). -/
def execUq (w : BitVec 6) (s : State) : Host.Outcome State Fault Refusal := finish s (uqResult w s)

/-- `UDQ W`, uniform_dequantizer (41_uniform.md R121). -/
def execUdq (w : BitVec 6) (s : State) : Host.Outcome State Fault Refusal := finish s (udqResult w s)

end Sys2Proof.Machine
end

