-- ==== Sys2Proof/Machine/Dispatch.lean ====
section
/-! DEFINITION. The meaning of each command, one arm per constructor of Instr (30_encoding.md R70). -/

namespace Sys2Proof.Machine

def exec (i : Instr) (s : State) : Host.Outcome State Fault Refusal :=
  match i with
  | .uq w => Sys2Proof.Machine.execUq w s
  | .udq w => Sys2Proof.Machine.execUdq w s
  | .asmq w sfs => Sys2Proof.Machine.execAsmq w sfs s
  | .asmdq e => Sys2Proof.Machine.execAsmdq e s
  | .orq w sfs ofs => Sys2Proof.Machine.execOrq w sfs ofs s
  | .ordq => Sys2Proof.Machine.execOrdq s
  | .em => Sys2Proof.Machine.execEm s

end Sys2Proof.Machine
end

