-- ==== Sys2Proof/Machine/Port.lean ====
section
/-! DEFINITION. The host port: the slot map (20_memory.md R56), `HostRead` (R52), `HostWrite` (R53), the command a write of `CMD`
performs (10_state.md R24), and the reset input (70_reset_and_hazards.md R190). -/

namespace Sys2Proof.Machine

/-- The register at a slot address (10_state.md R22). -/
def regOfSlot : Nat → Option Reg
  | 0 => some .cmd
  | 1 => some .status
  | 2 => some .finfo
  | 3 => some .n
  | 4 => some .sf
  | 5 => some .offset
  | 6 => some .scale
  | 7 => some .min
  | 8 => some .max
  | 9 => some .mse
  | 10 => some .psnr
  | _ => none

/-- The buffer of number `k` (10_state.md R30). -/
def bufOfNumber : Nat → Option Buf
  | 1 => some .data
  | 2 => some .recon
  | 3 => some .err
  | 4 => some .code
  | 5 => some .sign
  | 6 => some .ipart
  | 7 => some .dpart
  | 8 => some .iopart
  | 9 => some .dopart
  | _ => none

/-- Where a slot address leads (20_memory.md R56): with `B = 2^AW`, the registers below `B`, element `i` of buffer `k` at
`k * B + i`, the rest unmapped. -/
def slotOf (c : Config) (a : Nat) : Slot :=
  if a < c.nmax then
    match regOfSlot a with
    | some r => .reg r
    | none => .unmapped
  else
    match bufOfNumber (a / c.nmax) with
    | some b => .elem b (a % c.nmax)
    | none => .unmapped

/-- The slot address of element `i` of buffer `b` (10_state.md R30). -/
def elemSlot (c : Config) (b : Buf) (i : Nat) : Nat := b.number * c.nmax + i

/-- The low `FLEN` bits of a word: what a float register or element keeps of a host write (10_state.md R23, R31; log 11). -/
def keepFlen (f : FloatWidth) (v : Word) : Word :=
  match f with
  | .b32 => (v.setWidth 32).setWidth 64
  | .b64 => v

/-- What a `HostRead` of a register returns: its stored bits, zero-extended (10_state.md R23; 20_memory.md R52). -/
def readReg (s : State) : Reg → Word
  | .cmd => s.cmd
  | .status => s.status.setWidth 64
  | .finfo => s.finfo.setWidth 64
  | .n => s.n.setWidth 64
  | .sf => s.sf
  | .offset => s.offset
  | .scale => s.scale
  | .min => s.min
  | .max => s.max
  | .mse => s.mse
  | .psnr => s.psnr

/-- What a `HostRead` of an element returns: the stored bits, sign-extended for `SIGN` and `IOPART` and zero-extended for the
others; none when the element was never written (10_state.md R30, R31). -/
def readElement (m : Memory) (b : Buf) (i : Nat) : Option Word :=
  match b with
  | .data => Buffer.read? m.data i
  | .recon => Buffer.read? m.recon i
  | .err => Buffer.read? m.err i
  | .code => (Buffer.read? m.code i).map (fun x => x.setWidth 64)
  | .sign => (Buffer.read? m.sign i).map (fun x => x.signExtend 64)
  | .ipart => (Buffer.read? m.ipart i).map (fun x => x.setWidth 64)
  | .dpart => Buffer.read? m.dpart i
  | .iopart => (Buffer.read? m.iopart i).map (fun x => x.signExtend 64)
  | .dopart => Buffer.read? m.dopart i

/-- The memory after a `HostWrite` of an element: the low bits of the word, as many as the element is wide
(10_state.md R31). -/
def writeElement (f : FloatWidth) (m : Memory) (b : Buf) (i : Nat) (v : Word) : Memory :=
  match b with
  | .data => { m with data := Buffer.write m.data i (keepFlen f v) }
  | .recon => { m with recon := Buffer.write m.recon i (keepFlen f v) }
  | .err => { m with err := Buffer.write m.err i (keepFlen f v) }
  | .code => { m with code := Buffer.write m.code i (v.setWidth 32) }
  | .sign => { m with sign := Buffer.write m.sign i (v.setWidth 2) }
  | .ipart => { m with ipart := Buffer.write m.ipart i (v.setWidth 32) }
  | .dpart => { m with dpart := Buffer.write m.dpart i v }
  | .iopart => { m with iopart := Buffer.write m.iopart i (v.setWidth 8) }
  | .dopart => { m with dopart := Buffer.write m.dopart i v }

/-- The port's answer to a transaction, with no other effect. -/
def respond (r : Response) (s : State) : State := { s with response := some r }

/-- `HostRead(a)` (20_memory.md R52): no state of the block changes. An element never written has no value, and its read is
refused (93_implementation_defined.md U1; log 3); an unmapped slot gets the error response (log 6). -/
def hostRead (a : Nat) (s : State) : Host.Outcome State Fault Refusal :=
  match slotOf s.cfg a with
  | .reg r => .next (respond (.data (readReg s r)) s)
  | .elem b i =>
    match readElement s.mem b i with
    | some v => .next (respond (.data v) s)
    | none => .refused (.unwrittenRead b i)
  | .unmapped => .next (respond .error s)

/-- The state in which the command of a `CMD` write of `v` runs: `CMD` holds `v` (10_state.md R24), and the port will answer
that the write completed, whether the command succeeds or faults (60_exceptions.md R166). -/
def storeCmd (v : Word) (s : State) : State := { s with cmd := v, response := some .done }

/-- `HostWrite(0x00, v)`: `v` is stored in `CMD`, then the command is performed; a word that is no command takes an
IllegalCommand fault (10_state.md R24; 30_encoding.md R75). -/
def writeCmd (v : Word) (s : State) : Host.Outcome State Fault Refusal :=
  match decode v with
  | .ok i => exec i (storeCmd v s)
  | .error c => .next (takeFault c finfoNone (storeCmd v s))

/-- `HostWrite` to a register (20_memory.md R53): the host-writable ones keep the low bits of the word (10_state.md R23), the
read-only ones give the error response (log 6). -/
def writeReg (r : Reg) (v : Word) (s : State) : Host.Outcome State Fault Refusal :=
  match r with
  | .cmd => writeCmd v s
  | .status => .next (respond .error s)
  | .finfo => .next (respond .error s)
  | .n => .next (respond .done { s with n := v.setWidth 32 })
  | .sf => .next (respond .done { s with sf := keepFlen s.cfg.flen v })
  | .offset => .next (respond .done { s with offset := keepFlen s.cfg.flen v })
  | .scale => .next (respond .done { s with scale := keepFlen s.cfg.flen v })
  | .min => .next (respond .done { s with min := keepFlen s.cfg.flen v })
  | .max => .next (respond .done { s with max := keepFlen s.cfg.flen v })
  | .mse => .next (respond .error s)
  | .psnr => .next (respond .error s)

/-- `HostWrite(a, v)` (20_memory.md R53). -/
def hostWrite (a : Nat) (v : Word) (s : State) : Host.Outcome State Fault Refusal :=
  match slotOf s.cfg a with
  | .reg r => writeReg r v s
  | .elem b i => .next (respond .done { s with mem := writeElement s.cfg.flen s.mem b i v })
  | .unmapped => .next (respond .error s)

/-- The reset input (70_reset_and_hazards.md R190): the block is in its reset state; the parameters are the block's own, and
what the host does next is the host's (log 8). -/
def resetBlock (s : State) : State := { State.resetOf s.cfg with pending := s.pending }

/-- One event of the outside world. -/
def perform (e : HostEvent) (s : State) : Host.Outcome State Fault Refusal :=
  match e with
  | .read a => hostRead a s
  | .write a v => hostWrite a v s
  | .reset => .next (resetBlock s)

/-- The host's next transaction is taken from the front of `pending` and performed; with none left the block holds its state
and does nothing (20_memory.md R51; 60_exceptions.md R181; log 1). -/
def hostStep (s : State) : Host.Outcome State Fault Refusal :=
  match s.pending with
  | [] => .next s
  | e :: rest => perform e { s with pending := rest }

/-- The state with a `CMD` write of the word `v` as the host's next transaction (log 1). -/
def issueCmd (v : Word) (s : State) : State := { s with pending := .write Reg.cmd.slot v :: s.pending }

end Sys2Proof.Machine
end

