-- ==== Sys2Proof/Machine/Step.lean ====
section
/-! DEFINITION. One step: the host performs one transaction (20_memory.md R51). -/

namespace Sys2Proof.Machine

/-- One step of the machine: the host's next transaction (20_memory.md R51, R54). -/
def step (s : State) : Host.Outcome State Fault Refusal := hostStep s

/-- `s` with the instruction of the table word `w` as the host's next `CMD` write, so that the next step runs it (log 1). -/
def State.withFetchWord (s : State) (nbits w : Nat) : State := issueCmd (tableWord nbits w) s

end Sys2Proof.Machine
end

