-- ==== Sys2Proof/Safety.lean ====
section
/-! DEFINITION. What claims are stated in: the well-formed states, operands as functions of the index, the readiness of a
command's operands, and which operands and outputs a command has (10_state.md R33). -/

namespace Sys2Proof.Machine

/-- Elements `0..n-1` of a buffer hold the stored bits `x i`. -/
abbrev Holds {w : Nat} (b : Buffer w) (n : Nat) (x : Nat → BitVec w) : Prop :=
  ∀ i < n, Buffer.read? b i = some (x i)

/-- Elements `0..n-1` of a buffer have been written since reset (70_reset_and_hazards.md R192). -/
abbrev Written {w : Nat} (b : Buffer w) (n : Nat) : Prop := ∀ i < n, (Buffer.read? b i).isSome = true

/-- Elements at index `n` and above are as before (10_state.md R33). -/
abbrev TailKept {w : Nat} (old new : Buffer w) (n : Nat) : Prop :=
  ∀ i, n ≤ i → Buffer.read? new i = Buffer.read? old i

/-- Two buffers agree on the elements `0..n-1`. -/
abbrev Agree {w : Nat} (b c : Buffer w) (n : Nat) : Prop := ∀ i < n, Buffer.read? b i = Buffer.read? c i

/-- `mn` is the least of the values at indexes `0..n-1` (40_numerics.md R96). -/
abbrev LeastOf (n : Nat) (v : Nat → ℚ) (mn : ℚ) : Prop := (∃ i < n, v i = mn) ∧ ∀ i < n, mn ≤ v i

/-- `mx` is the greatest of the values at indexes `0..n-1` (40_numerics.md R96). -/
abbrev GreatestOf (n : Nat) (v : Nat → ℚ) (mx : ℚ) : Prop := (∃ i < n, v i = mx) ∧ ∀ i < n, v i ≤ mx

/-- `m` is the least of the non-zero values at indexes `0..n-1` (43_adaptive_sign_magnitude.md R140 step 4). -/
abbrev LeastNonzero (n : Nat) (v : Nat → ℚ) (m : ℚ) : Prop :=
  (∃ i < n, v i = m) ∧ m ≠ 0 ∧ ∀ i < n, v i ≠ 0 → m ≤ v i

/-- `1 ≤ N ≤ NMAX` (10_state.md R27). -/
abbrev CountLegal (s : State) : Prop := 1 ≤ s.n.toNat ∧ s.n.toNat ≤ s.cfg.nmax

/-- `SF` is a legal operand: finite and positive (60_exceptions.md R164). -/
abbrev SfLegal (s : State) : Prop := s.cfg.flen.isFinite s.sf = true ∧ 0 < s.cfg.flen.val s.sf

/-- The pattern is one that `fl` delivers: finite and not `-0.0` (40_numerics.md R92, R104). -/
abbrev Delivered (f : FloatWidth) (b : Word) : Prop := f.isFinite b = true ∧ b ≠ BitVec.ofNat 64 (2 ^ (f.bits - 1))

/-- How far `fl` may move the ideal value `v` (40_numerics.md R110). -/
def roundingTerm (f : FloatWidth) (v : ℚ) : ℚ :=
  max (|v| * (2 : ℚ) ^ (-(f.precision : ℤ))) ((2 : ℚ) ^ (f.emin - f.precision))

/-- All the patterns at indexes `0..n-1` are finite (40_numerics.md R103). -/
abbrev AllFinite (f : FloatWidth) (n : Nat) (x : Nat → Word) : Prop := ∀ i < n, f.isFinite (x i) = true

/-- The pattern stands in the low `FLEN` bits of its word (10_state.md R23). -/
def fitsFlen (f : FloatWidth) (v : Word) : Bool := decide (v.toNat < 2 ^ f.bits)

/-- Every element of a float buffer stands in the low `FLEN` bits of its word (10_state.md R31). -/
def Buffer.fits (f : FloatWidth) (b : Buffer 64) : Bool := b.all (fun e => fitsFlen f e.2)

/-- Every listed index of a buffer is below `NMAX` (10_state.md R30). -/
def Buffer.inRange {w : Nat} (c : Config) (b : Buffer w) : Bool := b.all (fun e => decide (e.1 < c.nmax))

/-- Every listed index of every buffer is below `NMAX` (10_state.md R30). -/
def Memory.inRange (c : Config) (m : Memory) : Bool :=
  Buffer.inRange c m.data && Buffer.inRange c m.recon && Buffer.inRange c m.err && Buffer.inRange c m.code &&
    Buffer.inRange c m.sign && Buffer.inRange c m.ipart && Buffer.inRange c m.dpart && Buffer.inRange c m.iopart &&
    Buffer.inRange c m.dopart

/-- The causes a command can raise or the decoder report: every cause but the unreachable `RESIDUAL`
(60_exceptions.md R164; 44_offset_refinement.md R153). -/
def reachableCauses : List Cause :=
  [.nRange, .nonfiniteElem, .nonfiniteScalar, .allZero, .sfNonpos, .ipartOvf, .offsetRange, .dpartOvf, .codeRange,
    .signReserved, .outOvf, .opReserved, .fieldReserved, .wRange]

/-- What `FINFO` may hold after a fault of the cause: the last column of the table of 60_exceptions.md R164, with the `WHERE`
numbers of 10_state.md R30 and the slot addresses of R22. -/
def legalInfo (c : Cause) (v : BitVec 36) : Bool :=
  match c with
  | .nRange => v == 0
  | .nonfiniteElem => finfoWhere v == 1 || finfoWhere v == 2
  | .nonfiniteScalar => v == 0x4 || v == 0x5 || v == 0x6 || v == 0x7 || v == 0x8
  | .allZero => v == 0
  | .sfNonpos => v == 0x4
  | .ipartOvf => finfoWhere v == 1
  | .offsetRange => finfoWhere v == 1
  | .dpartOvf => finfoWhere v == 1
  | .residual => finfoWhere v == 1
  | .codeRange => finfoWhere v == 4
  | .signReserved => finfoWhere v == 5
  | .outOvf => v == 0x4 || v == 0x6 || v == 0x9 || finfoWhere v == 2 || finfoWhere v == 3
  | .opReserved => v == 0
  | .fieldReserved => v == 0
  | .wRange => v == 0

/-- A legal pair of `STATUS` and `FINFO`: no command yet, a success, or a fault (10_state.md R25, R26; 60_exceptions.md
R164, R166, R167). -/
def legalReport (status : BitVec 17) (finfo : BitVec 36) : Bool :=
  ((status == 0 || status == 0x00001 || status == 0x10001) && finfo == 0) ||
    reachableCauses.any (fun c => status == statusFault c && legalInfo c finfo)

/-- A well-formed state: the memory in canonical form with every index below `NMAX`, every float pattern within `FLEN` bits,
and a legal report. -/
def State.wf (s : State) : Bool :=
  Memory.wf s.mem && Memory.inRange s.cfg s.mem && Buffer.fits s.cfg.flen s.mem.data &&
    Buffer.fits s.cfg.flen s.mem.recon && Buffer.fits s.cfg.flen s.mem.err && fitsFlen s.cfg.flen s.sf &&
    fitsFlen s.cfg.flen s.offset && fitsFlen s.cfg.flen s.scale && fitsFlen s.cfg.flen s.min &&
    fitsFlen s.cfg.flen s.max && fitsFlen s.cfg.flen s.mse && fitsFlen s.cfg.flen s.psnr &&
    legalReport s.status s.finfo

/-- The elements a command reads have been written since reset (70_reset_and_hazards.md R192). -/
def OperandsWritten (i : Instr) (s : State) : Prop :=
  match i with
  | .uq _ => Written s.mem.data s.n.toNat
  | .udq _ => Written s.mem.code s.n.toNat
  | .asmq _ _ => Written s.mem.data s.n.toNat
  | .asmdq e =>
    Written s.mem.sign s.n.toNat ∧ Written s.mem.ipart s.n.toNat ∧ Written s.mem.dpart s.n.toNat ∧
      (e = true → Written s.mem.data s.n.toNat)
  | .orq _ _ _ => Written s.mem.data s.n.toNat
  | .ordq => Written s.mem.sign s.n.toNat ∧ Written s.mem.iopart s.n.toNat ∧ Written s.mem.dopart s.n.toNat
  | .em => Written s.mem.data s.n.toNat ∧ Written s.mem.recon s.n.toNat

/-- Two states agree on the operands of a command (10_state.md R33, the entries R). -/
def SameOperands (i : Instr) (s t : State) : Prop :=
  s.cfg = t.cfg ∧ s.n = t.n ∧
    match i with
    | .uq _ => Agree s.mem.data t.mem.data s.n.toNat
    | .udq _ => s.scale = t.scale ∧ s.min = t.min ∧ s.max = t.max ∧ Agree s.mem.code t.mem.code s.n.toNat
    | .asmq _ sfs => (sfs = true → s.sf = t.sf) ∧ Agree s.mem.data t.mem.data s.n.toNat
    | .asmdq e =>
      s.sf = t.sf ∧ Agree s.mem.sign t.mem.sign s.n.toNat ∧ Agree s.mem.ipart t.mem.ipart s.n.toNat ∧
        Agree s.mem.dpart t.mem.dpart s.n.toNat ∧ (e = true → Agree s.mem.data t.mem.data s.n.toNat)
    | .orq _ sfs ofs =>
      (sfs = true → s.sf = t.sf) ∧ (ofs = true → s.offset = t.offset) ∧ Agree s.mem.data t.mem.data s.n.toNat
    | .ordq =>
      s.sf = t.sf ∧ s.offset = t.offset ∧ Agree s.mem.sign t.mem.sign s.n.toNat ∧
        Agree s.mem.iopart t.mem.iopart s.n.toNat ∧ Agree s.mem.dopart t.mem.dopart s.n.toNat
    | .em => Agree s.mem.data t.mem.data s.n.toNat ∧ Agree s.mem.recon t.mem.recon s.n.toNat

/-- Two states agree on the outputs of a command (10_state.md R33, the entries W). -/
def SameOutputs (i : Instr) (n : Nat) (s t : State) : Prop :=
  match i with
  | .uq _ => s.scale = t.scale ∧ s.min = t.min ∧ s.max = t.max ∧ Agree s.mem.code t.mem.code n
  | .udq _ => Agree s.mem.recon t.mem.recon n
  | .asmq _ _ =>
    s.sf = t.sf ∧ Agree s.mem.sign t.mem.sign n ∧ Agree s.mem.ipart t.mem.ipart n ∧ Agree s.mem.dpart t.mem.dpart n
  | .asmdq e => Agree s.mem.recon t.mem.recon n ∧ (e = true → Agree s.mem.err t.mem.err n)
  | .orq _ _ _ =>
    s.sf = t.sf ∧ s.offset = t.offset ∧ Agree s.mem.sign t.mem.sign n ∧ Agree s.mem.iopart t.mem.iopart n ∧
      Agree s.mem.dopart t.mem.dopart n
  | .ordq => Agree s.mem.recon t.mem.recon n
  | .em => s.mse = t.mse ∧ s.psnr = t.psnr

/-- `STATUS` after a success, by whether any command has faulted since reset (60_exceptions.md R167). -/
def successWord (old : BitVec 17) : BitVec 17 := if statusSticky old then 0x10001 else 0x00001

/-- `|val|` of the samples at the indexes (43_adaptive_sign_magnitude.md R140 step 3). -/
abbrev mags (f : FloatWidth) (x : Nat → Word) : Nat → ℚ := fun i => |f.val (x i)|

/-- `sfb` is the scaling factor a quantizer uses on the samples `x`: the legal register when it is supplied, otherwise the
rounded power of ten of the least non-zero magnitude (43_adaptive_sign_magnitude.md R140 step 4; 40_numerics.md R108). -/
def FactorIs (sfs : Bool) (s : State) (x : Nat → Word) (sfb : Word) : Prop :=
  if sfs then SfLegal s ∧ sfb = s.sf
  else ∃ m, LeastNonzero s.n.toNat (mags s.cfg.flen x) m ∧ s.cfg.flen.fl ((10 : ℚ) ^ kexp m) = some sfb

/-- `ofb` is the offset `ORQ` uses on the samples `x`: the finite register when it is supplied, otherwise the rounded median
of the integer parts (44_offset_refinement.md R150 steps 4 and 7). -/
def OffsetIs (ofs : Bool) (s : State) (x : Nat → Word) (ofb : Word) : Prop :=
  if ofs then s.cfg.flen.isFinite s.offset = true ∧ ofb = s.offset
  else s.cfg.flen.fl (median ((List.range s.n.toNat).map (fun i => ⌊mags s.cfg.flen x i⌋))) = some ofb

/-- The difference of the integer part of a magnitude and the offset is an integer of `[-128, 127]`
(44_offset_refinement.md R150 step 8). -/
abbrev OffsetFits (o a : ℚ) : Prop := (⌊a⌋ - o : ℚ).den = 1 ∧ -128 ≤ (⌊a⌋ - o : ℚ) ∧ (⌊a⌋ - o : ℚ) ≤ 127

/-- The supplied `OFFSET`, if it is one, is finite (44_offset_refinement.md R150 step 4). -/
abbrev OffsetLegal (ofs : Bool) (s : State) : Prop := ofs = true → s.cfg.flen.isFinite s.offset = true

/-- `DATA[0..N-1]` holds the finite samples `x` (40_numerics.md R103), and `N` is legal (10_state.md R27). -/
abbrev Samples (s : State) (x : Nat → Word) : Prop :=
  CountLegal s ∧ Holds s.mem.data s.n.toNat x ∧ AllFinite s.cfg.flen s.n.toNat x

/-- The commands that always read `DATA` (60_exceptions.md R165 step 3). -/
def readsSamples : Instr → Bool
  | .uq _ => true
  | .udq _ => false
  | .asmq _ _ => true
  | .asmdq _ => false
  | .orq _ _ _ => true
  | .ordq => false
  | .em => true

/-- The causes each command can raise (60_exceptions.md R169; `RESIDUAL` never). -/
def causesOf : Instr → List Cause
  | .uq _ => [.nRange, .nonfiniteElem, .outOvf]
  | .udq _ => [.nRange, .nonfiniteScalar, .codeRange]
  | .asmq _ true => [.nRange, .nonfiniteElem, .nonfiniteScalar, .sfNonpos, .ipartOvf, .dpartOvf]
  | .asmq _ false => [.nRange, .nonfiniteElem, .allZero, .ipartOvf, .dpartOvf, .outOvf]
  | .asmdq true => [.nRange, .nonfiniteElem, .nonfiniteScalar, .sfNonpos, .signReserved, .outOvf]
  | .asmdq false => [.nRange, .nonfiniteScalar, .sfNonpos, .signReserved, .outOvf]
  | .orq _ true _ => [.nRange, .nonfiniteElem, .nonfiniteScalar, .sfNonpos, .ipartOvf, .offsetRange, .dpartOvf]
  | .orq _ false true =>
    [.nRange, .nonfiniteElem, .nonfiniteScalar, .allZero, .ipartOvf, .offsetRange, .dpartOvf, .outOvf]
  | .orq _ false false => [.nRange, .nonfiniteElem, .allZero, .ipartOvf, .offsetRange, .dpartOvf, .outOvf]
  | .ordq => [.nRange, .nonfiniteScalar, .sfNonpos, .signReserved, .outOvf]
  | .em => [.nRange, .nonfiniteElem, .outOvf]

/-- What a `HostRead` of an element returns after `v` has been written to it: the low bits kept, extended
(10_state.md R30, R31). -/
def readBack (f : FloatWidth) (b : Buf) (v : Word) : Word :=
  match b with
  | .data => if f = .b32 then v &&& 0xFFFFFFFF else v
  | .recon => if f = .b32 then v &&& 0xFFFFFFFF else v
  | .err => if f = .b32 then v &&& 0xFFFFFFFF else v
  | .code => v &&& 0xFFFFFFFF
  | .sign => (v.extractLsb' 0 2).signExtend 64
  | .ipart => v &&& 0xFFFFFFFF
  | .dpart => v
  | .iopart => (v.extractLsb' 0 8).signExtend 64
  | .dopart => v

end Sys2Proof.Machine
end

