-- ==== Sys2Proof/Certificates/Slice0/Obligations.lean ====
section
/-! DEFINITION. The statements for the provers. A statement over every configuration holds for both values of `FLEN` and every
`AW`, since the configuration is part of the state. -/

open Sys2Proof Sys2Proof.Machine

/-! ## Encoding -/

/-- 30_encoding.md R71 to R74: the decoder reads back every well-formed command from the word the encoder gives it, with
every operand at every value the encoding admits. -/
def Obligations.EncodedCommandsDecode : Prop :=
  ∀ i : Instr, i.wellFormed = true → decode (cmdWrite i) = .ok i

/-- 30_encoding.md R74: a 64-bit word written to `CMD` is the command of a row of the opcode map exactly when its bits under
the row's mask, bits 63:32 included, match and its `W` field is in the row's range. -/
def Obligations.OpcodeMapRows : Prop :=
  ∀ v : Word,
    (∀ w, decode v = .ok (.uq w) ↔
      v &&& 0xFFFFFFFFFFFFFC0F = 0x1 ∧ w = v.extractLsb' 4 6 ∧ 1 ≤ w.toNat ∧ w.toNat ≤ 32) ∧
    (∀ w, decode v = .ok (.udq w) ↔
      v &&& 0xFFFFFFFFFFFFFC0F = 0x2 ∧ w = v.extractLsb' 4 6 ∧ 1 ≤ w.toNat ∧ w.toNat ≤ 32) ∧
    (∀ w sfs, decode v = .ok (.asmq w sfs) ↔
      v &&& 0xFFFFFFFFFFFFF80F = 0x3 ∧ w = v.extractLsb' 4 6 ∧ sfs = v.getLsbD 10 ∧ 1 ≤ w.toNat ∧ w.toNat ≤ 32) ∧
    (∀ e, decode v = .ok (.asmdq e) ↔ v &&& 0xFFFFFFFFFFFFEFFF = 0x4 ∧ e = v.getLsbD 12) ∧
    (∀ w sfs ofs, decode v = .ok (.orq w sfs ofs) ↔
      v &&& 0xFFFFFFFFFFFFF00F = 0x5 ∧ w = v.extractLsb' 4 6 ∧ sfs = v.getLsbD 10 ∧ ofs = v.getLsbD 11 ∧
        1 ≤ w.toNat ∧ w.toNat ≤ 32) ∧
    (decode v = .ok .ordq ↔ v = 0x6) ∧
    (decode v = .ok .em ↔ v = 0x7)

/-- 30_encoding.md R75 with R72: the four tests of the decoder in their order, and the cause each gives; a word that passes
them all is a command. -/
def Obligations.IllegalWordCauses : Prop :=
  ∀ v : Word,
    let op := (v.extractLsb' 0 4).toNat
    let w := (v.extractLsb' 4 6).toNat
    let sfs := v.getLsbD 10
    let ofs := v.getLsbD 11
    let e := v.getLsbD 12
    if v.extractLsb' 32 32 ≠ 0 ∨ v.extractLsb' 13 19 ≠ 0 then decode v = .error .fieldReserved
    else if op = 0 ∨ 8 ≤ op then decode v = .error .opReserved
    else if ((op = 1 ∨ op = 2 ∨ op = 6 ∨ op = 7) ∧ (sfs ∨ ofs ∨ e)) ∨ (op = 3 ∧ (ofs ∨ e)) ∨ (op = 4 ∧ (sfs ∨ ofs)) ∨
        (op = 5 ∧ e) then decode v = .error .fieldReserved
    else if ((op = 1 ∨ op = 2 ∨ op = 3 ∨ op = 5) ∧ ¬ (1 ≤ w ∧ w ≤ 32)) ∨ ((op = 4 ∨ op = 6 ∨ op = 7) ∧ w ≠ 0) then
      decode v = .error .wRange
    else ∃ i, decode v = .ok i

/-- 30_encoding.md R81: the word of every command line, for every operand, and the decoding of words written out by hand. -/
def Obligations.AssemblerLines : Prop :=
  (∀ b : BitVec 6,
    (encode (.uq b)).toNat = 0x1 + 16 * b.toNat ∧ (encode (.udq b)).toNat = 0x2 + 16 * b.toNat ∧
    (encode (.asmq b false)).toNat = 0x3 + 16 * b.toNat ∧ (encode (.asmq b true)).toNat = 0x403 + 16 * b.toNat ∧
    (encode (.orq b false false)).toNat = 0x5 + 16 * b.toNat ∧ (encode (.orq b true false)).toNat = 0x405 + 16 * b.toNat ∧
    (encode (.orq b false true)).toNat = 0x805 + 16 * b.toNat ∧
    (encode (.orq b true true)).toNat = 0xC05 + 16 * b.toNat) ∧
  encode (.asmdq false) = 0x4 ∧ encode (.asmdq true) = 0x1004 ∧ encode .ordq = 0x6 ∧ encode .em = 0x7 ∧
  decode 0x00000081 = .ok (.uq 8) ∧ decode 0x00000082 = .ok (.udq 8) ∧ decode 0x00000083 = .ok (.asmq 8 false) ∧
  decode 0x00000483 = .ok (.asmq 8 true) ∧ decode 0x00000004 = .ok (.asmdq false) ∧
  decode 0x00001004 = .ok (.asmdq true) ∧ decode 0x00000085 = .ok (.orq 8 false false) ∧
  decode 0x00000485 = .ok (.orq 8 true false) ∧ decode 0x00000885 = .ok (.orq 8 false true) ∧
  decode 0x00000C85 = .ok (.orq 8 true true) ∧ decode 0x00000006 = .ok .ordq ∧ decode 0x00000007 = .ok .em ∧
  decode 0x00000201 = .ok (.uq 32) ∧ decode 0x00000011 = .ok (.uq 1)

/-! ## Reset, the invariant and the whole machine -/

/-- 10_state.md R36: after reset, whatever the state before it, every register is zero and every element of every buffer is
unwritten; so it is in `State.reset`. -/
def Obligations.ResetValues : Prop :=
  let blank := fun t : State =>
    t.cmd = 0 ∧ t.status = 0 ∧ t.finfo = 0 ∧ t.n = 0 ∧ t.sf = 0 ∧ t.offset = 0 ∧ t.scale = 0 ∧ t.min = 0 ∧ t.max = 0 ∧
      t.mse = 0 ∧ t.psnr = 0 ∧ ∀ b i, readElement t.mem b i = none
  blank State.reset ∧
    ∀ (s : State) (rest : List HostEvent), ∃ t, step { s with pending := .reset :: rest } = .next t ∧ blank t

/-- The state after reset is well formed, for every configuration (10_state.md R36). -/
def Obligations.ResetIsWellFormed : Prop := (∀ c, (State.resetOf c).wf = true) ∧ State.reset.wf = true

/-- Every step from every well-formed state gives a well-formed state: the buffers stay in canonical form with indexes below
`NMAX` (10_state.md R30), every float register and element stays within `FLEN` bits (R23, R31), and `STATUS` with `FINFO`
stays a report of the spec (R25, R26; 60_exceptions.md R163, R164, R166, R167; 44_offset_refinement.md R153). -/
def Obligations.StepKeepsWellFormed : Prop :=
  ∀ s t : State, s.wf = true → step s = .next t → t.wf = true

/-- The configuration is a parameter, not state (10_state.md R35): no step changes it. -/
def Obligations.ConfigurationNeverChanges : Prop := ∀ s t : State, step s = .next t → t.cfg = s.cfg

/-- 10_state.md R33, R24; 20_memory.md R54: no command writes `N`, `CMD` or `DATA`, and none acts on the port. -/
def Obligations.CommandsLeaveTheirInputs : Prop :=
  ∀ (i : Instr) (s t : State), exec i s = .next t →
    t.cfg = s.cfg ∧ t.cmd = s.cmd ∧ t.n = s.n ∧ t.mem.data = s.mem.data ∧ t.pending = s.pending ∧ t.response = s.response

/-- 60_exceptions.md R166: when the command of a `CMD` write faults, also for an illegal word, the write completes normally and
the state is the state before it but for `CMD`, `STATUS` and `FINFO`; `STATUS` is `0x10003 + 4 K + 256 C`, and `FINFO` is what
R164 gives the cause, an element's index being below `N`. R167: after a success `FINFO` is 0 and `STATUS` is `0x00001`, or
`0x10001` when `STICKY` was set. -/
def Obligations.FaultsArePreciseAndSuccessesReported : Prop :=
  ∀ (s t : State) (rest : List HostEvent) (v : Word), step { s with pending := .write 0x00 v :: rest } = .next t →
    if statusErr t.status then
      ∃ (c : Cause) (info : BitVec 36), legalInfo c info = true ∧
        (finfoWhere info ≠ 0 → (finfoIndex info).toNat < s.n.toNat) ∧
        t = { s with
          pending := rest, response := some .done, cmd := v, finfo := info
          status := BitVec.ofNat 17 (0x10003 + 4 * c.kind.toBits.toNat + 256 * c.code.toNat) }
    else t.finfo = 0 ∧ t.status = if s.status.getLsbD 16 then 0x10001 else 0x00001

/-- 60_exceptions.md R164, R166: the kind and cause numbers, and the `STATUS` word of each cause. -/
def Obligations.CauseNumbers : Prop :=
  statusFault .nRange = 0x10107 ∧ statusFault .nonfiniteElem = 0x10207 ∧ statusFault .nonfiniteScalar = 0x10307 ∧
    statusFault .allZero = 0x10407 ∧ statusFault .sfNonpos = 0x10507 ∧ statusFault .ipartOvf = 0x1080B ∧
    statusFault .offsetRange = 0x1090B ∧ statusFault .dpartOvf = 0x10A0B ∧ statusFault .residual = 0x10B0B ∧
    statusFault .codeRange = 0x10C0B ∧ statusFault .signReserved = 0x10D0B ∧ statusFault .outOvf = 0x10E0B ∧
    statusFault .opReserved = 0x1100F ∧ statusFault .fieldReserved = 0x1110F ∧ statusFault .wRange = 0x1120F

/-- 60_exceptions.md R169: a command raises no cause outside its column of the table; in particular none raises
`RESIDUAL` (44_offset_refinement.md R153) and none a NumericError (R163). -/
def Obligations.CausesOfEachCommand : Prop :=
  ∀ (i : Instr) (s t : State), exec i s = .next t → statusErr t.status = true →
    ∃ c ∈ causesOf i, t.status = statusFault c

/-- 70_reset_and_hazards.md R190: reset is the only way to clear `STATUS.STICKY`. -/
def Obligations.OnlyResetClearsSticky : Prop :=
  ∀ s t : State, step s = .next t → s.status.getLsbD 16 = true → s.pending.head? ≠ some .reset →
    t.status.getLsbD 16 = true

/-- 70_reset_and_hazards.md R197, R192: a command whose operand elements have been written completes, with success or with a
fault. -/
def Obligations.CommandsTerminate : Prop :=
  ∀ (i : Instr) (s : State), OperandsWritten i s → ∃ t, exec i s = .next t

/-- 70_reset_and_hazards.md R193 with 93_implementation_defined.md U1 (log 3): a command stops the model only on an element
below `N` that was never written, a command is never refused, and a `HostRead` of an unwritten element is refused. -/
def Obligations.OnlyUnwrittenElementsStop : Prop :=
  (∀ (i : Instr) (s : State) (x : Fault), exec i s = .fault x →
    ∃ b k, x = .unwrittenElement b k ∧ k < s.n.toNat ∧ readElement s.mem b k = none) ∧
  (∀ (i : Instr) (s : State) (x : Refusal), exec i s ≠ .refused x) ∧
  (∀ (s : State) (rest : List HostEvent) (b : Buf) (k : Nat), k < s.cfg.nmax → readElement s.mem b k = none →
    step { s with pending := .read (b.number * s.cfg.nmax + k) :: rest } = .refused (.unwrittenRead b k))

/-- 00_scope.md R14: the outputs and the fault outcome of a command are a function of its operands (10_state.md R33) and of
nothing else, in particular not of `STATUS`, `FINFO` or elements at index `N` and above. -/
def Obligations.CommandsArePure : Prop :=
  ∀ (i : Instr) (s s' : State), SameOperands i s s' →
    match exec i s, exec i s' with
    | .next t, .next t' =>
      statusErr t.status = statusErr t'.status ∧ statusKind t.status = statusKind t'.status ∧
        statusCause t.status = statusCause t'.status ∧ t.finfo = t'.finfo ∧
        (statusErr t.status = false → SameOutputs i s.n.toNat t t')
    | .fault x, .fault x' => x = x'
    | _, _ => False

/-! ## The host port -/

/-- 10_state.md R23, R24; 20_memory.md R52: a `HostRead` of a register returns its stored bits, zero-extended, and changes
nothing of the block. -/
def Obligations.HostReadsRegisters : Prop :=
  ∀ (s : State) (rest : List HostEvent),
    let reads := fun (a : Nat) (v : Word) =>
      step { s with pending := .read a :: rest } = .next { s with pending := rest, response := some (.data v) }
    reads 0x00 s.cmd ∧ reads 0x01 (s.status.setWidth 64) ∧ reads 0x02 (s.finfo.setWidth 64) ∧
      reads 0x03 (s.n.setWidth 64) ∧ reads 0x04 s.sf ∧ reads 0x05 s.offset ∧ reads 0x06 s.scale ∧ reads 0x07 s.min ∧
      reads 0x08 s.max ∧ reads 0x09 s.mse ∧ reads 0x0A s.psnr

/-- 10_state.md R30, R31; 20_memory.md R52, R56: a `HostRead` of element `i` of buffer `k` at slot `k * 2^AW + i` returns the
stored bits, sign-extended for `SIGN` and `IOPART`, zero-extended for the others, and changes nothing of the block. -/
def Obligations.HostReadsElements : Prop :=
  ∀ (s : State) (rest : List HostEvent) (i : Nat), i < s.cfg.nmax →
    let reads := fun (k : Nat) (v : Word) =>
      step { s with pending := .read (k * s.cfg.nmax + i) :: rest } =
        .next { s with pending := rest, response := some (.data v) }
    (∀ x, Buffer.read? s.mem.data i = some x → reads 1 x) ∧
    (∀ x, Buffer.read? s.mem.recon i = some x → reads 2 x) ∧
    (∀ x, Buffer.read? s.mem.err i = some x → reads 3 x) ∧
    (∀ x, Buffer.read? s.mem.code i = some x → reads 4 (x.zeroExtend 64)) ∧
    (∀ x, Buffer.read? s.mem.sign i = some x → reads 5 (x.signExtend 64)) ∧
    (∀ x, Buffer.read? s.mem.ipart i = some x → reads 6 (x.zeroExtend 64)) ∧
    (∀ x, Buffer.read? s.mem.dpart i = some x → reads 7 x) ∧
    (∀ x, Buffer.read? s.mem.iopart i = some x → reads 8 (x.signExtend 64)) ∧
    (∀ x, Buffer.read? s.mem.dopart i = some x → reads 9 x)

/-- 10_state.md R22, R23; 20_memory.md R53: a `HostWrite` of a host-writable register stores the low bits of the word, as
many as the register keeps, and changes nothing else of the block. -/
def Obligations.HostWritesRegisters : Prop :=
  ∀ (s : State) (rest : List HostEvent) (v : Word),
    let kept : Word := if s.cfg.flen = .b32 then v &&& 0xFFFFFFFF else v
    let writes := fun (a : Nat) (t : State) =>
      step { s with pending := .write a v :: rest } = .next { t with pending := rest, response := some .done }
    writes 0x03 { s with n := v.extractLsb' 0 32 } ∧ writes 0x04 { s with sf := kept } ∧
      writes 0x05 { s with offset := kept } ∧ writes 0x06 { s with scale := kept } ∧ writes 0x07 { s with min := kept } ∧
      writes 0x08 { s with max := kept }

/-- 10_state.md R30, R31; 20_memory.md R53, R56, R60: a `HostWrite` of element `i` of buffer `b` keeps the low bits of the
word, as many as the element has, so that a `HostRead` of it gives them back extended; every other element of every buffer
and every register is as before. -/
def Obligations.HostWritesElements : Prop :=
  ∀ (s : State) (rest : List HostEvent) (b : Buf) (i : Nat) (v : Word), i < s.cfg.nmax →
    ∃ m, step { s with pending := .write (b.number * s.cfg.nmax + i) v :: rest } =
        .next { s with mem := m, pending := rest, response := some .done } ∧
      readElement m b i = some (readBack s.cfg.flen b v) ∧
      ∀ c j, (c ≠ b ∨ j ≠ i) → readElement m c j = readElement s.mem c j

/-- 20_memory.md R52, R53, R56; 60_exceptions.md R171: a transaction on an unmapped slot, and a `HostWrite` of a read-only
register, get the error response and change nothing of the block. -/
def Obligations.PortErrorsChangeNothing : Prop :=
  ∀ (s : State) (rest : List HostEvent) (a : Nat) (v : Word),
    let errs := fun (e : HostEvent) =>
      step { s with pending := e :: rest } = .next { s with pending := rest, response := some .error }
    ((0x0B ≤ a ∧ a < s.cfg.nmax) ∨ 10 * s.cfg.nmax ≤ a → errs (.read a) ∧ errs (.write a v)) ∧
      errs (.write 0x01 v) ∧ errs (.write 0x02 v) ∧ errs (.write 0x09 v) ∧ errs (.write 0x0A v)

/-- 20_memory.md R51; 60_exceptions.md R181 (log 1): with no transaction to come the block holds its state. -/
def Obligations.IdleBlockHoldsItsState : Prop := ∀ s : State, s.pending = [] → step s = .next s

/-- 10_state.md R24; 30_encoding.md R71: a `HostWrite` of a word that decodes to a command runs exactly that command, in the
state whose `CMD` already holds the word; what the model adds around it is the host's list moving on and the port's
completion (log 1). -/
def Obligations.StepRunsTheDecodedCommand : Prop :=
  ∀ (s : State) (rest : List HostEvent) (v : Word) (i : Instr), decode v = .ok i →
    step { s with pending := .write 0x00 v :: rest } =
      exec i { s with pending := rest, cmd := v, response := some .done }

/-- 30_encoding.md R75; 60_exceptions.md R166: an illegal command writes `CMD`, `STATUS` and `FINFO` and nothing else. -/
def Obligations.IllegalCommandsFault : Prop :=
  ∀ (s : State) (rest : List HostEvent) (v : Word) (c : Cause), decode v = .error c →
    ∃ word : BitVec 17,
      ((c = .opReserved ∧ word = 0x1100F) ∨ (c = .fieldReserved ∧ word = 0x1110F) ∨ (c = .wRange ∧ word = 0x1120F)) ∧
      step { s with pending := .write 0x00 v :: rest } =
        .next { s with pending := rest, response := some .done, cmd := v, status := word, finfo := 0 }

/-! ## Frames: what a successful command leaves unchanged (10_state.md R33) -/

/-- 10_state.md R33: a successful `UQ` writes `CODE[0..N-1]`, `SCALE`, `MIN`, `MAX`, `STATUS` and `FINFO` only, and a
successful `UDQ` `RECON[0..N-1]`, `STATUS` and `FINFO` only. -/
def Obligations.UniformFrame : Prop :=
  ∀ (s t : State) (w : BitVec 6),
    (exec (.uq w) s = .next t → statusErr t.status = false →
      t = { s with mem := { s.mem with code := t.mem.code }, scale := t.scale, min := t.min, max := t.max,
                   status := t.status, finfo := t.finfo } ∧
      TailKept s.mem.code t.mem.code s.n.toNat) ∧
    (exec (.udq w) s = .next t → statusErr t.status = false →
      t = { s with mem := { s.mem with recon := t.mem.recon }, status := t.status, finfo := t.finfo } ∧
      TailKept s.mem.recon t.mem.recon s.n.toNat)

/-- 10_state.md R33: a successful `ASMQ` writes `SIGN`, `IPART`, `DPART` at `0..N-1`, `SF` when it infers it, `STATUS` and
`FINFO` only; a successful `ASMDQ` writes `RECON[0..N-1]`, `ERR[0..N-1]` with `E`, `STATUS` and `FINFO` only. -/
def Obligations.AdaptiveFrame : Prop :=
  ∀ (s t : State) (w : BitVec 6) (sfs e : Bool),
    (exec (.asmq w sfs) s = .next t → statusErr t.status = false →
      t = { s with mem := { s.mem with sign := t.mem.sign, ipart := t.mem.ipart, dpart := t.mem.dpart }, sf := t.sf,
                   status := t.status, finfo := t.finfo } ∧
      (sfs = true → t.sf = s.sf) ∧ TailKept s.mem.sign t.mem.sign s.n.toNat ∧
      TailKept s.mem.ipart t.mem.ipart s.n.toNat ∧ TailKept s.mem.dpart t.mem.dpart s.n.toNat) ∧
    (exec (.asmdq e) s = .next t → statusErr t.status = false →
      t = { s with mem := { s.mem with recon := t.mem.recon, err := t.mem.err }, status := t.status, finfo := t.finfo } ∧
      (e = false → t.mem.err = s.mem.err) ∧ TailKept s.mem.recon t.mem.recon s.n.toNat ∧
      TailKept s.mem.err t.mem.err s.n.toNat)

/-- 10_state.md R33: a successful `ORQ` writes `SIGN`, `IOPART`, `DOPART` at `0..N-1`, `SF` and `OFFSET` when it infers them,
`STATUS` and `FINFO` only; a successful `ORDQ` writes `RECON[0..N-1]`, `STATUS` and `FINFO` only. -/
def Obligations.OffsetFrame : Prop :=
  ∀ (s t : State) (w : BitVec 6) (sfs ofs : Bool),
    (exec (.orq w sfs ofs) s = .next t → statusErr t.status = false →
      t = { s with mem := { s.mem with sign := t.mem.sign, iopart := t.mem.iopart, dopart := t.mem.dopart }, sf := t.sf,
                   offset := t.offset, status := t.status, finfo := t.finfo } ∧
      (sfs = true → t.sf = s.sf) ∧ (ofs = true → t.offset = s.offset) ∧
      TailKept s.mem.sign t.mem.sign s.n.toNat ∧ TailKept s.mem.iopart t.mem.iopart s.n.toNat ∧
      TailKept s.mem.dopart t.mem.dopart s.n.toNat) ∧
    (exec .ordq s = .next t → statusErr t.status = false →
      t = { s with mem := { s.mem with recon := t.mem.recon }, status := t.status, finfo := t.finfo } ∧
      TailKept s.mem.recon t.mem.recon s.n.toNat)

/-- 10_state.md R33; 42_error_metrics.md R133: a successful `EM` writes `MSE`, `PSNR`, `STATUS` and `FINFO` only; no element
of any buffer changes. -/
def Obligations.MetricsFrame : Prop :=
  ∀ s t : State, exec .em s = .next t → statusErr t.status = false →
    t = { s with mse := t.mse, psnr := t.psnr, status := t.status, finfo := t.finfo }

/-- 40_numerics.md R104, R106: every float a command writes is finite and is not `-0.0`; only `EM` writes an infinity, and
only in `PSNR` (42_error_metrics.md R131). -/
def Obligations.FloatOutputsAreDelivered : Prop :=
  ∀ (i : Instr) (s t : State), exec i s = .next t →
    let good := Delivered s.cfg.flen
    (t.sf = s.sf ∨ good t.sf) ∧ (t.offset = s.offset ∨ good t.offset) ∧ (t.scale = s.scale ∨ good t.scale) ∧
      (t.min = s.min ∨ good t.min) ∧ (t.max = s.max ∨ good t.max) ∧ (t.mse = s.mse ∨ good t.mse) ∧
      (t.psnr = s.psnr ∨ good t.psnr ∨ i = .em ∧
        (t.psnr = (if s.cfg.flen = .b64 then 0x7FF0000000000000 else 0x7F800000) ∨
          t.psnr = if s.cfg.flen = .b64 then 0xFFF0000000000000 else 0xFF800000)) ∧
      ∀ k, (Buffer.read? t.mem.recon k = Buffer.read? s.mem.recon k ∨
          ∃ r, Buffer.read? t.mem.recon k = some r ∧ good r) ∧
        (Buffer.read? t.mem.err k = Buffer.read? s.mem.err k ∨ ∃ r, Buffer.read? t.mem.err k = some r ∧ good r)

/-! ## Numbers (40_numerics.md) -/

/-- 40_numerics.md R94: `rnd(x)` is the nearest integer, and the even one at a tie. -/
def Obligations.RoundingToIntegerTiesToEven : Prop :=
  (∀ x : ℚ, (∀ k : ℤ, |x - rnd x| ≤ |x - k|) ∧ (x - ⌊x⌋ = 1 / 2 → Even (rnd x) ∧ (rnd x = ⌊x⌋ ∨ rnd x = ⌊x⌋ + 1))) ∧
    rnd (1 / 2) = 0 ∧ rnd (3 / 2) = 2 ∧ rnd (5 / 2) = 2 ∧ rnd (-1 / 2) = 0 ∧ rnd (-3 / 2) = -2

/-- 40_numerics.md R92: `fl(val(b)) = b` for every finite pattern but `-0.0`, for which it is `+0.0`. -/
def Obligations.FlFixesFinitePatterns : Prop :=
  ∀ (f : FloatWidth) (b : Word), fitsFlen f b = true → f.isFinite b = true →
    f.fl (f.val b) = some (if b = BitVec.ofNat 64 (2 ^ (f.bits - 1)) then 0 else b)

/-- 40_numerics.md R92: where it does not overflow, `fl(x)` is a finite pattern none is nearer to `x` than, and at a tie
between two patterns the one whose last significand bit is 0; a zero result is `+0.0`. -/
def Obligations.FlIsNearestTiesToEven : Prop :=
  ∀ (f : FloatWidth) (x : ℚ) (b : Word), f.fl x = some b →
    f.isFinite b = true ∧ (∀ c, f.isFinite c = true → |f.val b - x| ≤ |f.val c - x|) ∧
      (∀ c, f.isFinite c = true → f.val c ≠ f.val b → |f.val c - x| = |f.val b - x| → b.getLsbD 0 = false) ∧
      (f.val b = 0 → b = 0)

/-- 40_numerics.md R92: `overflow` happens exactly when `|x| ≥ (2 - 2^(-p)) * 2^emax`. -/
def Obligations.FlOverflowsExactlyBeyond : Prop :=
  ∀ (f : FloatWidth) (x : ℚ),
    f.fl x = none ↔ (2 - (2 : ℚ) ^ (-(f.precision : ℤ))) * (2 : ℚ) ^ f.emax ≤ |x|

/-- 40_numerics.md R110: the rounding error of `fl` for normal and subnormal results, and its monotonicity. -/
def Obligations.FlErrorBoundAndMonotone : Prop :=
  ∀ (f : FloatWidth) (x y : ℚ) (b c : Word), f.fl x = some b → f.fl y = some c →
    ((2 : ℚ) ^ f.emin ≤ |x| → |f.val b - x| ≤ (2 : ℚ) ^ (Int.log 2 |x| - f.precision) ∧
      |f.val b - x| ≤ |x| * (2 : ℚ) ^ (-(f.precision : ℤ))) ∧
    (|x| < (2 : ℚ) ^ f.emin → |f.val b - x| ≤ (2 : ℚ) ^ (f.emin - f.precision)) ∧
    (x ≤ y → f.val b ≤ f.val c)

/-- 40_numerics.md R97: the median of integers is the middle one of them in non-decreasing order, and of an even number of
them the mean of the two middle ones. -/
def Obligations.MedianOfSortedIntegers : Prop :=
  ∀ (v s : List ℤ), v ≠ [] → s.Perm v → s.Pairwise (· ≤ ·) →
    median v = if s.length % 2 = 1 then (s.getD ((s.length - 1) / 2) 0 : ℚ)
      else ((s.getD (s.length / 2 - 1) 0 : ℚ) + (s.getD (s.length / 2) 0 : ℚ)) / 2

/-- 40_numerics.md R98: `kexp(m)` is `ceil(-log10 m)`, the least integer `k` with `10^k * m ≥ 1`; 0 exactly for
`1 ≤ m < 10`, negative from 10 on and positive below 1; of the binary64 patterns nearest `0.001` and `10^-6` it is 3 and 7. -/
def Obligations.KexpIsTheLeastExponent : Prop :=
  (∀ m : ℚ, 0 < m → kexp m = ⌈-Real.logb 10 m⌉ ∧ 1 ≤ (10 : ℚ) ^ kexp m * m ∧
      (∀ k : ℤ, 1 ≤ (10 : ℚ) ^ k * m → kexp m ≤ k) ∧ (kexp m = 0 ↔ 1 ≤ m ∧ m < 10) ∧ (10 ≤ m → kexp m ≤ -1) ∧
      (m < 1 → 1 ≤ kexp m)) ∧
    kexp 10 = -1 ∧ kexp 50 = -1 ∧ kexp 100 = -2 ∧ kexp (999 / 100) = 0 ∧ kexp (1 / 10) = 1 ∧ kexp (9 / 100) = 2 ∧
    kexp (FloatWidth.b64.val 0x3F50624DD2F1A9FC) = 3 ∧ kexp (FloatWidth.b64.val 0x3EB0C6F7A0B5ED8D) = 7

/-! ## Every command: the element count and the float operands -/

/-- 10_state.md R27, R36; 60_exceptions.md R164: with `N = 0` or `N > NMAX` every command faults with `N_RANGE`. -/
def Obligations.CountOutOfRangeFaults : Prop :=
  ∀ (i : Instr) (s : State), s.n.toNat = 0 ∨ s.cfg.nmax < s.n.toNat →
    exec i s = .next { s with status := 0x10107, finfo := 0 }

/-- 40_numerics.md R103; 60_exceptions.md R164, R165: the lowest non-finite sample of `DATA` is reported by every command
that reads `DATA` first, and by `ASMDQ.E` after `SF` and `SIGN`; `EM` reports one of `RECON` after all of `DATA`. -/
def Obligations.NonfiniteElementsReported : Prop :=
  ∀ (s : State) (x : Nat → Word) (k : Nat), CountLegal s → k < s.n.toNat → AllFinite s.cfg.flen k x →
    s.cfg.flen.isFinite (x k) = false →
    (∀ i, readsSamples i = true → Holds s.mem.data (k + 1) x →
      exec i s = .next { s with status := 0x10207, finfo := BitVec.ofNat 36 (0x100000000 + k) }) ∧
    (∀ g : Nat → BitVec 2, SfLegal s → Holds s.mem.sign s.n.toNat g → (∀ j < s.n.toNat, g j ≠ 0b10#2) →
      Holds s.mem.data (k + 1) x →
      exec (.asmdq true) s = .next { s with status := 0x10207, finfo := BitVec.ofNat 36 (0x100000000 + k) }) ∧
    (∀ y : Nat → Word, Holds s.mem.data s.n.toNat y → AllFinite s.cfg.flen s.n.toNat y → Holds s.mem.recon (k + 1) x →
      exec .em s = .next { s with status := 0x10207, finfo := BitVec.ofNat 36 (0x200000000 + k) })

/-- 60_exceptions.md R164, R165; 40_numerics.md R103: where `SF` is an operand, a non-finite one faults with
`NONFINITE_SCALAR` and one that is not positive with `SF_NONPOS`. -/
def Obligations.ScalingFactorChecks : Prop :=
  ∀ (s : State) (i : Instr), CountLegal s →
    (i = .asmdq false ∨ i = .asmdq true ∨ i = .ordq ∨
      ∃ x : Nat → Word, Samples s x ∧ ((∃ w, i = .asmq w true) ∨ ∃ w ofs, i = .orq w true ofs)) →
    (s.cfg.flen.isFinite s.sf = false → exec i s = .next { s with status := 0x10307, finfo := 0x4 }) ∧
    (s.cfg.flen.isFinite s.sf = true → s.cfg.flen.val s.sf ≤ 0 →
      exec i s = .next { s with status := 0x10507, finfo := 0x4 })

/-- 44_offset_refinement.md R150 step 4, R151 step 2: a non-finite `OFFSET` operand faults with `NONFINITE_SCALAR` after the
checks of `SF`. -/
def Obligations.OffsetOperandCheck : Prop :=
  ∀ (s : State) (w : BitVec 6) (sfs : Bool) (x : Nat → Word), CountLegal s → s.cfg.flen.isFinite s.offset = false →
    (SfLegal s → exec .ordq s = .next { s with status := 0x10307, finfo := 0x5 }) ∧
    (Samples s x → (sfs = true → SfLegal s) →
      exec (.orq w sfs true) s = .next { s with status := 0x10307, finfo := 0x5 })

/-- 40_numerics.md R106; 41_uniform.md R120 step 5; 43_adaptive_sign_magnitude.md R140 step 4; 44_offset_refinement.md R150
step 5; 42_error_metrics.md R130 step 5: a scalar output that overflows faults with `OUT_OVF`, naming its register. -/
def Obligations.ScalarOutputOverflow : Prop :=
  ∀ (s : State) (x : Nat → Word), Samples s x →
    (∀ (w : BitVec 6) (mn mx : ℚ), LeastOf s.n.toNat (fun i => s.cfg.flen.val (x i)) mn →
      GreatestOf s.n.toNat (fun i => s.cfg.flen.val (x i)) mx → mn ≠ mx →
      s.cfg.flen.fl ((2 ^ w.toNat - 1) / (mx - mn)) = none →
      exec (.uq w) s = .next { s with status := 0x10E0B, finfo := 0x6 }) ∧
    (∀ (w : BitVec 6) (ofs : Bool) (m : ℚ), LeastNonzero s.n.toNat (mags s.cfg.flen x) m →
      s.cfg.flen.fl ((10 : ℚ) ^ kexp m) = none →
      exec (.asmq w false) s = .next { s with status := 0x10E0B, finfo := 0x4 } ∧
      (OffsetLegal ofs s → exec (.orq w false ofs) s = .next { s with status := 0x10E0B, finfo := 0x4 })) ∧
    (∀ y : Nat → Word, Holds s.mem.recon s.n.toNat y → AllFinite s.cfg.flen s.n.toNat y →
      s.cfg.flen.fl ((∑ i ∈ Finset.range s.n.toNat, (s.cfg.flen.val (x i) - s.cfg.flen.val (y i)) ^ 2) / s.n.toNat) =
        none →
      exec .em s = .next { s with status := 0x10E0B, finfo := 0x9 })

/-! ## The uniform quantizer and dequantizer (41_uniform.md) -/

/-- 41_uniform.md R120, R122: `UQ W` on finite samples whose scale does not overflow completes. With least and greatest
sample `mn` and `mx` and `L = 2^W - 1`: every code is 0 and `SCALE` is `+0.0` when `mn = mx`; otherwise `SCALE` is
`fl(L / (mx - mn))` and each code is `rnd((d - mn) * L / (mx - mn))`, in `[0, L]` without the clamp. -/
def Obligations.UqQuantizes : Prop :=
  ∀ (s : State) (w : BitVec 6) (x : Nat → Word) (mn mx : ℚ) (scale : Word),
    legalWidth w = true → Samples s x → LeastOf s.n.toNat (fun i => s.cfg.flen.val (x i)) mn →
    GreatestOf s.n.toNat (fun i => s.cfg.flen.val (x i)) mx →
    s.cfg.flen.fl (if mx = mn then 0 else (2 ^ w.toNat - 1) / (mx - mn)) = some scale →
    let code := fun i => if mx = mn then (0 : ℤ) else rnd ((s.cfg.flen.val (x i) - mn) * ((2 ^ w.toNat - 1) / (mx - mn)))
    ∃ t, exec (.uq w) s = .next t ∧
      t = { s with mem := { s.mem with code := t.mem.code }, scale := scale, min := t.min, max := t.max,
                   status := successWord s.status, finfo := 0 } ∧
      s.cfg.flen.fl mn = some t.min ∧ s.cfg.flen.fl mx = some t.max ∧
      (∀ i < s.n.toNat, 0 ≤ code i ∧ code i ≤ 2 ^ w.toNat - 1) ∧
      Holds t.mem.code s.n.toNat (fun i => BitVec.ofInt 32 (code i)) ∧ TailKept s.mem.code t.mem.code s.n.toNat

/-- 41_uniform.md R121, R123, R127: `UDQ W` with finite scalars and codes at most `2^W - 1` completes: each `RECON` element
is `fl` of `mn` when the scale is zero and of `code / L * (mx - mn) + mn` otherwise, which never overflows. -/
def Obligations.UdqDequantizes : Prop :=
  ∀ (s : State) (w : BitVec 6) (c : Nat → BitVec 32),
    legalWidth w = true → CountLegal s → s.cfg.flen.isFinite s.scale = true → s.cfg.flen.isFinite s.min = true →
    s.cfg.flen.isFinite s.max = true → Holds s.mem.code s.n.toNat c →
    (∀ i < s.n.toNat, (c i).toNat ≤ 2 ^ w.toNat - 1) →
    let mn := s.cfg.flen.val s.min
    let mx := s.cfg.flen.val s.max
    ∃ t, exec (.udq w) s = .next t ∧
      t = { s with mem := { s.mem with recon := t.mem.recon }, status := successWord s.status, finfo := 0 } ∧
      (∀ i < s.n.toNat, ∃ r, Buffer.read? t.mem.recon i = some r ∧
        s.cfg.flen.fl (if s.cfg.flen.val s.scale = 0 then mn
          else ((c i).toNat : ℚ) / (2 ^ w.toNat - 1) * (mx - mn) + mn) = some r) ∧
      TailKept s.mem.recon t.mem.recon s.n.toNat

/-- 41_uniform.md R121 steps 2 and 3: `UDQ` checks `SCALE`, `MIN`, `MAX` in this order, then reports the lowest code above
`2^W - 1`, also when the scale is zero. -/
def Obligations.UdqOperandChecks : Prop :=
  ∀ (s : State) (w : BitVec 6), CountLegal s →
    let fin := s.cfg.flen.isFinite
    (fin s.scale = false → exec (.udq w) s = .next { s with status := 0x10307, finfo := 0x6 }) ∧
    (fin s.scale = true → fin s.min = false → exec (.udq w) s = .next { s with status := 0x10307, finfo := 0x7 }) ∧
    (fin s.scale = true → fin s.min = true → fin s.max = false →
      exec (.udq w) s = .next { s with status := 0x10307, finfo := 0x8 }) ∧
    (∀ (c : Nat → BitVec 32) (k : Nat), fin s.scale = true → fin s.min = true → fin s.max = true → k < s.n.toNat →
      Holds s.mem.code (k + 1) c → (∀ j < k, (c j).toNat ≤ 2 ^ w.toNat - 1) → 2 ^ w.toNat - 1 < (c k).toNat →
      exec (.udq w) s = .next { s with status := 0x10C0B, finfo := BitVec.ofNat 36 (0x400000000 + k) })

/-- 41_uniform.md R124, R126: `UDQ W` on the outputs of a successful `UQ W` succeeds, and each element is `fl` of an ideal
value within half the step `(mx - mn) / (2^W - 1)` of the sample, the delivered one within that and the rounding of `fl`;
when all samples are equal it is `fl` of the sample. -/
def Obligations.UniformRoundTrip : Prop :=
  ∀ (s t : State) (w : BitVec 6) (x : Nat → Word) (mn mx : ℚ),
    legalWidth w = true → Samples s x → LeastOf s.n.toNat (fun i => s.cfg.flen.val (x i)) mn →
    GreatestOf s.n.toNat (fun i => s.cfg.flen.val (x i)) mx → exec (.uq w) s = .next t → statusErr t.status = false →
    ∃ u, exec (.udq w) t = .next u ∧ statusErr u.status = false ∧
      ∀ i < s.n.toNat, ∃ (v : ℚ) (r : Word), Buffer.read? u.mem.recon i = some r ∧ s.cfg.flen.fl v = some r ∧
        |v - s.cfg.flen.val (x i)| ≤ (mx - mn) / (2 * (2 ^ w.toNat - 1)) ∧
        |s.cfg.flen.val r - s.cfg.flen.val (x i)| ≤
          (mx - mn) / (2 * (2 ^ w.toNat - 1)) + roundingTerm s.cfg.flen v ∧
        (mx = mn → v = s.cfg.flen.val (x i))

/-! ## The adaptive sign-magnitude quantizer and dequantizer (43_adaptive_sign_magnitude.md) -/

/-- 43_adaptive_sign_magnitude.md R140, R142, R144; 40_numerics.md R108: `ASMQ W` with a supplied or inferred factor
completes where every integer part fits `W` bits and every decimal part 63: the sign, the floor and the rounded scaled
fraction of each magnitude, and the factor used in `SF`. -/
def Obligations.AsmqQuantizes : Prop :=
  ∀ (s : State) (w : BitVec 6) (sfs : Bool) (x : Nat → Word) (sfb : Word),
    legalWidth w = true → Samples s x → FactorIs sfs s x sfb →
    let a := mags s.cfg.flen x
    let dp := fun i => rnd ((a i - ⌊a i⌋) * s.cfg.flen.val sfb)
    (∀ i < s.n.toNat, a i < 2 ^ w.toNat) → (∀ i < s.n.toNat, dp i ≤ 2 ^ 63 - 1) →
    ∃ t, exec (.asmq w sfs) s = .next t ∧
      t = { s with mem := { s.mem with sign := t.mem.sign, ipart := t.mem.ipart, dpart := t.mem.dpart }, sf := sfb,
                   status := successWord s.status, finfo := 0 } ∧
      Holds t.mem.sign s.n.toNat (fun i =>
        if s.cfg.flen.val (x i) = 0 then 0b00#2 else if 0 < s.cfg.flen.val (x i) then 0b01#2 else 0b11#2) ∧
      Holds t.mem.ipart s.n.toNat (fun i => BitVec.ofInt 32 ⌊a i⌋) ∧
      Holds t.mem.dpart s.n.toNat (fun i => BitVec.ofInt 64 (dp i)) ∧
      TailKept s.mem.sign t.mem.sign s.n.toNat ∧ TailKept s.mem.ipart t.mem.ipart s.n.toNat ∧
      TailKept s.mem.dpart t.mem.dpart s.n.toNat

/-- 43_adaptive_sign_magnitude.md R140 step 4, R146: a quantizer that is to infer its factor from samples that are all zero
faults with `ALL_ZERO`. -/
def Obligations.AllZeroSamplesFault : Prop :=
  ∀ (s : State) (w : BitVec 6) (ofs : Bool) (x : Nat → Word), Samples s x →
    (∀ i < s.n.toNat, s.cfg.flen.val (x i) = 0) →
    exec (.asmq w false) s = .next { s with status := 0x10407, finfo := 0 } ∧
      (OffsetLegal ofs s → exec (.orq w false ofs) s = .next { s with status := 0x10407, finfo := 0 })

/-- 43_adaptive_sign_magnitude.md R140 step 5, R146; 44_offset_refinement.md R150 step 6: the lowest sample whose magnitude is
`2^W` or more faults with `IPART_OVF`, never wraps. -/
def Obligations.IntegerPartOverflow : Prop :=
  ∀ (s : State) (w : BitVec 6) (sfs ofs : Bool) (x : Nat → Word) (sfb : Word) (k : Nat), Samples s x →
    FactorIs sfs s x sfb → k < s.n.toNat → (∀ j < k, mags s.cfg.flen x j < 2 ^ w.toNat) →
    2 ^ w.toNat ≤ mags s.cfg.flen x k →
    exec (.asmq w sfs) s = .next { s with status := 0x1080B, finfo := BitVec.ofNat 36 (0x100000000 + k) } ∧
      (OffsetLegal ofs s →
        exec (.orq w sfs ofs) s = .next { s with status := 0x1080B, finfo := BitVec.ofNat 36 (0x100000000 + k) })

/-- 43_adaptive_sign_magnitude.md R140 step 6, R147; 44_offset_refinement.md R150 step 9: the lowest sample whose rounded
scaled fraction exceeds `2^63 - 1` faults with `DPART_OVF`; in `ORQ` after the offset check. -/
def Obligations.DecimalPartOverflow : Prop :=
  ∀ (s : State) (w : BitVec 6) (sfs ofs : Bool) (x : Nat → Word) (sfb ofb : Word) (k : Nat), Samples s x →
    FactorIs sfs s x sfb → k < s.n.toNat → (∀ i < s.n.toNat, mags s.cfg.flen x i < 2 ^ w.toNat) →
    let dp := fun i => rnd ((mags s.cfg.flen x i - ⌊mags s.cfg.flen x i⌋) * s.cfg.flen.val sfb)
    (∀ j < k, dp j ≤ 2 ^ 63 - 1) → 2 ^ 63 - 1 < dp k →
    exec (.asmq w sfs) s = .next { s with status := 0x10A0B, finfo := BitVec.ofNat 36 (0x100000000 + k) } ∧
      (OffsetIs ofs s x ofb → (∀ i < s.n.toNat, OffsetFits (s.cfg.flen.val ofb) (mags s.cfg.flen x i)) →
        exec (.orq w sfs ofs) s = .next { s with status := 0x10A0B, finfo := BitVec.ofNat 36 (0x100000000 + k) })

/-- 43_adaptive_sign_magnitude.md R141, R142, R148: `ASMDQ` and `ASMDQ.E` with a legal factor, no reserved sign code and no
overflow complete: `RECON` is `fl` of `sign * (ipart + dpart / s)`, whatever record the host made, and with `E` the `ERR`
element is `fl` of the sample less the delivered reconstruction. -/
def Obligations.AsmdqReconstructs : Prop :=
  ∀ (s : State) (e : Bool) (g : Nat → BitVec 2) (ip : Nat → BitVec 32) (dp : Nat → BitVec 64) (x r d : Nat → Word),
    CountLegal s → SfLegal s → Holds s.mem.sign s.n.toNat g → Holds s.mem.ipart s.n.toNat ip →
    Holds s.mem.dpart s.n.toNat dp → (∀ i < s.n.toNat, g i ≠ 0b10#2) →
    (∀ i < s.n.toNat,
      s.cfg.flen.fl ((g i).toInt * ((ip i).toNat + (dp i).toInt / s.cfg.flen.val s.sf)) = some (r i)) →
    (e = true → Holds s.mem.data s.n.toNat x ∧ AllFinite s.cfg.flen s.n.toNat x ∧
      ∀ i < s.n.toNat, s.cfg.flen.fl (s.cfg.flen.val (x i) - s.cfg.flen.val (r i)) = some (d i)) →
    ∃ t, exec (.asmdq e) s = .next t ∧
      t = { s with mem := { s.mem with recon := t.mem.recon, err := t.mem.err }, status := successWord s.status,
                   finfo := 0 } ∧
      Holds t.mem.recon s.n.toNat r ∧ TailKept s.mem.recon t.mem.recon s.n.toNat ∧
      (if e then Holds t.mem.err s.n.toNat d ∧ TailKept s.mem.err t.mem.err s.n.toNat else t.mem.err = s.mem.err)

/-- 43_adaptive_sign_magnitude.md R141 step 3; 44_offset_refinement.md R151 step 3; 10_state.md R32: the lowest reserved sign
code faults with `SIGN_RESERVED` in both dequantizers. -/
def Obligations.ReservedSignReported : Prop :=
  ∀ (s : State) (e : Bool) (g : Nat → BitVec 2) (k : Nat), CountLegal s → SfLegal s → k < s.n.toNat →
    Holds s.mem.sign (k + 1) g → (∀ j < k, g j ≠ 0b10#2) → g k = 0b10#2 →
    exec (.asmdq e) s = .next { s with status := 0x10D0B, finfo := BitVec.ofNat 36 (0x500000000 + k) } ∧
      (s.cfg.flen.isFinite s.offset = true →
        exec .ordq s = .next { s with status := 0x10D0B, finfo := BitVec.ofNat 36 (0x500000000 + k) })

/-- 40_numerics.md R106; 43_adaptive_sign_magnitude.md R141 steps 5 and 6; 44_offset_refinement.md R151 step 4: the lowest
reconstruction that overflows faults with `OUT_OVF` naming `RECON`, and with `E` the lowest error that does, naming `ERR`. -/
def Obligations.ReconstructionOverflow : Prop :=
  ∀ (s : State) (g : Nat → BitVec 2) (k : Nat), CountLegal s → SfLegal s → k < s.n.toNat →
    Holds s.mem.sign s.n.toNat g → (∀ i < s.n.toNat, g i ≠ 0b10#2) →
    (∀ (ip : Nat → BitVec 32) (dp : Nat → BitVec 64), Holds s.mem.ipart s.n.toNat ip → Holds s.mem.dpart s.n.toNat dp →
      let v := fun i => (g i).toInt * ((ip i).toNat + (dp i).toInt / s.cfg.flen.val s.sf)
      ((∀ j < k, s.cfg.flen.fl (v j) ≠ none) → s.cfg.flen.fl (v k) = none →
        exec (.asmdq false) s = .next { s with status := 0x10E0B, finfo := BitVec.ofNat 36 (0x200000000 + k) } ∧
        ∀ x : Nat → Word, Holds s.mem.data s.n.toNat x → AllFinite s.cfg.flen s.n.toNat x →
          exec (.asmdq true) s = .next { s with status := 0x10E0B, finfo := BitVec.ofNat 36 (0x200000000 + k) }) ∧
      ∀ x r : Nat → Word, Holds s.mem.data s.n.toNat x → AllFinite s.cfg.flen s.n.toNat x →
        (∀ i < s.n.toNat, s.cfg.flen.fl (v i) = some (r i)) →
        (∀ j < k, s.cfg.flen.fl (s.cfg.flen.val (x j) - s.cfg.flen.val (r j)) ≠ none) →
        s.cfg.flen.fl (s.cfg.flen.val (x k) - s.cfg.flen.val (r k)) = none →
        exec (.asmdq true) s = .next { s with status := 0x10E0B, finfo := BitVec.ofNat 36 (0x300000000 + k) }) ∧
    (∀ (iop : Nat → BitVec 8) (dop : Nat → BitVec 64), s.cfg.flen.isFinite s.offset = true →
      Holds s.mem.iopart s.n.toNat iop → Holds s.mem.dopart s.n.toNat dop →
      let v := fun i =>
        (g i).toInt * ((iop i).toInt + s.cfg.flen.val s.offset + (dop i).toInt / s.cfg.flen.val s.sf)
      (∀ j < k, s.cfg.flen.fl (v j) ≠ none) → s.cfg.flen.fl (v k) = none →
      exec .ordq s = .next { s with status := 0x10E0B, finfo := BitVec.ofNat 36 (0x200000000 + k) })

/-- 43_adaptive_sign_magnitude.md R143: `ASMDQ` on the outputs of a successful `ASMQ` succeeds, and each element is `fl` of an
ideal value within `1 / (2 * SF)` of the sample, the delivered one within that and the rounding of `fl`. -/
def Obligations.AdaptiveRoundTrip : Prop :=
  ∀ (s t : State) (w : BitVec 6) (sfs : Bool) (x : Nat → Word), legalWidth w = true → Samples s x →
    exec (.asmq w sfs) s = .next t → statusErr t.status = false →
    ∃ u, exec (.asmdq false) t = .next u ∧ statusErr u.status = false ∧ 0 < s.cfg.flen.val t.sf ∧
      ∀ i < s.n.toNat, ∃ (v : ℚ) (r : Word), Buffer.read? u.mem.recon i = some r ∧ s.cfg.flen.fl v = some r ∧
        |v - s.cfg.flen.val (x i)| ≤ 1 / (2 * s.cfg.flen.val t.sf) ∧
        |s.cfg.flen.val r - s.cfg.flen.val (x i)| ≤ 1 / (2 * s.cfg.flen.val t.sf) + roundingTerm s.cfg.flen v

/-! ## The offset-refinement quantizer and dequantizer (44_offset_refinement.md) -/

/-- 44_offset_refinement.md R150, R153; 40_numerics.md R108: `ORQ W` with each scalar supplied or inferred completes where
every integer part fits `W` bits, every difference from the offset 8 signed bits, and every decimal part 63: the sign, the
difference, and the rounded scaled fraction of each magnitude, with the scalars used in `SF` and `OFFSET`. -/
def Obligations.OrqQuantizes : Prop :=
  ∀ (s : State) (w : BitVec 6) (sfs ofs : Bool) (x : Nat → Word) (sfb ofb : Word),
    legalWidth w = true → Samples s x → FactorIs sfs s x sfb → OffsetIs ofs s x ofb →
    let a := mags s.cfg.flen x
    let dop := fun i => rnd ((a i - ⌊a i⌋) * s.cfg.flen.val sfb)
    (∀ i < s.n.toNat, a i < 2 ^ w.toNat) → (∀ i < s.n.toNat, OffsetFits (s.cfg.flen.val ofb) (a i)) →
    (∀ i < s.n.toNat, dop i ≤ 2 ^ 63 - 1) →
    ∃ t, exec (.orq w sfs ofs) s = .next t ∧
      t = { s with mem := { s.mem with sign := t.mem.sign, iopart := t.mem.iopart, dopart := t.mem.dopart }, sf := sfb,
                   offset := ofb, status := successWord s.status, finfo := 0 } ∧
      Holds t.mem.sign s.n.toNat (fun i =>
        if s.cfg.flen.val (x i) = 0 then 0b00#2 else if 0 < s.cfg.flen.val (x i) then 0b01#2 else 0b11#2) ∧
      Holds t.mem.iopart s.n.toNat (fun i => BitVec.ofInt 8 (⌊a i⌋ - s.cfg.flen.val ofb : ℚ).num) ∧
      Holds t.mem.dopart s.n.toNat (fun i => BitVec.ofInt 64 (dop i)) ∧
      TailKept s.mem.sign t.mem.sign s.n.toNat ∧ TailKept s.mem.iopart t.mem.iopart s.n.toNat ∧
      TailKept s.mem.dopart t.mem.dopart s.n.toNat

/-- 44_offset_refinement.md R150 step 8, R155: the lowest sample whose integer part less the offset is not an integer of
`[-128, 127]` faults with `OFFSET_RANGE`, also when the decimal part would not fit. -/
def Obligations.OffsetOutOfRange : Prop :=
  ∀ (s : State) (w : BitVec 6) (sfs ofs : Bool) (x : Nat → Word) (sfb ofb : Word) (k : Nat), Samples s x →
    FactorIs sfs s x sfb → OffsetIs ofs s x ofb → (∀ i < s.n.toNat, mags s.cfg.flen x i < 2 ^ w.toNat) →
    k < s.n.toNat → (∀ j < k, OffsetFits (s.cfg.flen.val ofb) (mags s.cfg.flen x j)) →
    ¬ OffsetFits (s.cfg.flen.val ofb) (mags s.cfg.flen x k) →
    exec (.orq w sfs ofs) s = .next { s with status := 0x1090B, finfo := BitVec.ofNat 36 (0x100000000 + k) }

/-- 44_offset_refinement.md R151, R152, R157: `ORDQ` with a legal factor, a finite offset, no reserved sign code and no
overflow completes: `RECON` is `fl` of `sign * (iopart + offset + dopart / s)`, whatever record the host made. -/
def Obligations.OrdqReconstructs : Prop :=
  ∀ (s : State) (g : Nat → BitVec 2) (iop : Nat → BitVec 8) (dop : Nat → BitVec 64) (r : Nat → Word),
    CountLegal s → SfLegal s → s.cfg.flen.isFinite s.offset = true → Holds s.mem.sign s.n.toNat g →
    Holds s.mem.iopart s.n.toNat iop → Holds s.mem.dopart s.n.toNat dop → (∀ i < s.n.toNat, g i ≠ 0b10#2) →
    (∀ i < s.n.toNat, s.cfg.flen.fl
      ((g i).toInt * ((iop i).toInt + s.cfg.flen.val s.offset + (dop i).toInt / s.cfg.flen.val s.sf)) = some (r i)) →
    ∃ t, exec .ordq s = .next t ∧
      t = { s with mem := { s.mem with recon := t.mem.recon }, status := successWord s.status, finfo := 0 } ∧
      Holds t.mem.recon s.n.toNat r ∧ TailKept s.mem.recon t.mem.recon s.n.toNat

/-- 44_offset_refinement.md R154: `ORDQ` on the outputs of a successful `ORQ` succeeds, and each element is `fl` of an
ideal value within `1 / (2 * SF)` of the sample, the delivered one within that and the rounding of `fl`. -/
def Obligations.OffsetRoundTrip : Prop :=
  ∀ (s t : State) (w : BitVec 6) (sfs ofs : Bool) (x : Nat → Word), legalWidth w = true → Samples s x →
    exec (.orq w sfs ofs) s = .next t → statusErr t.status = false →
    ∃ u, exec .ordq t = .next u ∧ statusErr u.status = false ∧ 0 < s.cfg.flen.val t.sf ∧
      ∀ i < s.n.toNat, ∃ (v : ℚ) (r : Word), Buffer.read? u.mem.recon i = some r ∧ s.cfg.flen.fl v = some r ∧
        |v - s.cfg.flen.val (x i)| ≤ 1 / (2 * s.cfg.flen.val t.sf) ∧
        |s.cfg.flen.val r - s.cfg.flen.val (x i)| ≤ 1 / (2 * s.cfg.flen.val t.sf) + roundingTerm s.cfg.flen v

/-- 44_offset_refinement.md R156: for the same samples, `W` and factor, `ORQ` faults whenever `ASMQ` faults, and with the
same report but where its own checks of `OFFSET` come earlier; where `ASMQ` succeeds `ORQ` faults by those two checks or
succeeds with the same `SIGN` and `SF`, the same decimal parts, and `IOPART + OFFSET = IPART`. -/
def Obligations.OrqRefinesAsmq : Prop :=
  ∀ (s t : State) (w : BitVec 6) (sfs ofs : Bool), legalWidth w = true → exec (.asmq w sfs) s = .next t →
    let offsetUnusable := fun u : State =>
      ofs = true ∧ s.cfg.flen.isFinite s.offset = false ∧ u = { s with status := 0x10307, finfo := 0x5 }
    let offsetUnsuitable := fun u : State =>
      ∃ k < s.n.toNat, u = { s with status := 0x1090B, finfo := BitVec.ofNat 36 (0x100000000 + k) }
    ∃ u, exec (.orq w sfs ofs) s = .next u ∧
      if statusErr t.status then
        u = t ∨
        (offsetUnusable u ∧ (t.status = 0x10407 ∨ t.status = 0x10E0B ∨ t.status = 0x1080B ∨ t.status = 0x10A0B)) ∨
        (offsetUnsuitable u ∧ t.status = 0x10A0B)
      else
        offsetUnusable u ∨ offsetUnsuitable u ∨
        (statusErr u.status = false ∧ t.mem.sign = u.mem.sign ∧ t.sf = u.sf ∧
          ∀ i < s.n.toNat, ∃ (ip : BitVec 32) (iop : BitVec 8) (dp : BitVec 64),
            Buffer.read? t.mem.ipart i = some ip ∧ Buffer.read? t.mem.dpart i = some dp ∧
            Buffer.read? u.mem.iopart i = some iop ∧ Buffer.read? u.mem.dopart i = some dp ∧
            (iop.toInt : ℚ) + s.cfg.flen.val u.offset = ip.toNat)

/-! ## The error metrics (42_error_metrics.md) -/

/-- 42_error_metrics.md R130, R131, R132: `EM` on finite elements whose mean squared error does not overflow completes:
`MSE` is `fl` of the exact `mse`; `PSNR` is `+Infinity` when `mse` is exactly zero, `-Infinity` when it is not and the
original is all zero, and a finite pattern otherwise. -/
def Obligations.EmMeasures : Prop :=
  ∀ (s : State) (x y : Nat → Word) (peak : ℚ) (b : Word), Samples s x → Holds s.mem.recon s.n.toNat y →
    AllFinite s.cfg.flen s.n.toNat y → GreatestOf s.n.toNat (mags s.cfg.flen x) peak →
    let mse := (∑ i ∈ Finset.range s.n.toNat, (s.cfg.flen.val (x i) - s.cfg.flen.val (y i)) ^ 2) / s.n.toNat
    s.cfg.flen.fl mse = some b →
    ∃ t, exec .em s = .next t ∧
      t = { s with mse := b, psnr := t.psnr, status := successWord s.status, finfo := 0 } ∧
      (mse = 0 → t.psnr = if s.cfg.flen = .b64 then 0x7FF0000000000000 else 0x7F800000) ∧
      (mse ≠ 0 → peak = 0 → t.psnr = if s.cfg.flen = .b64 then 0xFFF0000000000000 else 0xFF800000) ∧
      (mse ≠ 0 → peak ≠ 0 → s.cfg.flen.isFinite t.psnr = true)

/-- 42_error_metrics.md R131; 40_numerics.md R99: in the third case `PSNR` is `20 * log10(peak / sqrt(mse))` of the real
numbers, rounded once: no finite pattern is nearer to it. -/
def Obligations.PsnrIsTheRoundedLogarithm : Prop :=
  ∀ (s t : State) (x y : Nat → Word) (peak : ℚ), Samples s x → Holds s.mem.recon s.n.toNat y →
    AllFinite s.cfg.flen s.n.toNat y → GreatestOf s.n.toNat (mags s.cfg.flen x) peak →
    let mse := (∑ i ∈ Finset.range s.n.toNat, (s.cfg.flen.val (x i) - s.cfg.flen.val (y i)) ^ 2) / s.n.toNat
    mse ≠ 0 → peak ≠ 0 → exec .em s = .next t → statusErr t.status = false →
    let exact : ℝ := 20 * Real.logb 10 (peak / Real.sqrt mse)
    s.cfg.flen.isFinite t.psnr = true ∧
      ∀ c, s.cfg.flen.isFinite c = true → |(s.cfg.flen.val t.psnr : ℝ) - exact| ≤ |(s.cfg.flen.val c : ℝ) - exact|
end

