-- ==== Sys2Proof/Laws/Buffer.lean ====
section
/-! SUPPORT. Reading, writing and the canonical form of a buffer. -/

namespace Sys2Proof.Machine

variable {w : Nat}

@[simp] theorem read_nil (i : Nat) : Buffer.read? ([] : Buffer w) i = none := rfl

/-- A read after a write to the same element gives the value written. -/
@[simp] theorem read_write_same (b : Buffer w) (i : Nat) (x : BitVec w) :
    Buffer.read? (Buffer.write b i x) i = some x := by
  induction b with
  | nil => simp [Buffer.write, Buffer.read?]
  | cons e rest ih =>
    obtain ⟨j, y⟩ := e
    simp only [Buffer.write]
    split
    · simp [Buffer.read?]
    · split
      · simp [Buffer.read?]
      · rename_i h1 h2
        simp [Buffer.read?, ih, Ne.symm h2]

/-- A write leaves every other element alone. -/
theorem read_write_other (b : Buffer w) {i k : Nat} (x : BitVec w) (h : k ≠ i) :
    Buffer.read? (Buffer.write b i x) k = Buffer.read? b k := by
  induction b with
  | nil => simp [Buffer.write, Buffer.read?, Ne.symm h]
  | cons e rest ih =>
    obtain ⟨j, y⟩ := e
    simp only [Buffer.write]
    split
    · simp [Buffer.read?, Ne.symm h]
    · split
      · rename_i h2
        subst h2
        simp [Buffer.read?, Ne.symm h]
      · simp [Buffer.read?, ih]

theorem read_write (b : Buffer w) (i k : Nat) (x : BitVec w) :
    Buffer.read? (Buffer.write b i x) k = if k = i then some x else Buffer.read? b k := by
  split
  · subst k; simp
  · exact read_write_other b x ‹_›

/-- What a buffer holds after a list has been written from element `i` on. -/
theorem read_writeFrom (xs : List (BitVec w)) (b : Buffer w) (i k : Nat) :
    Buffer.read? (Buffer.writeFrom b i xs) k =
      if i ≤ k ∧ k < i + xs.length then xs[k - i]? else Buffer.read? b k := by
  induction xs generalizing b i with
  | nil => simp only [Buffer.writeFrom, List.length_nil]; rw [if_neg (by omega)]
  | cons x xs ih =>
    simp only [Buffer.writeFrom, ih, read_write, List.length_cons]
    by_cases h1 : k = i
    · subst h1
      rw [if_neg (by omega), if_pos (by omega)]; simp
    · by_cases h2 : i + 1 ≤ k ∧ k < i + 1 + xs.length
      · rw [if_pos h2, if_pos (by omega)]
        obtain ⟨m, rfl⟩ := Nat.exists_eq_add_of_le h2.1
        rw [show i + 1 + m - (i + 1) = m by omega, show i + 1 + m - i = m + 1 by omega]; simp
      · rw [if_neg h2, if_neg h1, if_neg (by omega)]

/-- What a buffer holds after a command has written its elements `0..N-1`. -/
theorem read_writeAll (b : Buffer w) (xs : List (BitVec w)) (k : Nat) :
    Buffer.read? (Buffer.writeAll b xs) k = if k < xs.length then xs[k]? else Buffer.read? b k := by
  simp [Buffer.writeAll, read_writeFrom]

@[simp] theorem writeAll_nil (b : Buffer w) : Buffer.writeAll b [] = b := rfl

/-- The elements a command does not write are as before. -/
theorem writeAll_tailKept (b : Buffer w) (xs : List (BitVec w)) : TailKept b (Buffer.writeAll b xs) xs.length := by
  intro i hi
  rw [read_writeAll, if_neg (by omega)]

theorem risingAbove_write (b : Buffer w) (lo : Option Nat) (i : Nat) (x : BitVec w)
    (hlo : ∀ l, lo = some l → l < i) (h : Buffer.risingAbove lo b = true) :
    Buffer.risingAbove lo (Buffer.write b i x) = true := by
  induction b generalizing lo with
  | nil =>
    cases lo with
    | none => rfl
    | some l => simp [Buffer.write, Buffer.risingAbove, hlo l rfl]
  | cons e rest ih =>
    obtain ⟨j, y⟩ := e
    have hj : Buffer.risingAbove (some j) rest = true := by
      cases lo <;> simp_all [Buffer.risingAbove]
    have hlj : ∀ l, lo = some l → l < j := by
      intro l hl; subst hl; simp [Buffer.risingAbove] at h; exact h.1
    simp only [Buffer.write]
    split
    · rename_i hij
      cases lo with
      | none => simp [Buffer.risingAbove, hij, hj]
      | some l => simp [Buffer.risingAbove, hij, hj, hlo l rfl]
    · split
      · rename_i hij
        subst hij
        cases lo with
        | none => simpa [Buffer.risingAbove] using hj
        | some l => simp [Buffer.risingAbove, hj, hlo l rfl]
      · rename_i h1 h2
        have := ih (some j) (by intro l hl; cases hl; omega) hj
        cases lo with
        | none => simpa [Buffer.risingAbove] using this
        | some l => simp [Buffer.risingAbove, this, hlj l rfl]

/-- A write keeps the canonical form. -/
theorem canonical_write (b : Buffer w) (i : Nat) (x : BitVec w) (h : Buffer.canonical b = true) :
    Buffer.canonical (Buffer.write b i x) = true :=
  risingAbove_write b none i x (by simp) h

theorem canonical_writeFrom (xs : List (BitVec w)) (b : Buffer w) (i : Nat) (h : Buffer.canonical b = true) :
    Buffer.canonical (Buffer.writeFrom b i xs) = true := by
  induction xs generalizing b i with
  | nil => exact h
  | cons x xs ih => exact ih _ _ (canonical_write b i x h)

/-- Writing an array keeps the canonical form. -/
theorem canonical_writeAll (b : Buffer w) (xs : List (BitVec w)) (h : Buffer.canonical b = true) :
    Buffer.canonical (Buffer.writeAll b xs) = true :=
  canonical_writeFrom xs b 0 h

/-- A property of all listed entries is kept by a write of an entry that has it. -/
theorem all_write (p : Nat × BitVec w → Bool) (b : Buffer w) (i : Nat) (x : BitVec w) (hx : p (i, x) = true)
    (h : b.all p = true) : (Buffer.write b i x).all p = true := by
  induction b with
  | nil => simp [Buffer.write, hx]
  | cons e rest ih =>
    obtain ⟨j, y⟩ := e
    simp only [List.all_cons, Bool.and_eq_true] at h
    simp only [Buffer.write]
    split
    · simp [hx, h.1]; simpa using h.2
    · split
      · simp [hx]; simpa using h.2
      · simp [h.1]; simpa using ih h.2

theorem all_writeFrom (p : Nat × BitVec w → Bool) (xs : List (BitVec w)) (b : Buffer w) (i : Nat)
    (hx : ∀ k (hk : k < xs.length), p (i + k, xs[k]) = true) (h : b.all p = true) :
    (Buffer.writeFrom b i xs).all p = true := by
  induction xs generalizing b i with
  | nil => exact h
  | cons x xs ih =>
    have h0 : p (i, x) = true := hx 0 (by simp)
    refine ih _ (i + 1) (fun k hk => ?_) (all_write p b i x h0 h)
    have := hx (k + 1) (by simpa using hk)
    rw [show i + 1 + k = i + (k + 1) by omega]
    simpa using this

/-- A property of all listed entries is kept by writing an array whose entries have it. -/
theorem all_writeAll (p : Nat × BitVec w → Bool) (xs : List (BitVec w)) (b : Buffer w)
    (hx : ∀ k (hk : k < xs.length), p (k, xs[k]) = true) (h : b.all p = true) :
    (Buffer.writeAll b xs).all p = true :=
  all_writeFrom p xs b 0 (by simpa using hx) h

/-- A host write of an element keeps the canonical form of the memory. -/
theorem wf_writeElement (f : FloatWidth) (m : Memory) (b : Buf) (i : Nat) (v : Word) (h : Memory.wf m = true) :
    Memory.wf (writeElement f m b i v) = true := by
  simp only [Memory.wf, Bool.and_eq_true] at h
  obtain ⟨⟨⟨⟨⟨⟨⟨⟨h1, h2⟩, h3⟩, h4⟩, h5⟩, h6⟩, h7⟩, h8⟩, h9⟩ := h
  cases b <;> simp [writeElement, Memory.wf, canonical_write, *]

/-- The memory after reset is in canonical form. -/
theorem wf_unwritten : Memory.wf Memory.unwritten = true := rfl

/-- `State.reset`'s memory is in canonical form. -/
theorem wf_reset : Memory.wf State.reset.mem = true := rfl

end Sys2Proof.Machine
end

