-- ==== Sys2Proof/Laws/Scan.lean ====
section
/-! SUPPORT. What the scans over an array can do: all elements pass, or the lowest that stops is reported. -/

namespace Sys2Proof.Machine

variable {α β : Type}

theorem forEachFrom_ok_iff (f : Nat → α → Except Stop β) (xs : List α) (i : Nat) (ys : List β) :
    forEachFrom f i xs = .ok ys ↔
      ys.length = xs.length ∧ ∀ k (h : k < xs.length) (h' : k < ys.length), f (i + k) xs[k] = .ok ys[k] := by
  induction xs generalizing i ys with
  | nil =>
    simp only [forEachFrom, Except.ok.injEq, List.length_nil, List.length_eq_zero_iff]
    constructor
    · rintro rfl; simp
    · rintro ⟨rfl, _⟩; rfl
  | cons x xs ih =>
    simp only [forEachFrom]
    cases hx : f i x with
    | error e =>
      simp only [reduceCtorEq, false_iff, not_and, not_forall]
      intro hl
      exact ⟨0, by simp, by simp [hl], by simp [hx]⟩
    | ok b =>
      cases hr : forEachFrom f (i + 1) xs with
      | error e =>
        simp only [reduceCtorEq, false_iff]
        rintro ⟨hl, hk⟩
        cases ys with
        | nil => simp at hl
        | cons y ys =>
          have : forEachFrom f (i + 1) xs = .ok ys := by
            rw [ih]
            refine ⟨by simpa using hl, fun k h h' => ?_⟩
            have := hk (k + 1) (by simpa using h) (by simpa using h')
            rw [show i + 1 + k = i + (k + 1) by omega]
            simpa using this
          rw [hr] at this; cases this
      | ok bs =>
        rw [ih] at hr
        simp only [Except.ok.injEq]
        constructor
        · rintro rfl
          refine ⟨by simp [hr.1], fun k h h' => ?_⟩
          cases k with
          | zero => simpa using hx
          | succ k =>
            have := hr.2 k (by simpa using h) (by simpa using h')
            rw [show i + (k + 1) = i + 1 + k by omega]
            simpa using this
        · rintro ⟨hl, hk⟩
          cases ys with
          | nil => simp at hl
          | cons y ys =>
            have h0 := hk 0 (by simp) (by simp)
            simp only [Nat.add_zero, List.getElem_cons_zero, hx, Except.ok.injEq] at h0
            subst h0
            have hlen : ys.length = xs.length := by simpa using hl
            have : bs = ys := by
              apply List.ext_getElem (by omega)
              intro k h1 h2
              have a := hr.2 k (by omega) h1
              have b := hk (k + 1) (by simp; omega) (by simp; omega)
              simp only [List.getElem_cons_succ] at b
              rw [show i + (k + 1) = i + 1 + k by omega, a, Except.ok.injEq] at b
              exact b
            rw [this]

theorem forEachFrom_error_iff (f : Nat → α → Except Stop β) (xs : List α) (i : Nat) (e : Stop) :
    forEachFrom f i xs = .error e ↔
      ∃ k, ∃ h : k < xs.length, f (i + k) xs[k] = .error e ∧
        ∀ j (hj : j < k), ∃ b, f (i + j) (xs[j]'(by omega)) = .ok b := by
  induction xs generalizing i with
  | nil => simp [forEachFrom]
  | cons x xs ih =>
    simp only [forEachFrom]
    cases hx : f i x with
    | error e' =>
      simp only [Except.error.injEq]
      constructor
      · rintro rfl
        exact ⟨0, by simp, by simpa using hx, fun j hj => absurd hj (by omega)⟩
      · rintro ⟨k, h, hk, hj⟩
        cases k with
        | zero => simpa [hx] using hk
        | succ k =>
          obtain ⟨b, hb⟩ := hj 0 (by omega)
          simp [hx] at hb
    | ok b =>
      have step : (∃ k, ∃ h : k < xs.length, f (i + 1 + k) xs[k] = .error e ∧
            ∀ j (hj : j < k), ∃ b, f (i + 1 + j) (xs[j]'(by omega)) = .ok b) ↔
          ∃ k, ∃ h : k < (x :: xs).length, f (i + k) (x :: xs)[k] = .error e ∧
            ∀ j (hj : j < k), ∃ b, f (i + j) ((x :: xs)[j]'(by omega)) = .ok b := by
        constructor
        · rintro ⟨k, h, hk, hj⟩
          refine ⟨k + 1, by simpa using h, ?_, ?_⟩
          · rw [show i + (k + 1) = i + 1 + k by omega]; simpa using hk
          · intro j hjk
            cases j with
            | zero => exact ⟨b, by simpa using hx⟩
            | succ j =>
              rw [show i + (j + 1) = i + 1 + j by omega]
              simpa using hj j (by omega)
        · rintro ⟨k, h, hk, hj⟩
          cases k with
          | zero => simp [hx] at hk
          | succ k =>
            refine ⟨k, by simpa using h, ?_, ?_⟩
            · rw [show i + 1 + k = i + (k + 1) by omega]; simpa using hk
            · intro j hjk
              have := hj (j + 1) (by omega)
              rw [show i + 1 + j = i + (j + 1) by omega]
              simpa using this
      rw [← step, ← ih]
      cases forEachFrom f (i + 1) xs <;> simp

/-- A scan over the indexes answers a list when every index passes, with the results in order. -/
theorem forIndex_ok_iff (f : Nat → Except Stop β) (n : Nat) (ys : List β) :
    forIndex f n = .ok ys ↔ ys.length = n ∧ ∀ k (h : k < ys.length), f k = .ok ys[k] := by
  simp only [forIndex, forEachFrom_ok_iff, List.length_replicate, Nat.zero_add]
  constructor
  · rintro ⟨h1, h2⟩; exact ⟨h1, fun k h => h2 k (by omega) h⟩
  · rintro ⟨h1, h2⟩; exact ⟨h1, fun k _ h => h2 k h⟩

/-- A scan over the indexes stops exactly at the lowest index that stops. -/
theorem forIndex_error_iff (f : Nat → Except Stop β) (n : Nat) (e : Stop) :
    forIndex f n = .error e ↔ ∃ k < n, f k = .error e ∧ ∀ j < k, ∃ b, f j = .ok b := by
  simp only [forIndex, forEachFrom_error_iff, List.length_replicate, Nat.zero_add, exists_prop]

/-- A scan over the indexes whose every index passes answers the list of the results. -/
theorem forIndex_ok_of (f : Nat → Except Stop β) (n : Nat) (g : Nat → β) (h : ∀ k < n, f k = .ok (g k)) :
    forIndex f n = .ok ((List.range n).map g) := by
  rw [forIndex_ok_iff]
  refine ⟨by simp, fun k hk => ?_⟩
  simp only [List.length_map, List.length_range] at hk
  simpa using h k hk

/-- Two scans that agree at every index agree. -/
theorem forIndex_congr (f g : Nat → Except Stop β) (n : Nat) (h : ∀ k < n, f k = g k) : forIndex f n = forIndex g n := by
  cases hg : forIndex g n with
  | ok ys =>
    rw [forIndex_ok_iff] at hg ⊢
    exact ⟨hg.1, fun k hk => (h k (by omega)).trans (hg.2 k hk)⟩
  | error e =>
    rw [forIndex_error_iff] at hg ⊢
    obtain ⟨k, hk, he, hj⟩ := hg
    refine ⟨k, hk, (h k hk).trans he, fun j hjk => ?_⟩
    obtain ⟨b, hb⟩ := hj j hjk
    exact ⟨b, (h j (by omega)).trans hb⟩

/-- An array check passes exactly when no element is bad. -/
theorem checkEach_ok_iff (bad : α → Bool) (c : Cause) (b : Buf) (xs : List α) (u : Unit) :
    checkEach bad c b xs = .ok u ↔ ∀ x ∈ xs, bad x = false := by
  simp only [checkEach]
  cases h : xs.findIdx? bad with
  | none =>
    rw [List.findIdx?_eq_none_iff] at h
    simpa using h
  | some i =>
    rw [List.findIdx?_eq_some_iff_getElem] at h
    obtain ⟨hi, hb, _⟩ := h
    simp only [reduceCtorEq, false_iff, not_forall]
    exact ⟨xs[i], by simp, by simp [hb]⟩

/-- An array check reports the lowest bad element. -/
theorem checkEach_error_iff (bad : α → Bool) (c : Cause) (b : Buf) (xs : List α) (e : Stop) :
    checkEach bad c b xs = .error e ↔
      ∃ i, ∃ h : i < xs.length, bad xs[i] = true ∧ (∀ j (hj : j < i), bad (xs[j]'(by omega)) = false) ∧
        e = .raise c (finfoElem b i) := by
  simp only [checkEach]
  cases h : xs.findIdx? bad with
  | none =>
    rw [List.findIdx?_eq_none_iff] at h
    simp only [reduceCtorEq, false_iff]
    rintro ⟨i, hi, hb, _⟩
    simp [h xs[i] (by simp)] at hb
  | some i =>
    rw [List.findIdx?_eq_some_iff_getElem] at h
    obtain ⟨hi, hb, hj⟩ := h
    simp only [Except.error.injEq]
    constructor
    · rintro rfl
      exact ⟨i, hi, hb, fun j hji => by simpa using hj j hji, rfl⟩
    · rintro ⟨k, hk, hkb, hkj, rfl⟩
      have : k = i := by
        rcases Nat.lt_trichotomy k i with h1 | h1 | h1
        · have := hj k h1; simp [hkb] at this
        · exact h1
        · have := hkj i h1; simp [hb] at this
      rw [this]

end Sys2Proof.Machine
end

