-- ==== Sys2Proof/Laws/Operands.lean ====
section
/-! SUPPORT. What each operand form answers, once: when it gives a value, which value, and with which stop otherwise. -/

namespace Sys2Proof.Machine

variable {w : Nat}

@[simp] theorem bind_ok {α β : Type} (a : α) (f : α → Except Stop β) : (Except.ok a >>= f) = f a := rfl

@[simp] theorem bind_error {α β : Type} (e : Stop) (f : α → Except Stop β) :
    ((Except.error e : Except Stop α) >>= f) = .error e := rfl

/-- A sequence answers a value when both its parts do. -/
theorem bind_eq_ok {α β : Type} (x : Except Stop α) (f : α → Except Stop β) (b : β) :
    (x >>= f) = .ok b ↔ ∃ a, x = .ok a ∧ f a = .ok b := by
  cases x <;> simp

/-- A sequence stops when its first part stops, or its second after the first. -/
theorem bind_eq_error {α β : Type} (x : Except Stop α) (f : α → Except Stop β) (e : Stop) :
    (x >>= f) = .error e ↔ x = .error e ∨ ∃ a, x = .ok a ∧ f a = .error e := by
  cases x <;> simp

@[simp] theorem finish_ok (s t : State) : finish s (.ok t) = .next (succeed t) := rfl

@[simp] theorem finish_raise (s : State) (c : Cause) (info : BitVec 36) :
    finish s (.error (.raise c info)) = .next (takeFault c info s) := rfl

@[simp] theorem finish_unwritten (s : State) (b : Buf) (i : Nat) :
    finish s (.error (.unwritten b i)) = .fault (.unwrittenElement b i) := rfl

/-- Everything a command's end can answer as a next state. -/
theorem finish_next_iff (s t : State) (r : Except Stop State) :
    finish s r = .next t ↔
      (∃ u, r = .ok u ∧ t = succeed u) ∨ (∃ c info, r = .error (.raise c info) ∧ t = takeFault c info s) := by
  rcases r with (⟨c, info⟩ | ⟨b, i⟩) | u <;> simp [eq_comm]

/-- The only fault a command's end can answer is the model's own. -/
theorem finish_fault_iff (s : State) (r : Except Stop State) (x : Fault) :
    finish s r = .fault x ↔ ∃ b i, r = .error (.unwritten b i) ∧ x = .unwrittenElement b i := by
  rcases r with (⟨c, info⟩ | ⟨b, i⟩) | u <;> simp [eq_comm]

/-- A command's end is never a refusal. -/
theorem finish_ne_refused (s : State) (r : Except Stop State) (x : Refusal) : finish s r ≠ .refused x := by
  rcases r with (⟨c, info⟩ | ⟨b, i⟩) | u <;> simp

theorem elementCount_ok_iff (s : State) (n : Nat) : elementCount s = .ok n ↔ CountLegal s ∧ n = s.n.toNat := by
  simp only [elementCount, CountLegal]
  split
  · simp only [reduceCtorEq, false_iff]; omega
  · simp only [Except.ok.injEq]; omega

theorem elementCount_error_iff (s : State) (e : Stop) :
    elementCount s = .error e ↔ ¬ CountLegal s ∧ e = .raise .nRange finfoNone := by
  simp only [elementCount, CountLegal]
  split
  · simp only [Except.error.injEq, eq_comm (a := e)]
    constructor
    · intro h; exact ⟨by omega, h⟩
    · exact fun h => h.2
  · simp only [reduceCtorEq, false_iff]; omega

theorem elementCount_of_legal {s : State} (h : CountLegal s) : elementCount s = .ok s.n.toNat :=
  (elementCount_ok_iff s _).2 ⟨h, rfl⟩

theorem readElem_ok_iff (b : Buf) (m : Buffer w) (i : Nat) (x : BitVec w) :
    readElem b m i = .ok x ↔ Buffer.read? m i = some x := by
  simp only [readElem]; cases Buffer.read? m i <;> simp

theorem readElem_error_iff (b : Buf) (m : Buffer w) (i : Nat) (e : Stop) :
    readElem b m i = .error e ↔ Buffer.read? m i = none ∧ e = .unwritten b i := by
  simp only [readElem]; cases Buffer.read? m i <;> simp [eq_comm]

theorem readElems_of_holds (b : Buf) {m : Buffer w} {n : Nat} {x : Nat → BitVec w} (h : Holds m n x) :
    readElems b m n = .ok ((List.range n).map x) :=
  forIndex_ok_of _ _ _ (fun k hk => (readElem_ok_iff b m k _).2 (h k hk))

theorem finiteElem_ok_iff (f : FloatWidth) (b : Buf) (m : Buffer 64) (i : Nat) (v : ℚ) :
    finiteElem f b m i = .ok v ↔ ∃ x, Buffer.read? m i = some x ∧ f.isFinite x = true ∧ v = f.val x := by
  simp only [finiteElem, bind_eq_ok, readElem_ok_iff]
  constructor
  · rintro ⟨x, hx, h⟩
    refine ⟨x, hx, ?_⟩
    split at h
    · exact ⟨‹_›, by cases h; rfl⟩
    · cases h
  · rintro ⟨x, hx, hf, rfl⟩
    exact ⟨x, hx, by simp [hf]⟩

theorem finiteElem_error_iff (f : FloatWidth) (b : Buf) (m : Buffer 64) (i : Nat) (e : Stop) :
    finiteElem f b m i = .error e ↔
      (Buffer.read? m i = none ∧ e = .unwritten b i) ∨
        ∃ x, Buffer.read? m i = some x ∧ f.isFinite x = false ∧ e = .raise .nonfiniteElem (finfoElem b i) := by
  simp only [finiteElem, bind_eq_error, readElem_ok_iff, readElem_error_iff]
  refine or_congr Iff.rfl (exists_congr fun x => and_congr_right fun _ => ?_)
  cases f.isFinite x <;> simp [eq_comm]

theorem finiteElems_of_holds {f : FloatWidth} (b : Buf) {m : Buffer 64} {n : Nat} {x : Nat → Word} (h : Holds m n x)
    (hf : AllFinite f n x) : finiteElems f b m n = .ok ((List.range n).map (fun i => f.val (x i))) :=
  forIndex_ok_of _ _ _ (fun k hk => (finiteElem_ok_iff f b m k _).2 ⟨x k, h k hk, hf k hk, rfl⟩)

/-- A float array operand answers its values exactly when every element is written and finite. -/
theorem finiteElems_ok_iff (f : FloatWidth) (b : Buf) (m : Buffer 64) (n : Nat) (d : List ℚ) :
    finiteElems f b m n = .ok d ↔
      ∃ x : Nat → Word, Holds m n x ∧ AllFinite f n x ∧ d = (List.range n).map (fun i => f.val (x i)) := by
  constructor
  · intro h
    rw [finiteElems, forIndex_ok_iff] at h
    obtain ⟨hl, hk⟩ := h
    have hx : ∀ i < n, ∃ x, Buffer.read? m i = some x ∧ f.isFinite x = true := by
      intro i hi
      obtain ⟨x, h1, h2, _⟩ := (finiteElem_ok_iff f b m i _).1 (hk i (by omega))
      exact ⟨x, h1, h2⟩
    have hh : Holds m n (fun i => (Buffer.read? m i).getD 0) := by
      intro i hi
      obtain ⟨x, h1, _⟩ := hx i hi
      simp [h1]
    have ha : AllFinite f n (fun i => (Buffer.read? m i).getD 0) := by
      intro i hi
      obtain ⟨x, h1, h2⟩ := hx i hi
      simp [h1, h2]
    refine ⟨_, hh, ha, ?_⟩
    have := finiteElems_of_holds b hh ha
    rw [finiteElems, forIndex_ok_iff] at this
    apply List.ext_getElem (by simp [hl])
    intro i h1 h2
    have e := (hk i h1).symm.trans (this.2 i h2)
    exact Except.ok.inj e
  · rintro ⟨x, h, hf, rfl⟩
    exact finiteElems_of_holds b h hf

/-- The lowest non-finite element of a float array operand is reported when those below it are written and finite. -/
theorem finiteElems_nonfinite {f : FloatWidth} {b : Buf} {m : Buffer 64} {n i : Nat} {x : Nat → Word} (hi : i < n)
    (h : Holds m (i + 1) x) (hf : AllFinite f i x) (hbad : f.isFinite (x i) = false) :
    finiteElems f b m n = .error (.raise .nonfiniteElem (finfoElem b i)) := by
  rw [finiteElems, forIndex_error_iff]
  refine ⟨i, hi, (finiteElem_error_iff f b m i _).2 (.inr ⟨x i, h i (by omega), hbad, rfl⟩), fun j hj => ?_⟩
  exact ⟨_, (finiteElem_ok_iff f b m j _).2 ⟨x j, h j (by omega), hf j hj, rfl⟩⟩

theorem codeElem_ok_iff (c : BitVec 6) (m : Buffer 32) (i : Nat) (v : ℤ) :
    codeElem c m i = .ok v ↔ ∃ x, Buffer.read? m i = some x ∧ (x.toNat : ℤ) ≤ maxCode c ∧ v = x.toNat := by
  simp only [codeElem, bind_eq_ok, readElem_ok_iff]
  refine exists_congr fun x => and_congr_right fun _ => ?_
  split
  · simp only [reduceCtorEq, false_iff]; omega
  · simp only [Except.ok.injEq]; omega

theorem codeElem_error_iff (c : BitVec 6) (m : Buffer 32) (i : Nat) (e : Stop) :
    codeElem c m i = .error e ↔
      (Buffer.read? m i = none ∧ e = .unwritten .code i) ∨
        ∃ x, Buffer.read? m i = some x ∧ maxCode c < x.toNat ∧ e = .raise .codeRange (finfoElem .code i) := by
  simp only [codeElem, bind_eq_error, readElem_ok_iff, readElem_error_iff]
  refine or_congr Iff.rfl (exists_congr fun x => and_congr_right fun _ => ?_)
  split <;> simp_all [eq_comm]

theorem codeElems_of_holds {c : BitVec 6} {m : Buffer 32} {n : Nat} {x : Nat → BitVec 32} (h : Holds m n x)
    (hc : ∀ i < n, ((x i).toNat : ℤ) ≤ maxCode c) :
    forIndex (codeElem c m) n = .ok ((List.range n).map (fun i => ((x i).toNat : ℤ))) :=
  forIndex_ok_of _ _ _ (fun k hk => (codeElem_ok_iff c m k _).2 ⟨x k, h k hk, hc k hk, rfl⟩)

theorem signElem_ok_iff (m : Buffer 2) (i : Nat) (v : ℤ) :
    signElem m i = .ok v ↔ ∃ x, Buffer.read? m i = some x ∧ x ≠ 0b10#2 ∧ v = x.toInt := by
  simp only [signElem, bind_eq_ok, readElem_ok_iff]
  refine exists_congr fun x => and_congr_right fun _ => ?_
  split <;> simp_all [eq_comm]

theorem signElem_error_iff (m : Buffer 2) (i : Nat) (e : Stop) :
    signElem m i = .error e ↔
      (Buffer.read? m i = none ∧ e = .unwritten .sign i) ∨
        (Buffer.read? m i = some 0b10#2 ∧ e = .raise .signReserved (finfoElem .sign i)) := by
  simp only [signElem, bind_eq_error, readElem_ok_iff, readElem_error_iff]
  refine or_congr Iff.rfl ?_
  constructor
  · rintro ⟨x, hx, h⟩
    split at h
    · subst x; exact ⟨hx, by cases h; rfl⟩
    · cases h
  · rintro ⟨hx, rfl⟩
    exact ⟨_, hx, by simp⟩

theorem signElems_of_holds {m : Buffer 2} {n : Nat} {x : Nat → BitVec 2} (h : Holds m n x)
    (hc : ∀ i < n, x i ≠ 0b10#2) : forIndex (signElem m) n = .ok ((List.range n).map (fun i => (x i).toInt)) :=
  forIndex_ok_of _ _ _ (fun k hk => (signElem_ok_iff m k _).2 ⟨x k, h k hk, hc k hk, rfl⟩)

theorem finiteScalar_ok_iff (f : FloatWidth) (r : Reg) (x : Word) (v : ℚ) :
    finiteScalar f r x = .ok v ↔ f.isFinite x = true ∧ v = f.val x := by
  simp only [finiteScalar]
  cases f.isFinite x <;> simp [eq_comm (a := v)]

theorem finiteScalar_error_iff (f : FloatWidth) (r : Reg) (x : Word) (e : Stop) :
    finiteScalar f r x = .error e ↔ f.isFinite x = false ∧ e = .raise .nonfiniteScalar (finfoReg r) := by
  simp only [finiteScalar]
  cases f.isFinite x <;> simp [eq_comm (a := e)]

theorem suppliedSf_ok_iff (s : State) (v : ℚ) : suppliedSf s = .ok v ↔ SfLegal s ∧ v = s.cfg.flen.val s.sf := by
  simp only [suppliedSf, bind_eq_ok, finiteScalar_ok_iff, SfLegal]
  constructor
  · rintro ⟨a, ⟨hf, rfl⟩, h⟩
    split at h
    · cases h
    · exact ⟨⟨hf, not_le.1 ‹_›⟩, by cases h; rfl⟩
  · rintro ⟨⟨hf, hp⟩, rfl⟩
    exact ⟨_, ⟨hf, rfl⟩, by simp [not_le.2 hp]⟩

theorem suppliedSf_error_iff (s : State) (e : Stop) :
    suppliedSf s = .error e ↔
      (s.cfg.flen.isFinite s.sf = false ∧ e = .raise .nonfiniteScalar (finfoReg .sf)) ∨
        (s.cfg.flen.isFinite s.sf = true ∧ s.cfg.flen.val s.sf ≤ 0 ∧ e = .raise .sfNonpos (finfoReg .sf)) := by
  simp only [suppliedSf, bind_eq_error, finiteScalar_ok_iff, finiteScalar_error_iff]
  refine or_congr Iff.rfl ?_
  constructor
  · rintro ⟨a, ⟨hf, rfl⟩, h⟩
    split at h
    · exact ⟨hf, ‹_›, by cases h; rfl⟩
    · cases h
  · rintro ⟨hf, hp, rfl⟩
    exact ⟨_, ⟨hf, rfl⟩, by simp [hp]⟩

/-- The check of supplied scalars passes exactly when each supplied one is legal. -/
theorem scalingFactor_supplied_ok_iff (s : State) (a : List ℚ) (b : Word) :
    scalingFactor true s a = .ok b ↔ SfLegal s ∧ b = s.sf := by
  simp only [scalingFactor, if_true, bind_eq_ok, suppliedSf_ok_iff, Except.ok.injEq]
  constructor
  · rintro ⟨v, ⟨h, _⟩, rfl⟩; exact ⟨h, rfl⟩
  · rintro ⟨h, rfl⟩; exact ⟨_, ⟨h, rfl⟩, rfl⟩

theorem checkIntegerParts_ok_iff (c : BitVec 6) (a : List ℚ) (u : Unit) :
    checkIntegerParts c a = .ok u ↔ ∀ x ∈ a, ⌊x⌋ ≤ maxCode c := by
  rw [checkIntegerParts, checkEach_ok_iff]
  exact forall₂_congr fun x _ => decide_eq_false_iff_not.trans not_lt

/-- A float array output answers the rounded values exactly when none overflows. -/
theorem roundElems_ok_iff (f : FloatWidth) (b : Buf) (vs : List ℚ) (ws : List Word) :
    roundElems f b vs = .ok ws ↔ vs.map f.fl = ws.map some := by
  simp only [roundElems, bind_eq_ok, checkEach_ok_iff, Except.ok.injEq, exists_const]
  constructor
  · rintro ⟨h, rfl⟩
    rw [List.map_map]
    refine List.map_congr_left fun v hv => ?_
    have := h v hv
    cases hb : f.fl v with
    | none => simp [hb] at this
    | some b => simp [FloatWidth.flFits, hb]
  · intro h
    have hlen : vs.length = ws.length := by simpa using congrArg List.length h
    have hget : ∀ i (h1 : i < vs.length) (h2 : i < ws.length), f.fl vs[i] = some ws[i] := by
      intro i h1 h2
      have := congrArg (fun l => l[i]?) h
      simpa [h1, h2] using this
    refine ⟨fun v hv => ?_, ?_⟩
    · obtain ⟨i, hi, rfl⟩ := List.getElem_of_mem hv
      simp [hget i hi (by omega)]
    · apply List.ext_getElem (by simpa using hlen)
      intro i h1 h2
      simp only [List.length_map] at h1
      simp [FloatWidth.flFits, hget i h1 h2]

@[simp] theorem roundElems_nil (f : FloatWidth) (b : Buf) : roundElems f b [] = .ok [] := rfl

/-- The least element of a non-empty list is in it and below every other. -/
theorem minOf_spec (xs : List ℚ) (h : xs ≠ []) : minOf xs ∈ xs ∧ ∀ x ∈ xs, minOf xs ≤ x := by
  cases xs with
  | nil => exact absurd rfl h
  | cons x xs =>
    clear h
    induction xs generalizing x with
    | nil => simp [minOf]
    | cons y ys ih =>
      have := ih (min x y)
      simp only [minOf, List.foldl_cons] at this ⊢
      obtain ⟨h1, h2⟩ := this
      refine ⟨?_, ?_⟩
      · rcases List.mem_cons.1 h1 with h | h
        · rw [h]; rcases min_choice x y with hm | hm <;> simp [hm]
        · simp [h]
      · intro z hz
        have h0 := h2 (min x y) (by simp)
        rcases List.mem_cons.1 hz with rfl | hz
        · exact h0.trans (min_le_left _ _)
        · rcases List.mem_cons.1 hz with rfl | hz
          · exact h0.trans (min_le_right _ _)
          · exact h2 z (by simp [hz])

/-- The greatest element of a non-empty list is in it and above every other. -/
theorem maxOf_spec (xs : List ℚ) (h : xs ≠ []) : maxOf xs ∈ xs ∧ ∀ x ∈ xs, x ≤ maxOf xs := by
  cases xs with
  | nil => exact absurd rfl h
  | cons x xs =>
    clear h
    induction xs generalizing x with
    | nil => simp [maxOf]
    | cons y ys ih =>
      have := ih (max x y)
      simp only [maxOf, List.foldl_cons] at this ⊢
      obtain ⟨h1, h2⟩ := this
      refine ⟨?_, ?_⟩
      · rcases List.mem_cons.1 h1 with h | h
        · rw [h]; rcases max_choice x y with hm | hm <;> simp [hm]
        · simp [h]
      · intro z hz
        have h0 := h2 (max x y) (by simp)
        rcases List.mem_cons.1 hz with rfl | hz
        · exact (le_max_left _ _).trans h0
        · rcases List.mem_cons.1 hz with rfl | hz
          · exact (le_max_right _ _).trans h0
          · exact h2 z (by simp [hz])

/-- The least of an array operand, from the description of it by its indexes. -/
theorem minOf_range {n : Nat} {v : Nat → ℚ} {mn : ℚ} (h : LeastOf n v mn) : minOf ((List.range n).map v) = mn := by
  obtain ⟨⟨i, hi, rfl⟩, hle⟩ := h
  have hne : (List.range n).map v ≠ [] := by simp; omega
  obtain ⟨h1, h2⟩ := minOf_spec _ hne
  obtain ⟨j, hj, hjv⟩ := List.mem_map.1 h1
  refine le_antisymm (h2 _ (List.mem_map.2 ⟨i, by simpa using hi, rfl⟩)) ?_
  rw [← hjv]; exact hle j (by simpa using hj)

/-- The greatest of an array operand, from the description of it by its indexes. -/
theorem maxOf_range {n : Nat} {v : Nat → ℚ} {mx : ℚ} (h : GreatestOf n v mx) : maxOf ((List.range n).map v) = mx := by
  obtain ⟨⟨i, hi, rfl⟩, hle⟩ := h
  have hne : (List.range n).map v ≠ [] := by simp; omega
  obtain ⟨h1, h2⟩ := maxOf_spec _ hne
  obtain ⟨j, hj, hjv⟩ := List.mem_map.1 h1
  refine le_antisymm ?_ (h2 _ (List.mem_map.2 ⟨i, by simpa using hi, rfl⟩))
  rw [← hjv]; exact hle j (by simpa using hj)

end Sys2Proof.Machine
end

