-- ==== Sys2Proof/Laws/State.lean ====
section
/-! SUPPORT. One lemma per field per update of the state, each true by unfolding, so that no proof unfolds a record update. -/

namespace Sys2Proof.Machine

@[simp] theorem takeFault_cfg (c : Cause) (info : BitVec 36) (s : State) : (takeFault c info s).cfg = s.cfg := rfl
@[simp] theorem takeFault_cmd (c : Cause) (info : BitVec 36) (s : State) : (takeFault c info s).cmd = s.cmd := rfl
@[simp] theorem takeFault_status (c : Cause) (info : BitVec 36) (s : State) : (takeFault c info s).status = statusFault c := rfl
@[simp] theorem takeFault_finfo (c : Cause) (info : BitVec 36) (s : State) : (takeFault c info s).finfo = info := rfl
@[simp] theorem takeFault_n (c : Cause) (info : BitVec 36) (s : State) : (takeFault c info s).n = s.n := rfl
@[simp] theorem takeFault_sf (c : Cause) (info : BitVec 36) (s : State) : (takeFault c info s).sf = s.sf := rfl
@[simp] theorem takeFault_offset (c : Cause) (info : BitVec 36) (s : State) : (takeFault c info s).offset = s.offset := rfl
@[simp] theorem takeFault_scale (c : Cause) (info : BitVec 36) (s : State) : (takeFault c info s).scale = s.scale := rfl
@[simp] theorem takeFault_min (c : Cause) (info : BitVec 36) (s : State) : (takeFault c info s).min = s.min := rfl
@[simp] theorem takeFault_max (c : Cause) (info : BitVec 36) (s : State) : (takeFault c info s).max = s.max := rfl
@[simp] theorem takeFault_mse (c : Cause) (info : BitVec 36) (s : State) : (takeFault c info s).mse = s.mse := rfl
@[simp] theorem takeFault_psnr (c : Cause) (info : BitVec 36) (s : State) : (takeFault c info s).psnr = s.psnr := rfl
@[simp] theorem takeFault_mem (c : Cause) (info : BitVec 36) (s : State) : (takeFault c info s).mem = s.mem := rfl
@[simp] theorem takeFault_pending (c : Cause) (info : BitVec 36) (s : State) : (takeFault c info s).pending = s.pending := rfl
@[simp] theorem takeFault_response (c : Cause) (info : BitVec 36) (s : State) : (takeFault c info s).response = s.response := rfl

@[simp] theorem succeed_cfg (s : State) : (succeed s).cfg = s.cfg := rfl
@[simp] theorem succeed_cmd (s : State) : (succeed s).cmd = s.cmd := rfl
@[simp] theorem succeed_status (s : State) : (succeed s).status = statusSuccess s.status := rfl
@[simp] theorem succeed_finfo (s : State) : (succeed s).finfo = finfoNone := rfl
@[simp] theorem succeed_n (s : State) : (succeed s).n = s.n := rfl
@[simp] theorem succeed_sf (s : State) : (succeed s).sf = s.sf := rfl
@[simp] theorem succeed_offset (s : State) : (succeed s).offset = s.offset := rfl
@[simp] theorem succeed_scale (s : State) : (succeed s).scale = s.scale := rfl
@[simp] theorem succeed_min (s : State) : (succeed s).min = s.min := rfl
@[simp] theorem succeed_max (s : State) : (succeed s).max = s.max := rfl
@[simp] theorem succeed_mse (s : State) : (succeed s).mse = s.mse := rfl
@[simp] theorem succeed_psnr (s : State) : (succeed s).psnr = s.psnr := rfl
@[simp] theorem succeed_mem (s : State) : (succeed s).mem = s.mem := rfl
@[simp] theorem succeed_pending (s : State) : (succeed s).pending = s.pending := rfl
@[simp] theorem succeed_response (s : State) : (succeed s).response = s.response := rfl

@[simp] theorem respond_cfg (r : Response) (s : State) : (respond r s).cfg = s.cfg := rfl
@[simp] theorem respond_cmd (r : Response) (s : State) : (respond r s).cmd = s.cmd := rfl
@[simp] theorem respond_status (r : Response) (s : State) : (respond r s).status = s.status := rfl
@[simp] theorem respond_finfo (r : Response) (s : State) : (respond r s).finfo = s.finfo := rfl
@[simp] theorem respond_n (r : Response) (s : State) : (respond r s).n = s.n := rfl
@[simp] theorem respond_sf (r : Response) (s : State) : (respond r s).sf = s.sf := rfl
@[simp] theorem respond_offset (r : Response) (s : State) : (respond r s).offset = s.offset := rfl
@[simp] theorem respond_scale (r : Response) (s : State) : (respond r s).scale = s.scale := rfl
@[simp] theorem respond_min (r : Response) (s : State) : (respond r s).min = s.min := rfl
@[simp] theorem respond_max (r : Response) (s : State) : (respond r s).max = s.max := rfl
@[simp] theorem respond_mse (r : Response) (s : State) : (respond r s).mse = s.mse := rfl
@[simp] theorem respond_psnr (r : Response) (s : State) : (respond r s).psnr = s.psnr := rfl
@[simp] theorem respond_mem (r : Response) (s : State) : (respond r s).mem = s.mem := rfl
@[simp] theorem respond_pending (r : Response) (s : State) : (respond r s).pending = s.pending := rfl
@[simp] theorem respond_response (r : Response) (s : State) : (respond r s).response = some r := rfl

@[simp] theorem storeCmd_cfg (v : Word) (s : State) : (storeCmd v s).cfg = s.cfg := rfl
@[simp] theorem storeCmd_cmd (v : Word) (s : State) : (storeCmd v s).cmd = v := rfl
@[simp] theorem storeCmd_status (v : Word) (s : State) : (storeCmd v s).status = s.status := rfl
@[simp] theorem storeCmd_finfo (v : Word) (s : State) : (storeCmd v s).finfo = s.finfo := rfl
@[simp] theorem storeCmd_n (v : Word) (s : State) : (storeCmd v s).n = s.n := rfl
@[simp] theorem storeCmd_sf (v : Word) (s : State) : (storeCmd v s).sf = s.sf := rfl
@[simp] theorem storeCmd_offset (v : Word) (s : State) : (storeCmd v s).offset = s.offset := rfl
@[simp] theorem storeCmd_scale (v : Word) (s : State) : (storeCmd v s).scale = s.scale := rfl
@[simp] theorem storeCmd_min (v : Word) (s : State) : (storeCmd v s).min = s.min := rfl
@[simp] theorem storeCmd_max (v : Word) (s : State) : (storeCmd v s).max = s.max := rfl
@[simp] theorem storeCmd_mse (v : Word) (s : State) : (storeCmd v s).mse = s.mse := rfl
@[simp] theorem storeCmd_psnr (v : Word) (s : State) : (storeCmd v s).psnr = s.psnr := rfl
@[simp] theorem storeCmd_mem (v : Word) (s : State) : (storeCmd v s).mem = s.mem := rfl
@[simp] theorem storeCmd_pending (v : Word) (s : State) : (storeCmd v s).pending = s.pending := rfl
@[simp] theorem storeCmd_response (v : Word) (s : State) : (storeCmd v s).response = some .done := rfl

@[simp] theorem issueCmd_cfg (v : Word) (s : State) : (issueCmd v s).cfg = s.cfg := rfl
@[simp] theorem issueCmd_cmd (v : Word) (s : State) : (issueCmd v s).cmd = s.cmd := rfl
@[simp] theorem issueCmd_status (v : Word) (s : State) : (issueCmd v s).status = s.status := rfl
@[simp] theorem issueCmd_finfo (v : Word) (s : State) : (issueCmd v s).finfo = s.finfo := rfl
@[simp] theorem issueCmd_n (v : Word) (s : State) : (issueCmd v s).n = s.n := rfl
@[simp] theorem issueCmd_sf (v : Word) (s : State) : (issueCmd v s).sf = s.sf := rfl
@[simp] theorem issueCmd_offset (v : Word) (s : State) : (issueCmd v s).offset = s.offset := rfl
@[simp] theorem issueCmd_scale (v : Word) (s : State) : (issueCmd v s).scale = s.scale := rfl
@[simp] theorem issueCmd_min (v : Word) (s : State) : (issueCmd v s).min = s.min := rfl
@[simp] theorem issueCmd_max (v : Word) (s : State) : (issueCmd v s).max = s.max := rfl
@[simp] theorem issueCmd_mse (v : Word) (s : State) : (issueCmd v s).mse = s.mse := rfl
@[simp] theorem issueCmd_psnr (v : Word) (s : State) : (issueCmd v s).psnr = s.psnr := rfl
@[simp] theorem issueCmd_mem (v : Word) (s : State) : (issueCmd v s).mem = s.mem := rfl
@[simp] theorem issueCmd_pending (v : Word) (s : State) : (issueCmd v s).pending = .write Reg.cmd.slot v :: s.pending := rfl
@[simp] theorem issueCmd_response (v : Word) (s : State) : (issueCmd v s).response = s.response := rfl

@[simp] theorem resetBlock_cfg (s : State) : (resetBlock s).cfg = s.cfg := rfl
@[simp] theorem resetBlock_cmd (s : State) : (resetBlock s).cmd = 0 := rfl
@[simp] theorem resetBlock_status (s : State) : (resetBlock s).status = 0 := rfl
@[simp] theorem resetBlock_finfo (s : State) : (resetBlock s).finfo = 0 := rfl
@[simp] theorem resetBlock_n (s : State) : (resetBlock s).n = 0 := rfl
@[simp] theorem resetBlock_sf (s : State) : (resetBlock s).sf = 0 := rfl
@[simp] theorem resetBlock_offset (s : State) : (resetBlock s).offset = 0 := rfl
@[simp] theorem resetBlock_scale (s : State) : (resetBlock s).scale = 0 := rfl
@[simp] theorem resetBlock_min (s : State) : (resetBlock s).min = 0 := rfl
@[simp] theorem resetBlock_max (s : State) : (resetBlock s).max = 0 := rfl
@[simp] theorem resetBlock_mse (s : State) : (resetBlock s).mse = 0 := rfl
@[simp] theorem resetBlock_psnr (s : State) : (resetBlock s).psnr = 0 := rfl
@[simp] theorem resetBlock_mem (s : State) : (resetBlock s).mem = Memory.unwritten := rfl
@[simp] theorem resetBlock_pending (s : State) : (resetBlock s).pending = s.pending := rfl
@[simp] theorem resetBlock_response (s : State) : (resetBlock s).response = none := rfl

@[simp] theorem reset_cfg : State.reset.cfg = Config.suggested := rfl
@[simp] theorem reset_n : State.reset.n = 0 := rfl
@[simp] theorem reset_mem : State.reset.mem = Memory.unwritten := rfl
@[simp] theorem reset_pending : State.reset.pending = [] := rfl

end Sys2Proof.Machine
end

