-- ==== Sys2Proof/Laws/Exec.lean ====
section
/-! SUPPORT. What running a command and taking a step can do, once: every command is its rule up to its writes and the one end
of Ops, so that a statement about all commands is one about that end. -/

namespace Sys2Proof.Machine

/-- The rule of each command up to its writes. -/
def commandResult (i : Instr) (s : State) : Except Stop State :=
  match i with
  | .uq w => uqResult w s
  | .udq w => udqResult w s
  | .asmq w sfs => asmqResult w sfs s
  | .asmdq e => asmdqResult e s
  | .orq w sfs ofs => orqResult w sfs ofs s
  | .ordq => ordqResult s
  | .em => emResult s

/-- Every command is its rule and the common end. -/
theorem exec_eq_finish (i : Instr) (s : State) : exec i s = finish s (commandResult i s) := by cases i <;> rfl

/-- Everything a command can answer as a next state: its outputs with a success, or the state before it with a fault. -/
theorem exec_next_iff (i : Instr) (s t : State) :
    exec i s = .next t ↔
      (∃ u, commandResult i s = .ok u ∧ t = succeed u) ∨
        ∃ c info, commandResult i s = .error (.raise c info) ∧ t = takeFault c info s := by
  rw [exec_eq_finish, finish_next_iff]

/-- A command stops the model exactly when its rule reads an element that was never written. -/
theorem exec_fault_iff (i : Instr) (s : State) (x : Fault) :
    exec i s = .fault x ↔ ∃ b k, commandResult i s = .error (.unwritten b k) ∧ x = .unwrittenElement b k := by
  rw [exec_eq_finish, finish_fault_iff]

/-- Every command checks the element count first. -/
theorem commandResult_of_count {i : Instr} {s : State} {e : Stop} (h : elementCount s = .error e) :
    commandResult i s = .error e := by
  cases i <;> simp [commandResult, uqResult, udqResult, asmqResult, asmdqResult, orqResult, ordqResult, emResult, h]

/-- A step with an event to come performs it. -/
theorem step_cons {s : State} {e : HostEvent} {rest : List HostEvent} (h : s.pending = e :: rest) :
    step s = perform e { s with pending := rest } := by simp [step, hostStep, h]

end Sys2Proof.Machine
end

