-- ==== Sys2Proof/Laws/Float.lean ====
section
/-! SUPPORT. The fields of a pattern built from its significand and binade, its value, and everything `fl` can answer. -/

namespace Sys2Proof

/-- The sign, the field and the fraction of a number put together from them. -/
theorem nat_fields {P Q s e m : Nat} (he : e < Q) (hm : m < P) :
    (s * (Q * P) + e * P + m) / (Q * P) = s ∧ (s * (Q * P) + e * P + m) / P % Q = e ∧
      (s * (Q * P) + e * P + m) % P = m := by
  have hP : 0 < P := by omega
  have hQ : 0 < Q := by omega
  have hlt : e * P + m < Q * P := by nlinarith
  refine ⟨?_, ?_, ?_⟩
  · rw [Nat.add_assoc, Nat.add_comm, Nat.add_mul_div_right _ _ (by positivity), Nat.div_eq_of_lt hlt]; omega
  · rw [show s * (Q * P) + e * P + m = m + (s * Q + e) * P by ring, Nat.add_mul_div_right _ _ hP,
      Nat.div_eq_of_lt hm, Nat.zero_add, Nat.add_comm, Nat.add_mul_mod_self_right, Nat.mod_eq_of_lt he]
  · rw [show s * (Q * P) + e * P + m = m + (s * Q + e) * P by ring, Nat.add_mul_mod_self_right, Nat.mod_eq_of_lt hm]

/-- The fields of a word put together from a sign, an exponent field and a fraction. -/
theorem fields_of_word (f : FloatWidth) (neg : Bool) (e m : Nat) (he : e < 2 ^ f.expBits)
    (hm : m < 2 ^ (f.precision - 1)) :
    let b : Word := BitVec.ofNat 64 ((if neg then 2 ^ (f.bits - 1) else 0) + e * 2 ^ (f.precision - 1) + m)
    f.signBit b = neg ∧ f.exponent b = e ∧ f.fraction b = m ∧ Machine.fitsFlen f b = true := by
  intro b
  obtain ⟨h1, h2, h3⟩ := nat_fields (s := neg.toNat) he hm
  have hQP : 2 ^ f.expBits * 2 ^ (f.precision - 1) = 2 ^ (f.bits - 1) := by
    rw [← pow_add]; cases f <;> rfl
  have hs : (if neg = true then 2 ^ (f.bits - 1) else 0) = neg.toNat * 2 ^ (f.bits - 1) := by cases neg <;> simp
  rw [hQP] at h1 h2 h3
  have hlt : neg.toNat * 2 ^ (f.bits - 1) + e * 2 ^ (f.precision - 1) + m < 2 ^ f.bits := by
    have hb : 2 ^ f.bits = 2 * 2 ^ (f.bits - 1) := by rw [← pow_succ']; cases f <;> rfl
    have hn : neg.toNat ≤ 1 := by cases neg <;> simp
    have : e * 2 ^ (f.precision - 1) + m < 2 ^ (f.bits - 1) := by rw [← hQP]; nlinarith
    have := Nat.mul_le_mul_right (2 ^ (f.bits - 1)) hn
    omega
  have h64 : 2 ^ f.bits ≤ 2 ^ 64 := Nat.pow_le_pow_right (by norm_num) (by cases f <;> decide)
  have hb : b.toNat = neg.toNat * 2 ^ (f.bits - 1) + e * 2 ^ (f.precision - 1) + m := by
    simp only [b, hs]
    rw [BitVec.toNat_ofNat, Nat.mod_eq_of_lt (hlt.trans_le h64)]
  refine ⟨?_, ?_, ?_, ?_⟩
  · rw [FloatWidth.signBit, BitVec.getLsbD, Nat.testBit_eq_decide_div_mod_eq, hb, h1]
    cases neg <;> rfl
  · rw [FloatWidth.exponent, BitVec.extractLsb'_toNat, Nat.shiftRight_eq_div_pow, hb, h2]
  · rw [FloatWidth.fraction, BitVec.extractLsb'_toNat, Nat.shiftRight_eq_div_pow, pow_zero, Nat.div_one, hb, h3]
  · rw [Machine.fitsFlen, decide_eq_true_eq, hb]; exact hlt

/-- The field values of a binade and a significand that `pattern` puts together. -/
structure FloatWidth.Canonical (f : FloatWidth) (e m : ℤ) : Prop where
  emin_le : f.emin ≤ e
  le_emax : e ≤ f.emax
  nonneg : 0 ≤ m
  le_pow : m ≤ 2 ^ f.precision
  small : m < 2 ^ (f.precision - 1) → e = f.emin
  carry : m = 2 ^ f.precision → e < f.emax

/-- The pattern of a binade and a significand is finite, within `FLEN` bits, and has their value. -/
theorem pattern_spec (f : FloatWidth) (neg : Bool) (e m : ℤ) (h : f.Canonical e m) :
    f.isFinite (f.pattern neg e m) = true ∧ Machine.fitsFlen f (f.pattern neg e m) = true ∧
      f.signBit (f.pattern neg e m) = neg ∧
      f.val (f.pattern neg e m) = (if neg then -1 else 1) * (m * (2 : ℚ) ^ (e - f.precision + 1)) := by
  obtain ⟨h1, h2, h3, h4, h5, h6⟩ := h
  have two : (2 : ℚ) ≠ 0 := by norm_num
  obtain ⟨M, rfl⟩ := Int.eq_ofNat_of_zero_le h3
  have hb : ∃ E : Nat, (e + f.bias - 1).toNat = E ∧ (E : ℤ) = e + f.bias - 1 := by
    refine ⟨_, rfl, Int.toNat_of_nonneg ?_⟩
    cases f <;> simp only [FloatWidth.emin, FloatWidth.bias] at h1 ⊢ <;> omega
  obtain ⟨E, hE, hEe⟩ := hb
  have hpat : f.pattern neg e M =
      BitVec.ofNat 64 ((if neg then 2 ^ (f.bits - 1) else 0) + E * 2 ^ (f.precision - 1) + M) := by
    simp [FloatWidth.pattern, hE]
  have fin : ∀ x y : Nat, x < f.emaxf → y < 2 ^ (f.precision - 1) →
      E * 2 ^ (f.precision - 1) + M = x * 2 ^ (f.precision - 1) + y →
      f.isFinite (f.pattern neg e M) = true ∧ Machine.fitsFlen f (f.pattern neg e M) = true ∧
        f.signBit (f.pattern neg e M) = neg ∧
        f.exponent (f.pattern neg e M) = x ∧ f.fraction (f.pattern neg e M) = y := by
    intro x y hx hy hxy
    have hx' : x < 2 ^ f.expBits := by
      cases f <;> simp only [FloatWidth.emaxf, FloatWidth.expBits] at hx ⊢ <;> omega
    obtain ⟨a, b, c, d⟩ := fields_of_word f neg x y hx' hy
    rw [hpat, Nat.add_assoc, hxy, ← Nat.add_assoc]
    exact ⟨by simp [FloatWidth.isFinite, b]; omega, d, a, b, c⟩
  have val : ∀ x y : Nat, f.signBit (f.pattern neg e M) = neg → f.exponent (f.pattern neg e M) = x →
      f.fraction (f.pattern neg e M) = y →
      (if x = 0 then (y : ℚ) * (2 : ℚ) ^ (f.emin - f.precision + 1)
        else (2 ^ (f.precision - 1) + y : ℚ) * (2 : ℚ) ^ ((x : ℤ) - f.bias - f.precision + 1)) =
        (M : ℚ) * (2 : ℚ) ^ (e - f.precision + 1) →
      f.val (f.pattern neg e M) = (if neg then -1 else 1) * (((M : ℤ) : ℚ) * (2 : ℚ) ^ (e - f.precision + 1)) := by
    intro x y hs hx hy hv
    rw [FloatWidth.val, FloatWidth.magnitude, hs, hx, hy, hv, Int.cast_natCast]
    cases neg <;> simp
  by_cases hsmall : (M : ℤ) < 2 ^ (f.precision - 1)
  · have he := h5 hsmall
    have hE0 : E = 0 := by
      rw [he] at hEe
      cases f <;> simp only [FloatWidth.emin, FloatWidth.bias] at hEe <;> omega
    obtain ⟨a, b, c, d, g⟩ := fin 0 M (by cases f <;> simp [FloatWidth.emaxf]) (by exact_mod_cast hsmall) (by simp [hE0])
    exact ⟨a, b, c, val 0 M c d g (by simp [he])⟩
  · by_cases htop : (M : ℤ) = 2 ^ f.precision
    · have he := h6 htop
      have hM : M = 2 * 2 ^ (f.precision - 1) := by
        have : M = 2 ^ f.precision := by exact_mod_cast htop
        rw [this, ← pow_succ']; cases f <;> rfl
      obtain ⟨a, b, c, d, g⟩ := fin (E + 2) 0
        (by cases f <;> simp only [FloatWidth.emaxf, FloatWidth.emax, FloatWidth.bias] at he hEe ⊢ <;> omega)
        (by positivity) (by rw [hM]; ring)
      refine ⟨a, b, c, val (E + 2) 0 c d g ?_⟩
      rw [if_neg (by omega), hM]
      push_cast
      rw [show (E : ℤ) + 2 - f.bias - f.precision + 1 = (e - f.precision + 1) + 1 by omega, zpow_add₀ two, zpow_one]
      ring
    · have hlt : M < 2 * 2 ^ (f.precision - 1) := by
        have a : (M : ℤ) < 2 ^ f.precision := lt_of_le_of_ne h4 htop
        have b : M < 2 ^ f.precision := by exact_mod_cast a
        have c : 2 ^ f.precision = 2 * 2 ^ (f.precision - 1) := by rw [← pow_succ']; cases f <;> rfl
        omega
      have hge : 2 ^ (f.precision - 1) ≤ M := by
        have : (2 : ℤ) ^ (f.precision - 1) ≤ M := not_lt.1 hsmall
        exact_mod_cast this
      obtain ⟨F, hF⟩ := Nat.exists_eq_add_of_le hge
      obtain ⟨a, b, c, d, g⟩ := fin (E + 1) F
        (by cases f <;> simp only [FloatWidth.emaxf, FloatWidth.emax, FloatWidth.bias] at h2 hEe ⊢ <;> omega)
        (by omega) (by rw [hF]; ring)
      refine ⟨a, b, c, val (E + 1) F c d g ?_⟩
      rw [if_neg (by omega), hF]
      push_cast
      rw [show (E : ℤ) + 1 - f.bias - f.precision + 1 = e - f.precision + 1 by omega]

/-- A rounded magnitude lies between the integers that enclose it. -/
theorem rnd_between {x : ℚ} {a b : ℤ} (ha : (a : ℚ) ≤ x) (hb : x ≤ b) : a ≤ rnd x ∧ rnd x ≤ b := by
  have h1 : a ≤ ⌊x⌋ := Int.le_floor.2 ha
  have h2 := Int.floor_le x
  have h3 := Int.lt_floor_add_one x
  have h4 : ⌊x⌋ ≤ b := by exact_mod_cast h2.trans hb
  have key : x - ⌊x⌋ ≠ 0 → ⌊x⌋ + 1 ≤ b := by
    intro h
    by_contra hc
    have : ⌊x⌋ = b := by omega
    rw [this] at h h2
    exact h (by linarith)
  simp only [rnd]
  split
  · omega
  · have : x - ⌊x⌋ ≠ 0 := by intro h; simp [h] at *
    have := key this
    split
    · omega
    · split <;> omega

theorem ulp_pos (f : FloatWidth) (x : ℚ) : 0 < f.ulp x := by
  unfold FloatWidth.ulp; positivity

/-- The binade's power of two is at most the magnitude, unless the magnitude is subnormal; the next one exceeds it. -/
theorem binade_spec (f : FloatWidth) {x : ℚ} (hx : x ≠ 0) :
    ((2 : ℚ) ^ f.binade x ≤ |x| ∨ f.binade x = f.emin) ∧ |x| < (2 : ℚ) ^ (f.binade x + 1) := by
  have hp : 0 < |x| := abs_pos.2 hx
  have a := Int.zpow_log_le_self (R := ℚ) (b := 2) (by norm_num) hp
  have b := Int.lt_zpow_succ_log_self (R := ℚ) (b := 2) (by norm_num) |x|
  rw [Nat.cast_ofNat] at a b
  refine ⟨?_, ?_⟩
  · rcases le_total (Int.log 2 |x|) f.emin with h | h
    · right; simp [FloatWidth.binade, h]
    · left; simpa [FloatWidth.binade, h] using a
  · refine b.trans_le (zpow_le_zpow_right₀ (by norm_num) ?_)
    simp only [FloatWidth.binade]; omega

/-- The bounds of the significand that `fl` rounds to: at most `2^p`, and at least `2^(p-1)` above the subnormals. -/
theorem significand_bounds (f : FloatWidth) {x : ℚ} (hx : x ≠ 0) :
    0 ≤ f.significand x ∧ f.significand x ≤ 2 ^ f.precision ∧
      (f.significand x < 2 ^ (f.precision - 1) → f.binade x = f.emin) := by
  have hu := ulp_pos f x
  have two : (2 : ℚ) ≠ 0 := by norm_num
  obtain ⟨hlow, hhigh⟩ := binade_spec f hx
  have hp : 1 ≤ f.precision := by cases f <;> simp [FloatWidth.precision]
  have h0 : ((0 : ℤ) : ℚ) ≤ |x| / f.ulp x := by positivity
  have h1 : |x| / f.ulp x ≤ ((2 ^ f.precision : ℤ) : ℚ) := by
    rw [div_le_iff₀ hu]
    refine hhigh.le.trans (le_of_eq ?_)
    rw [FloatWidth.ulp]
    push_cast
    rw [← zpow_natCast, ← zpow_add₀ two]
    congr 1; ring
  obtain ⟨a, b⟩ := rnd_between h0 h1
  refine ⟨a, b, fun hs => ?_⟩
  rcases hlow with h | h
  · exfalso
    have h2 : ((2 ^ (f.precision - 1) : ℤ) : ℚ) ≤ |x| / f.ulp x := by
      rw [le_div_iff₀ hu]
      refine le_trans (le_of_eq ?_) h
      rw [FloatWidth.ulp]
      push_cast
      rw [← zpow_natCast, ← zpow_add₀ two]
      congr 1
      have : ((f.precision - 1 : Nat) : ℤ) = f.precision - 1 := by omega
      rw [this]; ring
    have := (rnd_between h2 h1).1
    exact absurd hs (not_lt.2 this)
  · exact h

/-- `fl` does not overflow exactly when the rounded magnitude is below `2^(emax+1)`, or the argument is zero. -/
theorem fl_eq_none_iff (f : FloatWidth) (x : ℚ) :
    f.fl x = none ↔ x ≠ 0 ∧ (2 : ℚ) ^ (f.emax + 1) ≤ f.significand x * f.ulp x := by
  simp only [FloatWidth.fl]
  by_cases hx : x = 0
  · simp [hx]
  · by_cases ho : (2 : ℚ) ^ (f.emax + 1) ≤ f.significand x * f.ulp x
    · simp [hx, ho]
    · by_cases hs : f.significand x = 0 <;> simp [hx, ho, hs]

/-- The binade and significand of an argument that does not overflow are canonical. -/
theorem canonical_of_no_overflow (f : FloatWidth) {x : ℚ} (hx : x ≠ 0)
    (ho : f.significand x * f.ulp x < (2 : ℚ) ^ (f.emax + 1)) : f.Canonical (f.binade x) (f.significand x) := by
  obtain ⟨h0, h1, h2⟩ := significand_bounds f hx
  have two : (2 : ℚ) ≠ 0 := by norm_num
  have hemin : f.emin ≤ f.binade x := le_max_right _ _
  have hp : 1 ≤ f.precision := by cases f <;> simp [FloatWidth.precision]
  have small : f.emin ≤ f.emax := by cases f <;> decide
  have key : ∀ k : ℤ, (2 : ℚ) ^ k ≤ f.significand x → k + f.binade x - f.precision + 1 < f.emax + 1 := by
    intro k hk
    have : (2 : ℚ) ^ (k + (f.binade x - f.precision + 1)) < (2 : ℚ) ^ (f.emax + 1) := by
      rw [zpow_add₀ two]
      exact lt_of_le_of_lt (mul_le_mul_of_nonneg_right hk (ulp_pos f x).le) ho
    have := (zpow_lt_zpow_iff_right₀ (by norm_num)).1 this
    omega
  refine ⟨hemin, ?_, h0, h1, h2, ?_⟩
  · by_cases hs : f.significand x < 2 ^ (f.precision - 1)
    · rw [h2 hs]; exact small
    · have hc : ((2 ^ (f.precision - 1) : ℤ) : ℚ) ≤ f.significand x := by exact_mod_cast not_lt.1 hs
      have := key ((f.precision - 1 : Nat) : ℤ) (by push_cast at hc; rw [zpow_natCast]; exact hc)
      omega
  · intro he
    have := key (f.precision : ℤ) (by rw [he]; push_cast; rw [zpow_natCast])
    omega

/-- Everything `fl` can answer: a finite pattern within `FLEN` bits, whose value is the rounded magnitude with the sign of
the argument. -/
theorem fl_spec (f : FloatWidth) {x : ℚ} {b : Word} (h : f.fl x = some b) :
    f.isFinite b = true ∧ Machine.fitsFlen f b = true ∧
      f.val b = (if x < 0 then -1 else 1) * (f.significand x * f.ulp x) := by
  have zero : f.isFinite (0 : Word) = true ∧ Machine.fitsFlen f (0 : Word) = true ∧ f.val (0 : Word) = 0 := by
    cases f <;> exact ⟨by decide, by decide, by simp [FloatWidth.val, FloatWidth.magnitude, FloatWidth.exponent,
      FloatWidth.fraction]⟩
  simp only [FloatWidth.fl] at h
  split at h
  · rename_i hx
    cases h
    refine ⟨zero.1, zero.2.1, ?_⟩
    rw [zero.2.2, hx]
    simp [FloatWidth.significand, rnd]
  · rename_i hx
    split at h
    · cases h
    · rename_i ho
      split at h
      · rename_i hs
        cases h
        exact ⟨zero.1, zero.2.1, by rw [zero.2.2, hs]; simp⟩
      · cases h
        obtain ⟨a, c, _, d⟩ := pattern_spec f (decide (x < 0)) _ _ (canonical_of_no_overflow f hx (not_le.1 ho))
        refine ⟨a, c, ?_⟩
        rw [d, FloatWidth.ulp]
        simp

/-- A finite pattern is the pattern of a canonical binade and significand. -/
theorem finite_pattern (f : FloatWidth) {b : Word} (hb : f.isFinite b = true) :
    ∃ e m : ℤ, f.Canonical e m ∧ m < 2 ^ f.precision ∧ f.magnitude b = m * (2 : ℚ) ^ (e - f.precision + 1) := by
  have hexp : f.exponent b < f.emaxf := by
    have h1 : f.exponent b < 2 ^ f.expBits := BitVec.isLt _
    have h2 : f.exponent b ≠ f.emaxf := by simpa [FloatWidth.isFinite] using hb
    cases f <;> simp only [FloatWidth.expBits, FloatWidth.emaxf] at h1 h2 ⊢ <;> omega
  have hfr : f.fraction b < 2 ^ (f.precision - 1) := BitVec.isLt _
  have hpow : (2 : ℤ) ^ f.precision = 2 * 2 ^ (f.precision - 1) := by rw [← pow_succ']; cases f <;> rfl
  have hfr' : (f.fraction b : ℤ) < 2 ^ (f.precision - 1) := by exact_mod_cast hfr
  by_cases h0 : f.exponent b = 0
  · refine ⟨f.emin, f.fraction b, ⟨le_refl _, by cases f <;> decide, by omega, by omega, fun _ => rfl, by omega⟩,
      by omega, ?_⟩
    simp [FloatWidth.magnitude, h0]
  · refine ⟨(f.exponent b : ℤ) - f.bias, 2 ^ (f.precision - 1) + f.fraction b,
      ⟨?_, ?_, by positivity, by omega, by omega, by omega⟩, by omega, ?_⟩
    · cases f <;> simp only [FloatWidth.emin, FloatWidth.bias] <;> omega
    · cases f <;> simp only [FloatWidth.emax, FloatWidth.bias, FloatWidth.emaxf] at hexp ⊢ <;> omega
    · simp only [FloatWidth.magnitude, if_neg h0]
      push_cast
      rfl

end Sys2Proof
end

