-- ==== Sys2Proof/Laws/Log10.lean ====
section
/-! SUPPORT. The digits of a decimal logarithm found by interval squaring are the digits of its definition. -/

namespace Sys2Proof

/-- The decimal logarithm's floor is the integer whose power of ten and the next enclose the number. -/
theorem int_log_ten_eq {r : ℚ} {m : ℤ} (h1 : (10 : ℚ) ^ m ≤ r) (h2 : r < (10 : ℚ) ^ (m + 1)) : Int.log 10 r = m := by
  have hr : 0 < r := lt_of_lt_of_le (by positivity) h1
  have a : m ≤ Int.log 10 r := (Int.zpow_le_iff_le_log (by norm_num) hr).1 (by exact_mod_cast h1)
  have b : Int.log 10 r < m + 1 := (Int.lt_zpow_iff_log_lt (by norm_num) hr).1 (by exact_mod_cast h2)
  omega

/-- A positive number lies between the power of ten of its logarithm's floor and the next. -/
theorem int_log_ten_spec {r : ℚ} (hr : 0 < r) : (10 : ℚ) ^ Int.log 10 r ≤ r ∧ r < (10 : ℚ) ^ (Int.log 10 r + 1) := by
  have a := Int.zpow_log_le_self (R := ℚ) (b := 10) (by norm_num) hr
  have b := Int.lt_zpow_succ_log_self (R := ℚ) (b := 10) (by norm_num) r
  rw [Nat.cast_ofNat] at a b
  exact ⟨a, b⟩

/-- One squaring of an interval in units of `2^-p`: the quotients enclose the square. -/
theorem square_enclosed {p lo hi : Nat} {y : ℚ} (hy : 0 ≤ y) (hlo : (lo : ℚ) ≤ y * 2 ^ p) (hhi : y * 2 ^ p ≤ hi) :
    ((lo * lo / 2 ^ p : Nat) : ℚ) ≤ y ^ 2 * 2 ^ p ∧ y ^ 2 * 2 ^ p ≤ ((hi * hi / 2 ^ p + 1 : Nat) : ℚ) := by
  have hp : (0 : ℚ) < 2 ^ p := by positivity
  constructor
  · have h1 : ((lo * lo / 2 ^ p : Nat) : ℚ) ≤ ((lo * lo : Nat) : ℚ) / ((2 ^ p : Nat) : ℚ) := Nat.cast_div_le
    refine h1.trans ?_
    push_cast
    rw [div_le_iff₀ hp]
    have : (lo : ℚ) * lo ≤ (y * 2 ^ p) * (y * 2 ^ p) := mul_le_mul hlo hlo (by positivity) (by positivity)
    linarith [this]
  · have h1 : hi * hi < (hi * hi / 2 ^ p + 1) * 2 ^ p := by
      have := Nat.lt_div_mul_add (a := hi * hi) (b := 2 ^ p) (by positivity)
      linarith
    have h2 : ((hi : ℚ) * hi) < ((hi * hi / 2 ^ p + 1 : Nat) : ℚ) * 2 ^ p := by exact_mod_cast h1
    have h3 : (y * 2 ^ p) * (y * 2 ^ p) ≤ (hi : ℚ) * hi := mul_le_mul hhi hhi (by positivity) (by positivity)
    have h4 : (y ^ 2 * 2 ^ p) * 2 ^ p ≤ ((hi * hi / 2 ^ p + 1 : Nat) : ℚ) * 2 ^ p := by nlinarith
    exact le_of_mul_le_mul_right h4 hp

/-- The digits found enclose the number: `10^m ≤ (10^n * y)^(2^k) < 10^(m+1)`. -/
theorem logDigits_sound (p k : Nat) (lo hi : Nat) (n m : ℤ) (y : ℚ) (h1 : 1 ≤ y) (h10 : y < 10)
    (hlo : (lo : ℚ) ≤ y * 2 ^ p) (hhi : y * 2 ^ p ≤ hi) (h : logDigits p k lo hi n = some m) :
    (10 : ℚ) ^ m ≤ ((10 : ℚ) ^ n * y) ^ (2 ^ k) ∧ ((10 : ℚ) ^ n * y) ^ (2 ^ k) < (10 : ℚ) ^ (m + 1) := by
  have hp : (0 : ℚ) < 2 ^ p := by positivity
  have ten : (10 : ℚ) ≠ 0 := by norm_num
  induction k generalizing lo hi n y with
  | zero =>
    simp only [logDigits, Option.some.injEq] at h
    subst h
    have hz : (0 : ℚ) < (10 : ℚ) ^ n := by positivity
    simp only [pow_zero, pow_one]
    refine ⟨by nlinarith, ?_⟩
    rw [zpow_add₀ ten, zpow_one]
    nlinarith
  | succ k ih =>
    obtain ⟨hl2, hh2⟩ := square_enclosed (by linarith) hlo hhi
    have hpow : ∀ n' : ℤ, ∀ z : ℚ, (10 : ℚ) ^ n' * z = ((10 : ℚ) ^ n * y) ^ 2 →
        ((10 : ℚ) ^ n * y) ^ (2 ^ (k + 1)) = ((10 : ℚ) ^ n' * z) ^ (2 ^ k) := by
      intro n' z hz
      rw [hz, ← pow_mul, pow_succ, mul_comm (2 ^ k) 2]
    simp only [logDigits] at h
    split at h
    · rename_i hd
      have hy2 : 10 ≤ y ^ 2 := by
        have : ((10 * 2 ^ p : Nat) : ℚ) ≤ y ^ 2 * 2 ^ p := le_trans (by exact_mod_cast hd) hl2
        push_cast at this
        exact le_of_mul_le_mul_right this hp
      have e : (10 : ℚ) ^ (2 * n + 1) * (y ^ 2 / 10) = ((10 : ℚ) ^ n * y) ^ 2 := by
        rw [zpow_add₀ ten, zpow_one, mul_comm 2 n, zpow_mul]
        norm_cast
        field_simp
      rw [hpow _ _ e]
      refine ih _ _ _ _ (by linarith) (by nlinarith) ?_ ?_ h
      · have a : (((lo * lo / 2 ^ p) / 10 : Nat) : ℚ) ≤ ((lo * lo / 2 ^ p : Nat) : ℚ) / ((10 : Nat) : ℚ) :=
          Nat.cast_div_le
        refine a.trans ?_
        push_cast at hl2 ⊢
        linarith
      · have a : hi * hi / 2 ^ p + 1 < ((hi * hi / 2 ^ p + 1) / 10 + 1) * 10 := by omega
        have b : ((hi * hi / 2 ^ p + 1 : Nat) : ℚ) < (((hi * hi / 2 ^ p + 1) / 10 + 1 : Nat) : ℚ) * 10 := by
          exact_mod_cast a
        linarith
    · split at h
      · rename_i hd
        have hy2 : y ^ 2 < 10 := by
          have : y ^ 2 * 2 ^ p < ((10 * 2 ^ p : Nat) : ℚ) := lt_of_le_of_lt hh2 (by exact_mod_cast hd)
          push_cast at this
          exact lt_of_mul_lt_mul_right this hp.le
        have e : (10 : ℚ) ^ (2 * n) * y ^ 2 = ((10 : ℚ) ^ n * y) ^ 2 := by
          rw [mul_comm 2 n, zpow_mul]
          norm_cast
          ring
        rw [hpow _ _ e]
        exact ih _ _ _ _ (by nlinarith) hy2 hl2 hh2 h
      · cases h

/-- Where the interval tells every digit, it gives the definition's value. -/
theorem logByInterval_sound {j prec : Nat} {Q : ℚ} {m : ℤ} (hQ : 0 < Q) (h : logByInterval j Q prec = some m) :
    m = Int.log 10 (Q ^ (2 ^ j)) := by
  have ten : (0 : ℚ) < (10 : ℚ) ^ Int.log 10 Q := by positivity
  have hp : (0 : ℚ) < 2 ^ prec := by positivity
  obtain ⟨hlow, hhigh⟩ := int_log_ten_spec hQ
  have h1 : 1 ≤ Q / (10 : ℚ) ^ Int.log 10 Q := (one_le_div ten).2 hlow
  have h2 : Q / (10 : ℚ) ^ Int.log 10 Q < 10 := by
    rw [div_lt_iff₀ ten]
    rw [zpow_add₀ (by norm_num), zpow_one] at hhigh
    linarith
  have hx : (0 : ℚ) ≤ Q / (10 : ℚ) ^ Int.log 10 Q * 2 ^ prec := by positivity
  have hfl : (0 : ℤ) ≤ ⌊Q / (10 : ℚ) ^ Int.log 10 Q * 2 ^ prec⌋ := Int.floor_nonneg.2 hx
  have hcast : ((⌊Q / (10 : ℚ) ^ Int.log 10 Q * 2 ^ prec⌋.toNat : Nat) : ℚ) =
      (⌊Q / (10 : ℚ) ^ Int.log 10 Q * 2 ^ prec⌋ : ℚ) := by
    exact_mod_cast congrArg (Int.cast (R := ℚ)) (Int.toNat_of_nonneg hfl)
  have sound := logDigits_sound prec j _ _ _ m (Q / (10 : ℚ) ^ Int.log 10 Q) h1 h2
    (by rw [hcast]; exact Int.floor_le _)
    (by push_cast; rw [hcast]; exact (Int.lt_floor_add_one _).le) h
  rw [mul_div_cancel₀ _ ten.ne'] at sound
  exact (int_log_ten_eq sound.1 sound.2).symm

/-- The scaled logarithm is its definition on every positive number. -/
theorem scaledLog_eq (j : Nat) {Q : ℚ} (hQ : 0 < Q) : scaledLog j Q = Int.log 10 (Q ^ (2 ^ j)) := by
  simp only [scaledLog]
  cases h : [j + 64, 4 * j + 64, 16 * j + 64].findSome? (logByInterval j Q) with
  | none => rfl
  | some m =>
    obtain ⟨prec, _, hm⟩ := List.exists_of_findSome?_eq_some h
    exact logByInterval_sound hQ hm

/-- The scaled logarithm `h` is the floor of `2^j * log10 Q`: `10^h ≤ Q^(2^j) < 10^(h+1)`. -/
theorem scaledLog_spec (j : Nat) {Q : ℚ} (hQ : 0 < Q) :
    (10 : ℚ) ^ scaledLog j Q ≤ Q ^ (2 ^ j) ∧ Q ^ (2 ^ j) < (10 : ℚ) ^ (scaledLog j Q + 1) := by
  rw [scaledLog_eq j hQ]
  exact int_log_ten_spec (pow_pos hQ _)

end Sys2Proof
end

