-- ==== Sys2Proof/Laws/PerInstr.lean ====
section
/-! SUPPORT. The statement made of every instruction, and its proof for each: the encoder gives a word of the instruction's row of
the opcode map (30_encoding.md R74). -/

namespace Sys2Proof.Laws.EncodeMatchesTable

/-- `mask` and `match` of an instruction's row of spec/opcode_table.json (30_encoding.md R74). -/
def row : Instr → BitVec 32 × BitVec 32
  | .uq _ => (0xFFFFFC0F, 0x00000001)
  | .udq _ => (0xFFFFFC0F, 0x00000002)
  | .asmq _ _ => (0xFFFFF80F, 0x00000003)
  | .asmdq _ => (0xFFFFEFFF, 0x00000004)
  | .orq _ _ _ => (0xFFFFF00F, 0x00000005)
  | .ordq => (0xFFFFFFFF, 0x00000006)
  | .em => (0xFFFFFFFF, 0x00000007)

/-- `word AND mask = match` for the word of the encoder (30_encoding.md R74). -/
def Statement (i : Instr) : Prop := encode i &&& (row i).1 = (row i).2

end Sys2Proof.Laws.EncodeMatchesTable

theorem Sys2Proof.Laws.EncodeMatchesTable.uq (w : BitVec 6) : Statement (.uq w) := by
  unfold Statement; revert w; decide +kernel

theorem Sys2Proof.Laws.EncodeMatchesTable.udq (w : BitVec 6) : Statement (.udq w) := by
  unfold Statement; revert w; decide +kernel

theorem Sys2Proof.Laws.EncodeMatchesTable.asmq (w : BitVec 6) (sfs : Bool) : Statement (.asmq w sfs) := by
  unfold Statement; revert w sfs; decide +kernel

theorem Sys2Proof.Laws.EncodeMatchesTable.asmdq (e : Bool) : Statement (.asmdq e) := by
  unfold Statement; revert e; decide +kernel

theorem Sys2Proof.Laws.EncodeMatchesTable.orq (w : BitVec 6) (sfs ofs : Bool) : Statement (.orq w sfs ofs) := by
  unfold Statement; revert w sfs ofs; decide +kernel

theorem Sys2Proof.Laws.EncodeMatchesTable.ordq : Statement .ordq := by
  unfold Statement; decide +kernel

theorem Sys2Proof.Laws.EncodeMatchesTable.em : Statement .em := by
  unfold Statement; decide +kernel
end

