-- ==== Sys2Proof/Tests/Slice0.lean ====
section
/-! SUPPORT. The model's own tests. Expected results are the spec's (95_test_vectors.md, 30_encoding.md, 10_state.md). Each witness
shows operands that meet the hypotheses of the obligation it is named after, one for each clause. -/

namespace Sys2Proof.Tests

open Sys2Proof.Machine

-- One proof at a time: the kernel evaluations below would otherwise each hold a thread while they wait.
set_option Elab.async false

/-! ## Helpers -/

/-- A block with `FLEN = 64`, `AW = 16`, the count `n` and the memory `m`, as after reset otherwise. -/
def block (n : BitVec 32) (m : Memory) : State := { State.resetOf Config.suggested with n := n, mem := m }

/-- A block with `FLEN = 32`, `AW = 4`. -/
def block32 (n : BitVec 32) (m : Memory) : State := { State.resetOf ⟨.b32, 0⟩ with n := n, mem := m }

/-- A buffer that holds the list from index 0 on. -/
def buf {w : Nat} (xs : List (BitVec w)) : Buffer w := Buffer.writeAll [] xs

/-- A memory in which only `DATA` has been written. -/
def inData (xs : List Word) : Memory := { Memory.unwritten with data := buf xs }

/-- A list as a function of the index. -/
abbrev nth {w : Nat} (xs : List (BitVec w)) : Nat → BitVec w := fun i => xs.getD i 0

/-- The outcome is a next state with the property. -/
def nextIs (o : Host.Outcome State Fault Refusal) (p : State → Bool) : Bool :=
  match o with
  | .next t => p t
  | .fault _ => false
  | .refused _ => false

theorem next_of_nextIs {o : Host.Outcome State Fault Refusal} {p : State → Bool} (h : nextIs o p = true) :
    ∃ t, o = .next t ∧ p t = true := by
  cases o with
  | next t => exact ⟨t, rfl, h⟩
  | fault x => cases h
  | refused x => cases h

/-- The command succeeded. -/
def ok (t : State) : Bool := !statusErr t.status

theorem success_of_nextIs {o : Host.Outcome State Fault Refusal} (h : nextIs o ok = true) :
    ∃ t, o = .next t ∧ statusErr t.status = false := by
  obtain ⟨t, h1, h2⟩ := next_of_nextIs h
  exact ⟨t, h1, by simpa [ok] using h2⟩

/-- The command faulted with the `STATUS` and `FINFO` words. -/
def faulted (status : BitVec 17) (finfo : BitVec 36) (t : State) : Bool := t.status == status && t.finfo == finfo

/-! ## Well-formedness, one ill-formed term for each check -/

theorem test_wellFormed_uq : (Instr.uq 0).wellFormed = false ∧ (Instr.uq 33).wellFormed = false ∧
    (Instr.uq 1).wellFormed = true ∧ (Instr.uq 32).wellFormed = true := by decide

theorem test_wellFormed_udq : (Instr.udq 0).wellFormed = false ∧ (Instr.udq 63).wellFormed = false := by decide

theorem test_wellFormed_asmq : (Instr.asmq 0 false).wellFormed = false ∧ (Instr.asmq 33 true).wellFormed = false := by
  decide

theorem test_wellFormed_orq : (Instr.orq 0 true true).wellFormed = false ∧ (Instr.orq 33 false true).wellFormed = false := by
  decide

theorem test_stateWf_unsorted :
    (block 2 { Memory.unwritten with data := [(1, 0), (0, 0)] }).wf = false ∧
    (block 2 { Memory.unwritten with code := [(65536, 0)] }).wf = false ∧
    (block32 1 (inData [0x100000000])).wf = false ∧ ({ block 1 (inData []) with status := 0x10B0B }).wf = false ∧
    ({ block 1 (inData []) with finfo := 1 }).wf = false := by decide

/-! ## Decoding words written out from 30_encoding.md R74, bit 31 first: reserved, E, OFS, SFS, W, OP -/

theorem test_decode_uq : decode (0#32 ++ 0b0000000000000000000_0_0_0_001000_0001#32) = .ok (.uq 8) := by decide

theorem test_decode_udq : decode (0#32 ++ 0b0000000000000000000_0_0_0_100000_0010#32) = .ok (.udq 32) := by decide

theorem test_decode_asmq : decode (0#32 ++ 0b0000000000000000000_0_0_1_000001_0011#32) = .ok (.asmq 1 true) := by decide

theorem test_decode_asmdq : decode (0#32 ++ 0b0000000000000000000_1_0_0_000000_0100#32) = .ok (.asmdq true) := by decide

theorem test_decode_orq : decode (0#32 ++ 0b0000000000000000000_0_1_0_001001_0101#32) = .ok (.orq 9 false true) := by
  decide

theorem test_decode_ordq : decode (0#32 ++ 0b0000000000000000000_0_0_0_000000_0110#32) = .ok .ordq := by decide

theorem test_decode_em : decode (0#32 ++ 0b0000000000000000000_0_0_0_000000_0111#32) = .ok .em := by decide

/-- 95_test_vectors.md V11 to V19. -/
theorem test_decode_illegal :
    decode 0x0 = .error .opReserved ∧ decode 0x9 = .error .opReserved ∧ decode 0x2083 = .error .fieldReserved ∧
    decode 0x200F = .error .fieldReserved ∧ decode 0x100000081 = .error .fieldReserved ∧
    decode 0x481 = .error .fieldReserved ∧ decode 0x883 = .error .fieldReserved ∧
    decode 0x1006 = .error .fieldReserved ∧ decode 0x1 = .error .wRange ∧ decode 0x211 = .error .wRange ∧
    decode 0x14 = .error .wRange ∧ decode 0x87 = .error .wRange := by decide

theorem test_decodeTableWord : decodeTableWord 32 0x00000C85 = some (.orq 8 true true) ∧
    decodeTableWord 32 0x00000080 = none := by decide

/-- 95_test_vectors.md V32: the first command after reset faults with `N_RANGE`. -/
theorem test_firstCommand : nextIs (step (State.reset.withFetchWord 32 0x81)) (faulted 0x10107 0) = true := by
  decide +kernel

/-! ## One step of each command -/

/-- 95_test_vectors.md V20. -/
theorem test_uq_ties :
    nextIs (exec (.uq 2) (block 5 (inData [0, 0x4008000000000000, 0x3FF8000000000000, 0x4004000000000000,
      0x3FE0000000000000]))) (fun t => t.mem.code == buf [0, 3, 2, 2, 0] && t.scale == 0x3FF0000000000000 &&
        t.min == 0 && t.max == 0x4008000000000000 && t.status == 0x1) = true := by decide +kernel

/-- 95_test_vectors.md V24: the `-0.0` maximum is written as `+0.0`. -/
theorem test_uq_negativeZero :
    nextIs (exec (.uq 8) (block 2 (inData [0x8000000000000000, 0xBFF0000000000000])))
      (fun t => t.mem.code == buf [255, 0] && t.scale == 0x406FE00000000000 && t.min == 0xBFF0000000000000 &&
        t.max == 0) = true := by decide +kernel

/-- 95_test_vectors.md V29: a decreasing map. -/
theorem test_udq_decreasing :
    nextIs (exec (.udq 2) { block 3 { Memory.unwritten with code := buf [0, 1, 3] } with
        scale := 0xC000000000000000, min := 0x4018000000000000, max := 0 })
      (fun t => t.mem.recon == buf [0x4018000000000000, 0x4010000000000000, 0]) = true := by decide +kernel

/-- 95_test_vectors.md V28. -/
theorem test_udq_codeRange :
    nextIs (exec (.udq 8) { block 3 { Memory.unwritten with code := buf [0, 256, 300] } with
        scale := 0x3FF0000000000000, min := 0, max := 0x406FE00000000000 })
      (faulted 0x10C0B 0x400000001) = true := by decide +kernel

/-- 95_test_vectors.md V44: a tie, and all three signs. -/
theorem test_asmq_tie :
    nextIs (exec (.asmq 8 true) { block 3 (inData [0xC002000000000000, 0, 0x400C000000000000]) with
        sf := 0x4024000000000000 })
      (fun t => t.mem.sign == buf [3, 0, 1] && t.mem.ipart == buf [2, 0, 3] && t.mem.dpart == buf [2, 0, 5] &&
        t.sf == 0x4024000000000000) = true := by decide +kernel

/-- 95_test_vectors.md V43: the factor is inferred from the stored value. -/
theorem test_asmq_inferred :
    nextIs (exec (.asmq 8 false) (block 2 (inData [0x3EB0C6F7A0B5ED8D, 0x3FE0000000000000])))
      (fun t => t.sf == 0x416312D000000000 && t.mem.dpart == buf [10, 5000000]) = true := by decide +kernel

/-- 95_test_vectors.md V44: the error array. -/
theorem test_asmdq_error :
    nextIs (exec (.asmdq true) { block 3 { inData [0xC002000000000000, 0, 0x400C000000000000] with
        sign := buf [3, 0, 1], ipart := buf [2, 0, 3], dpart := buf [2, 0, 5] } with sf := 0x4024000000000000 })
      (fun t => t.mem.recon == buf [0xC00199999999999A, 0, 0x400C000000000000] &&
        t.mem.err == buf [0xBFA9999999999980, 0, 0]) = true := by decide +kernel

/-- 95_test_vectors.md V55: a record the host made. -/
theorem test_asmdq_hostMade :
    nextIs (exec (.asmdq false) { block 3 { Memory.unwritten with
        sign := buf [1, 3, 0], ipart := buf [300, 7, 9], dpart := buf [0xFFFFFFFFFFFFFFFB, 150, 77] } with
        sf := 0x4059000000000000 })
      (fun t => t.mem.recon == buf [0x4072BF3333333333, 0xC021000000000000, 0] && t.mem.err == []) = true := by
  decide +kernel

/-- 95_test_vectors.md V57. -/
theorem test_orq_supplied :
    nextIs (exec (.orq 8 true true) { block 4 (inData [0x4059100000000000, 0x4059600000000000, 0xC059B00000000000,
        0x4059C00000000000]) with sf := 0x4059000000000000, offset := 0x4059400000000000 })
      (fun t => t.mem.sign == buf [1, 1, 3, 1] && t.mem.iopart == buf [0xFF, 0, 1, 2] &&
        t.mem.dopart == buf [25, 50, 75, 0] && t.mem.ipart == []) = true := by decide +kernel

/-- 95_test_vectors.md V58: a half-integer median. -/
theorem test_orq_halfMedian :
    nextIs (exec (.orq 8 true false) { block 4 (inData [0x4059100000000000, 0x4059600000000000, 0xC059B00000000000,
        0x4059C00000000000]) with sf := 0x4059000000000000 }) (faulted 0x1090B 0x100000000) = true := by decide +kernel

/-- 95_test_vectors.md V70. -/
theorem test_ordq_hostMade :
    nextIs (exec .ordq { block 3 { Memory.unwritten with
        sign := buf [1, 3, 0], iopart := buf [0x80, 0x7F, 5], dopart := buf [50, 0xFFFFFFFFFFFFFFCE, 1] } with
        sf := 0x4059000000000000, offset := 0x3FE0000000000000 })
      (fun t => t.mem.recon == buf [0xC05FC00000000000, 0xC05FC00000000000, 0]) = true := by decide +kernel

/-- 95_test_vectors.md V71: the overflow. -/
theorem test_ordq_overflow :
    nextIs (exec .ordq { block 1 { Memory.unwritten with
        sign := buf [1], iopart := buf [127], dopart := buf [0x4000000000000000] } with sf := 1 })
      (faulted 0x10E0B 0x200000000) = true := by decide +kernel

/-- 95_test_vectors.md V39: a value that needs the logarithm. -/
theorem test_em_logarithm :
    nextIs (exec .em (block 3 { inData [0x4008000000000000, 0xC010000000000000, 0x3FE0000000000000] with
        recon := buf [0x4004000000000000, 0xC010000000000000, 0x3FF0000000000000] }))
      (fun t => t.mse == 0x3FC5555555555555 && t.psnr == 0x4033D29D467910BF) = true := by decide +kernel

/-- 95_test_vectors.md V40: `MSE` underflows and `PSNR` follows the exact value. -/
theorem test_em_underflow :
    nextIs (exec .em (block 1 { inData [0x1A70000000000000] with recon := buf [0] }))
      (fun t => t.mse == 0 && t.psnr == 0) = true := by decide +kernel

/-! ## States the witnesses share -/

/-- `DATA = [0.001, 0.01, 0.1]` (95_test_vectors.md V2). -/
def scenarioB : State := block 3 (inData [0x3F50624DD2F1A9FC, 0x3F847AE147AE147B, 0x3FB999999999999A])

/-- `DATA = [1.0, 256.0]` with `SF = 100.0` (95_test_vectors.md V3). -/
def boundary : State := { block 2 (inData [0x3FF0000000000000, 0x4070000000000000]) with sf := 0x4059000000000000 }

/-- `DATA = [100.25, 101.5, -102.75]` with `SF = 100.0` and `OFFSET = 101.0` (95_test_vectors.md V57, V59). -/
def offsets : State :=
  { block 3 (inData [0x4059100000000000, 0x4059600000000000, 0xC059B00000000000]) with
    sf := 0x4059000000000000, offset := 0x4059400000000000 }

/-- A record with every dequantizer's buffers, `DATA` and `RECON`, at two indexes. -/
def record : State :=
  { block 2 { data := buf [0x3FF0000000000000, 0], recon := buf [0x3FF0000000000000, 0x3FF0000000000000], err := [],
              code := buf [0, 255], sign := buf [1, 3], ipart := buf [2, 300], dpart := buf [5, 0xFFFFFFFFFFFFFFFF],
              iopart := buf [0x80, 0x7F], dopart := buf [50, 0] } with
    sf := 0x4024000000000000, offset := 0x3FE0000000000000, scale := 0x3FF0000000000000, max := 0x406FE00000000000 }

/-- `DATA = [0.5]` with a factor of `2^64` (95_test_vectors.md V53). -/
def wideFactor : State := { block 1 (inData [0x3FE0000000000000]) with sf := 0x43F0000000000000 }

/-- `DATA = [2.0, NaN]`, after `[1.0, 2.0]` in `RECON` at the same indexes. -/
def nonfinite : State :=
  { block 2 { inData [0x4000000000000000, 0x7FF8000000000000] with sign := buf [1, 3] } with sf := 0x3FF0000000000000 }

/-! ## Witnesses -/

theorem witness_EncodedCommandsDecode :
    (Instr.orq 32 true true).wellFormed = true ∧ (Instr.uq 1).wellFormed = true ∧ (Instr.asmdq true).wellFormed = true := by
  decide

theorem witness_IllegalWordCauses :
    (0x100000081 : Word).extractLsb' 32 32 ≠ 0 ∧ (0x2083 : Word).extractLsb' 13 19 ≠ 0 ∧
    ((0x8 : Word).extractLsb' 0 4).toNat = 8 ∧ (0x481 : Word).getLsbD 10 = true ∧
    ((0x211 : Word).extractLsb' 4 6).toNat = 33 ∧ ((0x14 : Word).extractLsb' 4 6).toNat = 1 := by decide

theorem witness_StepKeepsWellFormed :
    (record.wf = true ∧ ∃ t, step { record with pending := [.write 0x10000 7] } = .next t ∧ t.mem ≠ record.mem) ∧
    ({ record with pending := [.write 0 0x1004] } : State).wf = true ∧
    ∃ t, step { record with pending := [.write 0 0x1004] } = .next t ∧ statusErr t.status = false := by
  refine ⟨⟨by decide, ?_⟩, by decide, success_of_nextIs (by decide +kernel)⟩
  obtain ⟨t, h, hp⟩ := next_of_nextIs (o := step { record with pending := [.write 0x10000 7] })
    (p := fun t => t.mem != record.mem) (by decide +kernel)
  exact ⟨t, h, by simpa using hp⟩

/-- Every command, from a state in which its elements are written: the hypotheses of CommandsLeaveTheirInputs,
ConfigurationNeverChanges, FloatOutputsAreDelivered, CommandsTerminate and of each success clause. -/
theorem witness_success :
    (∃ t, exec (.uq 8) record = .next t ∧ statusErr t.status = false) ∧
    (∃ t, exec (.udq 8) record = .next t ∧ statusErr t.status = false) ∧
    (∃ t, exec (.asmq 8 true) record = .next t ∧ statusErr t.status = false) ∧
    (∃ t, exec (.asmq 8 false) record = .next t ∧ statusErr t.status = false) ∧
    (∃ t, exec (.asmdq false) record = .next t ∧ statusErr t.status = false) ∧
    (∃ t, exec (.asmdq true) record = .next t ∧ statusErr t.status = false) ∧
    (∃ t, exec (.orq 8 true true) offsets = .next t ∧ statusErr t.status = false) ∧
    (∃ t, exec (.orq 8 false false) offsets = .next t ∧ statusErr t.status = false) ∧
    (∃ t, exec .ordq record = .next t ∧ statusErr t.status = false) ∧
    ∃ t, exec .em record = .next t ∧ statusErr t.status = false := by
  refine ⟨?_, ?_, ?_, ?_, ?_, ?_, ?_, ?_, ?_, ?_⟩ <;> exact success_of_nextIs (by decide +kernel)

theorem witness_CommandsTerminate :
    OperandsWritten (.uq 8) record ∧ OperandsWritten (.udq 8) record ∧ OperandsWritten (.asmq 8 false) record ∧
    OperandsWritten (.asmdq true) record ∧ OperandsWritten (.orq 8 true true) record ∧ OperandsWritten .ordq record ∧
    OperandsWritten .em record := by
  simp only [OperandsWritten]; decide

/-- A success, a fault and an illegal word. -/
theorem witness_FaultsArePreciseAndSuccessesReported :
    (∃ t, step { record with pending := [.write 0 0x7] } = .next t ∧ statusErr t.status = false) ∧
    (∃ t, step { boundary with pending := [.write 0 0x483] } = .next t ∧ statusErr t.status = true) ∧
    ∃ t, step { boundary with pending := [.write 0 0x9] } = .next t ∧ statusErr t.status = true :=
  ⟨success_of_nextIs (by decide +kernel), next_of_nextIs (p := fun t => statusErr t.status) (by decide +kernel),
    next_of_nextIs (p := fun t => statusErr t.status) (by decide +kernel)⟩

/-- The hypotheses of CausesOfEachCommand. -/
theorem witness_fault : ∃ t, exec (.asmq 8 true) boundary = .next t ∧ statusErr t.status = true :=
  next_of_nextIs (p := fun t => statusErr t.status) (by decide +kernel)

theorem witness_OnlyResetClearsSticky :
    let s : State := { record with status := 0x10107, pending := [.write 0 0x7] }
    s.status.getLsbD 16 = true ∧ s.pending.head? ≠ some .reset ∧
      ∃ t, step s = .next t ∧ statusErr t.status = false := by
  exact ⟨by decide, by decide, success_of_nextIs (by decide +kernel)⟩

theorem witness_OnlyUnwrittenElementsStop :
    exec (.uq 8) (block 2 (inData [0x3FF0000000000000])) = .fault (.unwrittenElement .data 1) ∧
    1 < (block 2 (inData [0x3FF0000000000000])).cfg.nmax ∧
    readElement (block 2 (inData [0x3FF0000000000000])).mem .data 1 = none := by
  refine ⟨?_, by decide, by decide⟩
  have h : (match exec (.uq 8) (block 2 (inData [0x3FF0000000000000])) with
    | .fault x => x == .unwrittenElement .data 1 | _ => false) = true := by decide +kernel
  revert h
  cases exec (.uq 8) (block 2 (inData [0x3FF0000000000000])) <;> simp

/-- Two states that differ in `STATUS`, `FINFO`, `CMD` and an element at index `N`. -/
theorem witness_CommandsArePure :
    SameOperands (.uq 8) (block 1 (inData [7])) { block 1 (inData [7, 9]) with status := 0x10107, finfo := 4, cmd := 1 } ∧
    SameOperands (.orq 8 true true) offsets { offsets with status := 0x10107, scale := 1 } := by
  simp only [SameOperands]; decide

theorem witness_HostReadsElements :
    1 < record.cfg.nmax ∧ Buffer.read? record.mem.data 1 = some 0 ∧
    Buffer.read? record.mem.recon 1 = some 0x3FF0000000000000 ∧ Buffer.read? record.mem.code 1 = some 255 ∧
    Buffer.read? record.mem.sign 1 = some 3 ∧ Buffer.read? record.mem.ipart 1 = some 300 ∧
    Buffer.read? record.mem.dpart 1 = some 0xFFFFFFFFFFFFFFFF ∧ Buffer.read? record.mem.iopart 1 = some 0x7F ∧
    Buffer.read? record.mem.dopart 1 = some 0 ∧
    Buffer.read? ({ record.mem with err := buf [1, 2] } : Memory).err 1 = some 2 := by decide

theorem witness_HostWritesElements : 0 < record.cfg.nmax ∧ 65535 < record.cfg.nmax := by decide

theorem witness_PortErrorsChangeNothing :
    (0x0B ≤ 0x0B ∧ 0x0B < record.cfg.nmax) ∧ (0x0B ≤ 65535 ∧ 65535 < record.cfg.nmax) ∧
    10 * record.cfg.nmax ≤ 655360 := by decide

theorem witness_IdleBlockHoldsItsState : State.reset.pending = [] := rfl

theorem witness_StepRunsTheDecodedCommand : decode 0x81 = .ok (.uq 8) ∧ decode 0x7 = .ok .em := by decide

theorem witness_IllegalCommandsFault :
    decode 0x9 = .error .opReserved ∧ decode 0x2083 = .error .fieldReserved ∧ decode 0x211 = .error .wRange := by decide

theorem witness_FlFixesFinitePatterns :
    (fitsFlen .b64 0x8000000000000000 = true ∧ FloatWidth.b64.isFinite 0x8000000000000000 = true) ∧
    (fitsFlen .b64 0x7FEFFFFFFFFFFFFF = true ∧ FloatWidth.b64.isFinite 0x7FEFFFFFFFFFFFFF = true) ∧
    fitsFlen .b32 0x00000001 = true ∧ FloatWidth.b32.isFinite 0x00000001 = true := by decide +kernel

/-- `1 + 2^-53` lies half-way between 1 and the next pattern. -/
theorem witness_FlIsNearestTiesToEven :
    FloatWidth.b64.fl (1 + (2 : ℚ) ^ (-53 : ℤ)) = some 0x3FF0000000000000 ∧
    FloatWidth.b64.isFinite 0x3FF0000000000001 = true ∧
    FloatWidth.b64.val 0x3FF0000000000001 ≠ FloatWidth.b64.val 0x3FF0000000000000 ∧
    |FloatWidth.b64.val 0x3FF0000000000001 - (1 + (2 : ℚ) ^ (-53 : ℤ))| =
      |FloatWidth.b64.val 0x3FF0000000000000 - (1 + (2 : ℚ) ^ (-53 : ℤ))| ∧
    FloatWidth.b64.fl ((2 : ℚ) ^ (-1075 : ℤ)) = some 0 ∧ FloatWidth.b64.val 0 = 0 := by decide +kernel

theorem witness_FlErrorBoundAndMonotone :
    (FloatWidth.b64.fl (1 / 3) = some 0x3FD5555555555555 ∧ FloatWidth.b64.fl 3 = some 0x4008000000000000 ∧
      (2 : ℚ) ^ FloatWidth.b64.emin ≤ |1 / 3| ∧ (1 / 3 : ℚ) ≤ 3) ∧
    FloatWidth.b32.fl ((2 : ℚ) ^ (-149 : ℤ)) = some 1 ∧
    |(2 : ℚ) ^ (-149 : ℤ)| < (2 : ℚ) ^ FloatWidth.b32.emin := by decide +kernel

theorem witness_MedianOfSortedIntegers :
    ([3, 1, 2] : List ℤ) ≠ [] ∧ ([1, 2, 3] : List ℤ).Perm [3, 1, 2] ∧ ([1, 2, 3] : List ℤ).Pairwise (· ≤ ·) ∧
    ([103, 100] : List ℤ) ≠ [] ∧ ([100, 103] : List ℤ).Perm [103, 100] ∧ ([100, 103] : List ℤ).Pairwise (· ≤ ·) := by
  decide

theorem witness_KexpIsTheLeastExponent :
    ((0 : ℚ) < 1 / 10 ∧ 1 ≤ (10 : ℚ) ^ (1 : ℤ) * (1 / 10) ∧ (1 / 10 : ℚ) < 1) ∧ (0 : ℚ) < 10 ∧ (10 : ℚ) ≤ 10 := by
  decide +kernel

theorem witness_CountOutOfRangeFaults :
    State.reset.n.toNat = 0 ∧ (block 65537 Memory.unwritten).cfg.nmax < (block 65537 Memory.unwritten).n.toNat := by decide

theorem witness_NonfiniteElementsReported :
    let x := nth [0x4000000000000000, 0x7FF8000000000000]
    (CountLegal nonfinite ∧ 1 < nonfinite.n.toNat ∧ AllFinite nonfinite.cfg.flen 1 x ∧
      nonfinite.cfg.flen.isFinite (x 1) = false) ∧
    (readsSamples .em = true ∧ Holds nonfinite.mem.data 2 x) ∧
    (SfLegal nonfinite ∧ Holds nonfinite.mem.sign nonfinite.n.toNat (nth [1, 3]) ∧
      ∀ j < nonfinite.n.toNat, nth [1#2, 3#2] j ≠ 0b10#2) := by decide +kernel

/-- The clause of `EM` on `RECON` (95_test_vectors.md V42). -/
theorem witness_NonfiniteElementsReported_recon :
    let s := block 2 { inData [0x3FF0000000000000, 0x4000000000000000] with recon := buf [0x7FF8000000000000, 0] }
    let x := nth [0x7FF8000000000000]
    let y := nth [0x3FF0000000000000, 0x4000000000000000]
    CountLegal s ∧ 0 < s.n.toNat ∧ AllFinite s.cfg.flen 0 x ∧ s.cfg.flen.isFinite (x 0) = false ∧
      Holds s.mem.data s.n.toNat y ∧ AllFinite s.cfg.flen s.n.toNat y ∧ Holds s.mem.recon 1 x := by decide +kernel

/-- 95_test_vectors.md V51: `SF` a NaN, then `-10.0`, then `+0.0`. -/
theorem witness_ScalingFactorChecks :
    let s := block 1 (inData [0x3FF0000000000000])
    let x := nth [0x3FF0000000000000]
    (CountLegal s ∧ Samples s x ∧ s.cfg.flen.isFinite 0x7FF8000000000000 = false) ∧
    (s.cfg.flen.isFinite 0xC024000000000000 = true ∧ s.cfg.flen.val 0xC024000000000000 ≤ 0) ∧
    s.cfg.flen.isFinite s.sf = true ∧ s.cfg.flen.val s.sf ≤ 0 := by decide +kernel

theorem witness_OffsetOperandCheck :
    let s : State := { offsets with offset := 0x7FF0000000000000 }
    CountLegal s ∧ s.cfg.flen.isFinite s.offset = false ∧ SfLegal s ∧
      Samples s (nth [0x4059100000000000, 0x4059600000000000, 0xC059B00000000000]) := by decide +kernel

/-- 95_test_vectors.md V26, V52, V41. -/
theorem witness_ScalarOutputOverflow :
    let s := block 2 (inData [0, 1])
    let x := nth [0, 1]
    let m := s.cfg.flen.val 1
    Samples s x ∧ LeastOf s.n.toNat (fun i => s.cfg.flen.val (x i)) 0 ∧
    GreatestOf s.n.toNat (fun i => s.cfg.flen.val (x i)) m ∧ 0 ≠ m ∧
    s.cfg.flen.fl ((2 ^ (8 : BitVec 6).toNat - 1) / (m - 0)) = none ∧
    LeastNonzero s.n.toNat (mags s.cfg.flen x) m ∧ s.cfg.flen.fl ((10 : ℚ) ^ kexp m) = none ∧ OffsetLegal true s := by
  decide +kernel

theorem witness_ScalarOutputOverflow_mse :
    let s := block 1 { inData [0x7FEFFFFFFFFFFFFF] with recon := buf [0xFFEFFFFFFFFFFFFF] }
    let x := nth [0x7FEFFFFFFFFFFFFF]
    let y := nth [0xFFEFFFFFFFFFFFFF]
    Samples s x ∧ Holds s.mem.recon s.n.toNat y ∧ AllFinite s.cfg.flen s.n.toNat y ∧
      s.cfg.flen.fl ((∑ i ∈ Finset.range s.n.toNat, (s.cfg.flen.val (x i) - s.cfg.flen.val (y i)) ^ 2) / s.n.toNat) =
        none := by decide +kernel

/-- 95_test_vectors.md V20, and a constant array. -/
theorem witness_UqQuantizes :
    let s := block 3 (inData [0, 0x4008000000000000, 0x3FF8000000000000])
    let x := nth [0, 0x4008000000000000, 0x3FF8000000000000]
    let c := block 1 (inData [0x8000000000000000])
    let z := nth [0x8000000000000000]
    (legalWidth 2 = true ∧ Samples s x ∧ LeastOf s.n.toNat (fun i => s.cfg.flen.val (x i)) 0 ∧
      GreatestOf s.n.toNat (fun i => s.cfg.flen.val (x i)) 3 ∧
      s.cfg.flen.fl (if (3 : ℚ) = 0 then 0 else (2 ^ (2 : BitVec 6).toNat - 1) / (3 - 0)) = some 0x3FF0000000000000) ∧
    (legalWidth 32 = true ∧ Samples c z ∧ LeastOf c.n.toNat (fun i => c.cfg.flen.val (z i)) 0 ∧
      GreatestOf c.n.toNat (fun i => c.cfg.flen.val (z i)) 0 ∧
      c.cfg.flen.fl (if (0 : ℚ) = 0 then 0 else (2 ^ (32 : BitVec 6).toNat - 1) / (0 - 0)) = some 0) := by
  decide +kernel

theorem witness_UdqDequantizes :
    legalWidth 8 = true ∧ CountLegal record ∧ record.cfg.flen.isFinite record.scale = true ∧
    record.cfg.flen.isFinite record.min = true ∧ record.cfg.flen.isFinite record.max = true ∧
    Holds record.mem.code record.n.toNat (nth [0, 255]) ∧
    ∀ i < record.n.toNat, (nth [0#32, 255#32] i).toNat ≤ 2 ^ (8 : BitVec 6).toNat - 1 := by decide +kernel

theorem witness_UdqOperandChecks :
    let fin := record.cfg.flen.isFinite
    CountLegal record ∧ fin 0x7FF0000000000000 = false ∧
    (fin record.scale = true ∧ fin record.min = true ∧ fin record.max = true ∧ 1 < record.n.toNat ∧
      Holds record.mem.code 2 (nth [0, 255]) ∧ (∀ j < 1, (nth [0#32, 255#32] j).toNat ≤ 2 ^ (7 : BitVec 6).toNat - 1) ∧
      2 ^ (7 : BitVec 6).toNat - 1 < (nth [0#32, 255#32] 1).toNat) := by decide +kernel

theorem witness_UniformRoundTrip :
    let s := block 3 (inData [0, 0x4008000000000000, 0x3FF8000000000000])
    let x := nth [0, 0x4008000000000000, 0x3FF8000000000000]
    (legalWidth 2 = true ∧ Samples s x ∧ LeastOf s.n.toNat (fun i => s.cfg.flen.val (x i)) 0 ∧
      GreatestOf s.n.toNat (fun i => s.cfg.flen.val (x i)) 3) ∧
    ∃ t, exec (.uq 2) s = .next t ∧ statusErr t.status = false :=
  ⟨by decide +kernel, success_of_nextIs (by decide +kernel)⟩

/-- The factor inferred (95_test_vectors.md V2). -/
theorem witness_AsmqQuantizes :
    let s := scenarioB
    let x := nth [0x3F50624DD2F1A9FC, 0x3F847AE147AE147B, 0x3FB999999999999A]
    let a := mags s.cfg.flen x
    legalWidth 8 = true ∧ Samples s x ∧ FactorIs false s x 0x408F400000000000 ∧
    (∀ i < s.n.toNat, a i < 2 ^ (8 : BitVec 6).toNat) ∧
    ∀ i < s.n.toNat, rnd ((a i - ⌊a i⌋) * s.cfg.flen.val 0x408F400000000000) ≤ 2 ^ 63 - 1 := by
  refine ⟨by decide, by decide +kernel, ?_, by decide +kernel, by decide +kernel⟩
  exact ⟨FloatWidth.b64.val 0x3F50624DD2F1A9FC, by decide +kernel, by decide +kernel⟩

theorem witness_AllZeroSamplesFault :
    let s := block 2 (inData [0, 0x8000000000000000])
    let x := nth [0, 0x8000000000000000]
    Samples s x ∧ (∀ i < s.n.toNat, s.cfg.flen.val (x i) = 0) ∧ OffsetLegal true s := by decide +kernel

/-- The factor supplied; `256.0` is the boundary of 8 bits. -/
theorem witness_IntegerPartOverflow :
    let x := nth [0x3FF0000000000000, 0x4070000000000000]
    Samples boundary x ∧ FactorIs true boundary x 0x4059000000000000 ∧ 1 < boundary.n.toNat ∧
    (∀ j < 1, mags boundary.cfg.flen x j < 2 ^ (8 : BitVec 6).toNat) ∧
    2 ^ (8 : BitVec 6).toNat ≤ mags boundary.cfg.flen x 1 ∧ OffsetLegal true boundary :=
  ⟨by decide +kernel, ⟨by decide +kernel, rfl⟩, by decide, by decide +kernel, by decide +kernel, by decide +kernel⟩

/-- `0.5 * 2^64` is `2^63`, one more than fits. -/
theorem witness_DecimalPartOverflow :
    let s := wideFactor
    let x := nth [0x3FE0000000000000]
    let a := mags s.cfg.flen x
    Samples s x ∧ FactorIs true s x 0x43F0000000000000 ∧ 0 < s.n.toNat ∧
    (∀ i < s.n.toNat, a i < 2 ^ (8 : BitVec 6).toNat) ∧
    2 ^ 63 - 1 < rnd ((a 0 - ⌊a 0⌋) * s.cfg.flen.val 0x43F0000000000000) ∧
    OffsetIs true s x 0 ∧ OffsetIs false s x 0 ∧ ∀ i < s.n.toNat, OffsetFits (s.cfg.flen.val 0) (a i) := by
  refine ⟨by decide +kernel, ⟨by decide +kernel, rfl⟩, by decide, by decide +kernel, by decide +kernel,
    ⟨by decide +kernel, rfl⟩, ?_, by decide +kernel⟩
  show FloatWidth.fl _ _ = _
  decide +kernel

theorem witness_AsmdqReconstructs :
    let s := { record with mem := { record.mem with ipart := buf [2, 300], dpart := buf [5, 0] } }
    let g := nth [1#2, 3#2]
    let ip := nth [2#32, 300#32]
    let dp := nth [5#64, 0#64]
    let x := nth [0x3FF0000000000000#64, 0#64]
    let r := nth [0x4004000000000000#64, 0xC072C00000000000#64]
    CountLegal s ∧ SfLegal s ∧ Holds s.mem.sign s.n.toNat g ∧ Holds s.mem.ipart s.n.toNat ip ∧
    Holds s.mem.dpart s.n.toNat dp ∧ (∀ i < s.n.toNat, g i ≠ 0b10#2) ∧
    (∀ i < s.n.toNat,
      s.cfg.flen.fl ((g i).toInt * ((ip i).toNat + (dp i).toInt / s.cfg.flen.val s.sf)) = some (r i)) ∧
    Holds s.mem.data s.n.toNat x ∧ AllFinite s.cfg.flen s.n.toNat x ∧
    ∀ i < s.n.toNat, s.cfg.flen.fl (s.cfg.flen.val (x i) - s.cfg.flen.val (r i)) =
      some (nth [0xBFF8000000000000, 0x4072C00000000000] i) := by decide +kernel

/-- 95_test_vectors.md V54, V69. -/
theorem witness_ReservedSignReported :
    let s : State := { record with mem := { record.mem with sign := buf [1, 2] } }
    CountLegal s ∧ SfLegal s ∧ 1 < s.n.toNat ∧ Holds s.mem.sign 2 (nth [1, 2]) ∧
    (∀ j < 1, nth [1#2, 2#2] j ≠ 0b10#2) ∧ nth [1#2, 2#2] 1 = 0b10#2 ∧ s.cfg.flen.isFinite s.offset = true := by
  decide +kernel

/-- `RECON` overflows (95_test_vectors.md V56, V71). -/
theorem witness_ReconstructionOverflow_recon :
    let s : State := { block 1 { inData [0] with
        sign := buf [1], ipart := buf [0], dpart := buf [0x4000000000000000], iopart := buf [127],
        dopart := buf [0x4000000000000000] } with sf := 1 }
    let dp := 0x4000000000000000#64
    CountLegal s ∧ SfLegal s ∧ 0 < s.n.toNat ∧ Holds s.mem.sign s.n.toNat (nth [1]) ∧
    (∀ i < s.n.toNat, nth [1#2] i ≠ 0b10#2) ∧ Holds s.mem.ipart s.n.toNat (nth [0]) ∧
    Holds s.mem.dpart s.n.toNat (nth [dp]) ∧
    s.cfg.flen.fl ((1#2).toInt * ((0#32).toNat + dp.toInt / s.cfg.flen.val s.sf)) = none ∧
    Holds s.mem.data s.n.toNat (nth [0]) ∧ AllFinite s.cfg.flen s.n.toNat (nth [0]) ∧
    s.cfg.flen.isFinite s.offset = true ∧ Holds s.mem.iopart s.n.toNat (nth [127]) ∧
    Holds s.mem.dopart s.n.toNat (nth [dp]) ∧
    s.cfg.flen.fl ((1#2).toInt * ((127#8).toInt + s.cfg.flen.val s.offset + dp.toInt / s.cfg.flen.val s.sf)) = none := by
  decide +kernel

/-- `ERR` overflows where `RECON` does not (95_test_vectors.md V56). -/
theorem witness_ReconstructionOverflow_err :
    let s : State := { block 1 { inData [0x7FEFFFFFFFFFFFFF] with
        sign := buf [3], ipart := buf [0xFFFFFFFF], dpart := buf [0x7FFFFFFFFFFFFFFF] } with sf := 0x03F0000000000000 }
    let dp := 0x7FFFFFFFFFFFFFFF#64
    CountLegal s ∧ SfLegal s ∧ 0 < s.n.toNat ∧ Holds s.mem.sign s.n.toNat (nth [3]) ∧
    (∀ i < s.n.toNat, nth [3#2] i ≠ 0b10#2) ∧ Holds s.mem.ipart s.n.toNat (nth [0xFFFFFFFF]) ∧
    Holds s.mem.dpart s.n.toNat (nth [dp]) ∧ Holds s.mem.data s.n.toNat (nth [0x7FEFFFFFFFFFFFFF]) ∧
    AllFinite s.cfg.flen s.n.toNat (nth [0x7FEFFFFFFFFFFFFF]) ∧
    s.cfg.flen.fl ((3#2).toInt * ((0xFFFFFFFF#32).toNat + dp.toInt / s.cfg.flen.val s.sf)) =
      some 0xFFE0000000000000 ∧
    s.cfg.flen.fl (s.cfg.flen.val 0x7FEFFFFFFFFFFFFF - s.cfg.flen.val 0xFFE0000000000000) = none := by decide +kernel

theorem witness_AdaptiveRoundTrip :
    legalWidth 8 = true ∧ Samples scenarioB (nth [0x3F50624DD2F1A9FC, 0x3F847AE147AE147B, 0x3FB999999999999A]) ∧
    ∃ t, exec (.asmq 8 false) scenarioB = .next t ∧ statusErr t.status = false :=
  ⟨by decide, by decide +kernel, success_of_nextIs (by decide +kernel)⟩

/-- Both scalars supplied, then the offset inferred (95_test_vectors.md V57, V59). -/
theorem witness_OrqQuantizes :
    let s := offsets
    let x := nth [0x4059100000000000, 0x4059600000000000, 0xC059B00000000000]
    let a := mags s.cfg.flen x
    let ofb := 0x4059400000000000#64
    legalWidth 8 = true ∧ Samples s x ∧ FactorIs true s x 0x4059000000000000 ∧ OffsetIs true s x ofb ∧
    OffsetIs false s x ofb ∧ (∀ i < s.n.toNat, a i < 2 ^ (8 : BitVec 6).toNat) ∧
    (∀ i < s.n.toNat, OffsetFits (s.cfg.flen.val ofb) (a i)) ∧
    ∀ i < s.n.toNat, rnd ((a i - ⌊a i⌋) * s.cfg.flen.val 0x4059000000000000) ≤ 2 ^ 63 - 1 := by
  refine ⟨by decide, by decide +kernel, ⟨by decide +kernel, rfl⟩, ⟨by decide +kernel, rfl⟩, ?_, by decide +kernel,
    by decide +kernel, by decide +kernel⟩
  show FloatWidth.fl _ _ = _
  decide +kernel

/-- The ends of the 8-bit range: with `OFFSET = 127.0` the difference of `255.5` is 128 (95_test_vectors.md V64). -/
theorem witness_OffsetOutOfRange :
    let s : State := { block 2 (inData [0x3FE0000000000000, 0x406FF00000000000]) with
      sf := 0x4000000000000000, offset := 0x405FC00000000000 }
    let x := nth [0x3FE0000000000000, 0x406FF00000000000]
    let a := mags s.cfg.flen x
    Samples s x ∧ FactorIs true s x 0x4000000000000000 ∧ OffsetIs true s x 0x405FC00000000000 ∧
    (∀ i < s.n.toNat, a i < 2 ^ (8 : BitVec 6).toNat) ∧ 1 < s.n.toNat ∧
    (∀ j < 1, OffsetFits (s.cfg.flen.val 0x405FC00000000000) (a j)) ∧
    ¬ OffsetFits (s.cfg.flen.val 0x405FC00000000000) (a 1) :=
  ⟨by decide +kernel, ⟨by decide +kernel, rfl⟩, ⟨by decide +kernel, rfl⟩, by decide +kernel, by decide,
    by decide +kernel, by decide +kernel⟩

theorem witness_OrdqReconstructs :
    let s : State := { record with mem := { record.mem with dopart := buf [50, 0] } }
    let g := nth [1#2, 3#2]
    let iop := nth [0x80#8, 0x7F#8]
    let dop := nth [50#64, 0#64]
    CountLegal s ∧ SfLegal s ∧ s.cfg.flen.isFinite s.offset = true ∧ Holds s.mem.sign s.n.toNat g ∧
    Holds s.mem.iopart s.n.toNat iop ∧ Holds s.mem.dopart s.n.toNat dop ∧ (∀ i < s.n.toNat, g i ≠ 0b10#2) ∧
    ∀ i < s.n.toNat, s.cfg.flen.fl
      ((g i).toInt * ((iop i).toInt + s.cfg.flen.val s.offset + (dop i).toInt / s.cfg.flen.val s.sf)) =
        some (nth [0xC05EA00000000000, 0xC05FE00000000000] i) := by decide +kernel

theorem witness_OffsetRoundTrip :
    legalWidth 8 = true ∧ Samples offsets (nth [0x4059100000000000, 0x4059600000000000, 0xC059B00000000000]) ∧
    ∃ t, exec (.orq 8 false false) offsets = .next t ∧ statusErr t.status = false :=
  ⟨by decide, by decide +kernel, success_of_nextIs (by decide +kernel)⟩

/-- A success of `ASMQ`, and a fault of it (95_test_vectors.md V57, V3). -/
theorem witness_OrqRefinesAsmq :
    legalWidth 8 = true ∧ (∃ t, exec (.asmq 8 true) offsets = .next t ∧ statusErr t.status = false) ∧
    ∃ t, exec (.asmq 8 true) boundary = .next t ∧ statusErr t.status = true :=
  ⟨by decide, success_of_nextIs (by decide +kernel), witness_fault⟩

/-- The three cases of `PSNR` (95_test_vectors.md V36, V35, V38). -/
theorem witness_EmMeasures :
    let s := block 2 { inData [0x3FF0000000000000, 0xBFF0000000000000] with recon := buf [0, 0] }
    let x := nth [0x3FF0000000000000, 0xBFF0000000000000]
    let y := nth [0, 0]
    let mse := (∑ i ∈ Finset.range s.n.toNat, (s.cfg.flen.val (x i) - s.cfg.flen.val (y i)) ^ 2) / s.n.toNat
    Samples s x ∧ Holds s.mem.recon s.n.toNat y ∧ AllFinite s.cfg.flen s.n.toNat y ∧
    GreatestOf s.n.toNat (mags s.cfg.flen x) 1 ∧ s.cfg.flen.fl mse = some 0x3FF0000000000000 ∧ mse ≠ 0 := by
  decide +kernel

theorem witness_EmMeasures_perfect :
    let s := block 1 { inData [0] with recon := buf [0x8000000000000000] }
    let x := nth [0]
    let y := nth [0x8000000000000000]
    let mse := (∑ i ∈ Finset.range s.n.toNat, (s.cfg.flen.val (x i) - s.cfg.flen.val (y i)) ^ 2) / s.n.toNat
    Samples s x ∧ Holds s.mem.recon s.n.toNat y ∧ AllFinite s.cfg.flen s.n.toNat y ∧
    GreatestOf s.n.toNat (mags s.cfg.flen x) 0 ∧ s.cfg.flen.fl mse = some 0 ∧ mse = 0 := by decide +kernel

theorem witness_EmMeasures_zeroPeak :
    let s := block 1 { inData [0] with recon := buf [0x3FF0000000000000] }
    let x := nth [0]
    let y := nth [0x3FF0000000000000]
    let mse := (∑ i ∈ Finset.range s.n.toNat, (s.cfg.flen.val (x i) - s.cfg.flen.val (y i)) ^ 2) / s.n.toNat
    Samples s x ∧ Holds s.mem.recon s.n.toNat y ∧ AllFinite s.cfg.flen s.n.toNat y ∧
    GreatestOf s.n.toNat (mags s.cfg.flen x) 0 ∧ s.cfg.flen.fl mse = some 0x3FF0000000000000 ∧ mse ≠ 0 := by
  decide +kernel

theorem witness_PsnrIsTheRoundedLogarithm :
    let s := block 2 { inData [0x3FF0000000000000, 0xBFF0000000000000] with recon := buf [0, 0] }
    let x := nth [0x3FF0000000000000, 0xBFF0000000000000]
    let y := nth [0, 0]
    let mse := (∑ i ∈ Finset.range s.n.toNat, (s.cfg.flen.val (x i) - s.cfg.flen.val (y i)) ^ 2) / s.n.toNat
    (Samples s x ∧ Holds s.mem.recon s.n.toNat y ∧ AllFinite s.cfg.flen s.n.toNat y ∧
      GreatestOf s.n.toNat (mags s.cfg.flen x) 1 ∧ mse ≠ 0 ∧ (1 : ℚ) ≠ 0) ∧
    ∃ t, exec .em s = .next t ∧ statusErr t.status = false :=
  ⟨by decide +kernel, success_of_nextIs (by decide +kernel)⟩

end Sys2Proof.Tests
end

section
/-! SUPPORT. Every operand form and every command's rule as a function of the operands it names (00_scope.md R14, 10_state.md
R33), and O16. Two runs are followed side by side: each operand answers the same in both, so both stop alike or both reach
their writes, where they write the same lists. -/

namespace Sys2Proof.Machine

variable {w : Nat}

/-! ## Two computations that end alike -/

/-- Two computations end alike: both with values that `R` relates, or both with the same stop. -/
inductive SameEnd {α : Type} (R : α → α → Prop) : Except Stop α → Except Stop α → Prop
  | ok {a a' : α} (h : R a a') : SameEnd R (.ok a) (.ok a')
  | stop (e : Stop) : SameEnd R (.error e) (.error e)

/-- Two sequences whose first parts are equal end alike when their second parts do after every value of the first. -/
theorem SameEnd.bind {α β : Type} {R : β → β → Prop} {x x' : Except Stop α} {f f' : α → Except Stop β} (hx : x = x')
    (hf : ∀ a, x = .ok a → SameEnd R (f a) (f' a)) : SameEnd R (x >>= f) (x' >>= f') := by
  subst x'
  cases x with
  | error e => exact .stop e
  | ok a => exact hf a rfl

/-- `SameEnd.bind` where the first part is chosen by a flag, in the form a branch inside a sequence has. -/
theorem SameEnd.ite_bind {α β : Type} {R : β → β → Prop} {e : Bool} {x x' y y' : Except Stop α}
    {f f' : α → Except Stop β} (hx : (if e then x else y) = if e then x' else y')
    (hf : ∀ a, (if e then x else y) = .ok a → SameEnd R (f a) (f' a)) :
    SameEnd R (if e then x >>= f else y >>= f) (if e then x' >>= f' else y' >>= f') := by
  cases e with
  | false => exact .bind hx hf
  | true => exact .bind hx hf

/-! ## Each operand form depends on its operand alone -/

theorem elementCount_congr {s s' : State} (hcfg : s.cfg = s'.cfg) (hn : s.n = s'.n) : elementCount s = elementCount s' := by
  simp only [elementCount, hcfg, hn]

/-- Two sequences that begin with the element count end alike when they do for a count of `N`. -/
theorem SameEnd.bind_elementCount {α : Type} {R : α → α → Prop} {s s' : State} {f f' : Nat → Except Stop α}
    (hcfg : s.cfg = s'.cfg) (hn : s.n = s'.n) (hf : SameEnd R (f s.n.toNat) (f' s.n.toNat)) :
    SameEnd R (elementCount s >>= f) (elementCount s' >>= f') := by
  refine .bind (elementCount_congr hcfg hn) fun n hcount => ?_
  obtain ⟨-, rfl⟩ := (elementCount_ok_iff s n).1 hcount
  exact hf

theorem readElem_congr (b : Buf) {m m' : Buffer w} {i : Nat} (h : Buffer.read? m i = Buffer.read? m' i) :
    readElem b m i = readElem b m' i := by
  simp only [readElem, h]

theorem readElems_congr (b : Buf) {m m' : Buffer w} {n : Nat} (h : Agree m m' n) : readElems b m n = readElems b m' n :=
  forIndex_congr _ _ _ fun k hk => readElem_congr b (h k hk)

theorem finiteElems_congr (f : FloatWidth) (b : Buf) {m m' : Buffer 64} {n : Nat} (h : Agree m m' n) :
    finiteElems f b m n = finiteElems f b m' n :=
  forIndex_congr _ _ _ fun k hk => by simp only [finiteElem, readElem_congr b (h k hk)]

theorem codeElems_congr (c : BitVec 6) {m m' : Buffer 32} {n : Nat} (h : Agree m m' n) :
    forIndex (codeElem c m) n = forIndex (codeElem c m') n :=
  forIndex_congr _ _ _ fun k hk => by simp only [codeElem, readElem_congr .code (h k hk)]

theorem signElems_congr {m m' : Buffer 2} {n : Nat} (h : Agree m m' n) :
    forIndex (signElem m) n = forIndex (signElem m') n :=
  forIndex_congr _ _ _ fun k hk => by simp only [signElem, readElem_congr .sign (h k hk)]

theorem suppliedSf_congr {s s' : State} (hcfg : s.cfg = s'.cfg) (hsf : s.sf = s'.sf) : suppliedSf s = suppliedSf s' := by
  simp only [suppliedSf, hcfg, hsf]

/-- The scaling factor depends on the register `SF` only where it is supplied. -/
theorem scalingFactor_congr {sfs : Bool} {s s' : State} (hcfg : s.cfg = s'.cfg) (hsf : sfs = true → s.sf = s'.sf)
    (a : List ℚ) : scalingFactor sfs s a = scalingFactor sfs s' a := by
  refine ite_congr rfl (fun h => ?_) fun _ => by rw [hcfg]
  rw [suppliedSf_congr hcfg (hsf h), hsf h]

/-- The check of the supplied scalars depends on each register only where it is supplied. -/
theorem checkSupplied_congr {sfs ofs : Bool} {s s' : State} (hcfg : s.cfg = s'.cfg) (hsf : sfs = true → s.sf = s'.sf)
    (hof : ofs = true → s.offset = s'.offset) : checkSupplied sfs ofs s = checkSupplied sfs ofs s' := by
  have hs : sfs = true → suppliedSf s = suppliedSf s' := fun h => suppliedSf_congr hcfg (hsf h)
  simp only [checkSupplied, ← hcfg]
  cases ofs with
  | false => exact ite_congr rfl (fun h => by rw [hs h]; rfl) fun _ => rfl
  | true => rw [hof rfl]; exact ite_congr rfl (fun h => by rw [hs h]) fun _ => rfl

/-- The offset's pattern depends on the register `OFFSET` only where it is supplied. -/
theorem offsetBits_congr {ofs : Bool} {s s' : State} (hcfg : s.cfg = s'.cfg) (hof : ofs = true → s.offset = s'.offset)
    (a : List ℚ) : offsetBits ofs s a = offsetBits ofs s' a :=
  ite_congr rfl hof fun _ => by rw [hcfg]

/-! ## The lists a command writes cover the elements below `N` -/

theorem length_of_forIndex {β : Type} {f : Nat → Except Stop β} {n : Nat} {ys : List β} (h : forIndex f n = .ok ys) :
    ys.length = n :=
  ((forIndex_ok_iff f n ys).1 h).1

theorem length_of_roundElems {f : FloatWidth} {b : Buf} {vs : List ℚ} {ws : List Word} (h : roundElems f b vs = .ok ws) :
    ws.length = vs.length := by
  simpa using (congrArg List.length ((roundElems_ok_iff f b vs ws).1 h)).symm

@[simp] theorem length_storeInts (w : Nat) (xs : List ℤ) : (storeInts w xs).length = xs.length := List.length_map _

/-- Whatever two buffers held, they agree below the length of a list that has been written to both. -/
theorem agree_writeAll (b c : Buffer w) {xs : List (BitVec w)} {n : Nat} (hn : xs.length = n) :
    Agree (Buffer.writeAll b xs) (Buffer.writeAll c xs) n := by
  intro i hi
  rw [read_writeAll, read_writeAll, if_pos (by omega), if_pos (by omega)]

/-! ## Each command's rule depends on its operands alone -/

theorem uqResult_sameEnd {c : BitVec 6} {s s' : State} (h : SameOperands (.uq c) s s') :
    SameEnd (SameOutputs (.uq c) s.n.toNat) (uqResult c s) (uqResult c s') := by
  obtain ⟨hcfg, hn, hdata⟩ := h
  simp only [uqResult, ← hcfg]
  refine .bind_elementCount hcfg hn <| .bind (finiteElems_congr _ _ hdata) fun d hd => ?_
  have hlen : d.length = s.n.toNat := length_of_forIndex hd
  cases s.cfg.flen.fl (uniformScale c (minOf d) (maxOf d)) with
  | none => exact .stop _
  | some scale => exact .ok ⟨rfl, rfl, rfl, agree_writeAll _ _ (by simp [hlen])⟩

theorem udqResult_sameEnd {c : BitVec 6} {s s' : State} (h : SameOperands (.udq c) s s') :
    SameEnd (SameOutputs (.udq c) s.n.toNat) (udqResult c s) (udqResult c s') := by
  obtain ⟨hcfg, hn, hscale, hmin, hmax, hcode⟩ := h
  simp only [udqResult, ← hcfg, ← hscale, ← hmin, ← hmax]
  refine .bind_elementCount hcfg hn <| .bind rfl fun scale _ => .bind rfl fun mn _ => .bind rfl fun mx _ =>
    .bind (codeElems_congr c hcode) fun codes hcodes => .ok (agree_writeAll _ _ ?_)
  simp [length_of_forIndex hcodes]

theorem asmqResult_sameEnd {c : BitVec 6} {sfs : Bool} {s s' : State} (h : SameOperands (.asmq c sfs) s s') :
    SameEnd (SameOutputs (.asmq c sfs) s.n.toNat) (asmqResult c sfs s) (asmqResult c sfs s') := by
  obtain ⟨hcfg, hn, hsf, hdata⟩ := h
  simp only [asmqResult, ← hcfg]
  refine .bind_elementCount hcfg hn <| .bind (finiteElems_congr _ _ hdata) fun d hd =>
    .bind (scalingFactor_congr hcfg hsf _) fun sfb _ => .bind rfl fun _ _ => .bind rfl fun _ _ => .ok ?_
  have hlen : d.length = s.n.toNat := length_of_forIndex hd
  refine ⟨ite_congr rfl hsf fun _ => rfl, agree_writeAll _ _ ?_, agree_writeAll _ _ ?_, agree_writeAll _ _ ?_⟩ <;> simp [hlen]

theorem asmdqResult_sameEnd {e : Bool} {s s' : State} (h : SameOperands (.asmdq e) s s') :
    SameEnd (SameOutputs (.asmdq e) s.n.toNat) (asmdqResult e s) (asmdqResult e s') := by
  obtain ⟨hcfg, hn, hsf, hsign, hipart, hdpart, hdata⟩ := h
  have hsamples : (if e then finiteElems s.cfg.flen .data s.mem.data s.n.toNat else .ok []) =
      if e then finiteElems s.cfg.flen .data s'.mem.data s.n.toNat else .ok [] :=
    ite_congr rfl (fun he => finiteElems_congr _ _ (hdata he)) fun _ => rfl
  simp only [asmdqResult, ← hcfg]
  refine .bind_elementCount hcfg hn <| .bind (suppliedSf_congr hcfg hsf) fun sf _ =>
    .bind (signElems_congr hsign) fun signs hsigns => .ite_bind hsamples fun d hd =>
    .bind (readElems_congr _ hipart) fun ips hips => .bind (readElems_congr _ hdpart) fun dps hdps =>
    .bind rfl fun recon hrecon => .bind rfl fun err herr => .ok ?_
  have hlen : recon.length = s.n.toNat := by
    simp [length_of_roundElems hrecon, adaptiveValues, length_of_forIndex hsigns, length_of_forIndex hips,
      length_of_forIndex hdps]
  refine ⟨agree_writeAll _ _ hlen, fun he => agree_writeAll _ _ ?_⟩
  rw [if_pos he] at hd
  simp [length_of_roundElems herr, hlen, length_of_forIndex hd]

theorem orqResult_sameEnd {c : BitVec 6} {sfs ofs : Bool} {s s' : State} (h : SameOperands (.orq c sfs ofs) s s') :
    SameEnd (SameOutputs (.orq c sfs ofs) s.n.toNat) (orqResult c sfs ofs s) (orqResult c sfs ofs s') := by
  obtain ⟨hcfg, hn, hsf, hof, hdata⟩ := h
  simp only [orqResult, ← hcfg, ← offsetBits_congr hcfg hof]
  refine .bind_elementCount hcfg hn <| .bind (finiteElems_congr _ _ hdata) fun d hd =>
    .bind (checkSupplied_congr hcfg hsf hof) fun _ _ => .bind (scalingFactor_congr hcfg hsf _) fun sfb _ =>
    .bind rfl fun _ _ => .bind rfl fun _ _ => .bind rfl fun _ _ => .bind rfl fun _ _ => .ok ?_
  have hlen : d.length = s.n.toNat := length_of_forIndex hd
  refine ⟨ite_congr rfl hsf fun _ => rfl, ite_congr rfl hof fun _ => rfl, agree_writeAll _ _ ?_, agree_writeAll _ _ ?_,
    agree_writeAll _ _ ?_⟩ <;> simp [hlen]

theorem ordqResult_sameEnd {s s' : State} (h : SameOperands .ordq s s') :
    SameEnd (SameOutputs .ordq s.n.toNat) (ordqResult s) (ordqResult s') := by
  obtain ⟨hcfg, hn, hsf, hof, hsign, hiopart, hdopart⟩ := h
  simp only [ordqResult, ← hcfg, ← hof]
  refine .bind_elementCount hcfg hn <| .bind (suppliedSf_congr hcfg hsf) fun sf _ => .bind rfl fun o _ =>
    .bind (signElems_congr hsign) fun signs hsigns => .bind (readElems_congr _ hiopart) fun iops hiops =>
    .bind (readElems_congr _ hdopart) fun dops hdops => .bind rfl fun recon hrecon => .ok (agree_writeAll _ _ ?_)
  simp [length_of_roundElems hrecon, offsetValues, length_of_forIndex hsigns, length_of_forIndex hiops,
    length_of_forIndex hdops]

theorem emResult_sameEnd {s s' : State} (h : SameOperands .em s s') :
    SameEnd (SameOutputs .em s.n.toNat) (emResult s) (emResult s') := by
  obtain ⟨hcfg, hn, hdata, hrecon⟩ := h
  simp only [emResult, ← hcfg]
  refine .bind_elementCount hcfg hn <| .bind (finiteElems_congr _ _ hdata) fun o _ =>
    .bind (finiteElems_congr _ _ hrecon) fun r _ => ?_
  cases s.cfg.flen.fl (exactMse o r) with
  | none => exact .stop _
  | some mse => exact .ok ⟨rfl, rfl⟩

/-- From two states with the same operands the rule of a command stops alike, or reaches the same outputs. -/
theorem commandResult_sameEnd {i : Instr} {s s' : State} (h : SameOperands i s s') :
    SameEnd (SameOutputs i s.n.toNat) (commandResult i s) (commandResult i s') := by
  cases i with
  | uq c => exact uqResult_sameEnd h
  | udq c => exact udqResult_sameEnd h
  | asmq c sfs => exact asmqResult_sameEnd h
  | asmdq e => exact asmdqResult_sameEnd h
  | orq c sfs ofs => exact orqResult_sameEnd h
  | ordq => exact ordqResult_sameEnd h
  | em => exact emResult_sameEnd h

/-! ## The report of a command -/

@[simp] theorem statusErr_statusFault (c : Cause) : statusErr (statusFault c) = true := by cases c <;> rfl

@[simp] theorem statusErr_statusSuccess (old : BitVec 17) : statusErr (statusSuccess old) = false := by
  rw [statusSuccess]; cases statusSticky old <;> rfl

@[simp] theorem statusKind_statusSuccess (old : BitVec 17) : statusKind (statusSuccess old) = 0 := by
  rw [statusSuccess]; cases statusSticky old <;> rfl

@[simp] theorem statusCause_statusSuccess (old : BitVec 17) : statusCause (statusSuccess old) = 0 := by
  rw [statusSuccess]; cases statusSticky old <;> rfl

/-- The report of a success is no output, so it does not change whether two states agree on the outputs. -/
@[simp] theorem sameOutputs_succeed (i : Instr) (n : Nat) (t t' : State) :
    SameOutputs i n (succeed t) (succeed t') ↔ SameOutputs i n t t' := by cases i <;> exact Iff.rfl

/-- Settles O16: the rules end alike, and the common end of a command reports that end, whatever the state before it held. -/
theorem commandsArePure : Obligations.CommandsArePure := by
  intro i s s' h
  have hend := commandResult_sameEnd h
  rw [exec_eq_finish, exec_eq_finish]
  generalize commandResult i s = r, commandResult i s' = r' at hend ⊢
  cases hend with
  | ok hout => simpa using hout
  | stop e => cases e <;> simp

end Sys2Proof.Machine
end

section
/-! SUPPORT. What one event of the host can give, said once, and the statements that need no more: the reset values (O5), the
decoded command (O23) and the element count (O37). -/

namespace Sys2Proof.Machine

/-! ## Slots -/

theorem sixteen_le_nmax (c : Config) : 16 ≤ c.nmax :=
  Nat.pow_le_pow_right (i := 4) Nat.two_pos (Nat.le_add_right 4 c.awAbove)

/-- The slot address of a register leads to it, whatever the capacity (20_memory.md R56). -/
@[simp] theorem slotOf_regSlot (c : Config) (r : Reg) : slotOf c r.slot = .reg r := by
  have hslot : r.slot < 16 := by cases r <;> decide
  rw [slotOf, if_pos (hslot.trans_le (sixteen_le_nmax c))]
  cases r <;> rfl

/-- A slot address leads to elements below the capacity only (20_memory.md R56). -/
theorem lt_nmax_of_slotOf_elem {c : Config} {a i : Nat} {b : Buf} (h : slotOf c a = .elem b i) : i < c.nmax := by
  have hmod : a % c.nmax < c.nmax := Nat.mod_lt _ (Nat.lt_of_lt_of_le (by decide) (sixteen_le_nmax c))
  unfold slotOf at h
  split at h
  · split at h <;> cases h
  · split at h
    · cases h; exact hmod
    · cases h

/-! ## What a step can do -/

/-- Everything one event can do to the state it is performed in: the port answers and nothing else changes, a register or an
element keeps the written bits, the command of a `CMD` write runs, an illegal word faults, or the block is reset. -/
inductive Performed : HostEvent → State → State → Prop
  | answer (e : HostEvent) (r : Response) (s : State) : Performed e s (respond r s)
  | setN (a : Nat) (v : Word) (s : State) : Performed (.write a v) s (respond .done { s with n := v.setWidth 32 })
  | setSf (a : Nat) (v : Word) (s : State) :
      Performed (.write a v) s (respond .done { s with sf := keepFlen s.cfg.flen v })
  | setOffset (a : Nat) (v : Word) (s : State) :
      Performed (.write a v) s (respond .done { s with offset := keepFlen s.cfg.flen v })
  | setScale (a : Nat) (v : Word) (s : State) :
      Performed (.write a v) s (respond .done { s with scale := keepFlen s.cfg.flen v })
  | setMin (a : Nat) (v : Word) (s : State) :
      Performed (.write a v) s (respond .done { s with min := keepFlen s.cfg.flen v })
  | setMax (a : Nat) (v : Word) (s : State) :
      Performed (.write a v) s (respond .done { s with max := keepFlen s.cfg.flen v })
  | setElem (a : Nat) (v : Word) (s : State) (b : Buf) (i : Nat) (hi : i < s.cfg.nmax) :
      Performed (.write a v) s (respond .done { s with mem := writeElement s.cfg.flen s.mem b i v })
  | command (a : Nat) (v : Word) (i : Instr) {s t : State} (hv : decode v = .ok i)
      (ht : exec i (storeCmd v s) = .next t) : Performed (.write a v) s t
  | illegal (a : Nat) (v : Word) (c : Cause) (s : State) (hv : decode v = .error c) :
      Performed (.write a v) s (takeFault c finfoNone (storeCmd v s))
  | reset (s : State) : Performed .reset s (resetBlock s)

/-- A read changes nothing but the port's answer. -/
theorem hostRead_next {a : Nat} {s t : State} (h : hostRead a s = .next t) : ∃ r, t = respond r s := by
  unfold hostRead at h
  split at h
  · cases h; exact ⟨_, rfl⟩
  · split at h <;> cases h
    exact ⟨_, rfl⟩
  · cases h; exact ⟨_, rfl⟩

theorem writeReg_performed (a : Nat) {r : Reg} {v : Word} {s t : State} (h : writeReg r v s = .next t) :
    Performed (.write a v) s t := by
  cases r with
  | cmd =>
    simp only [writeReg, writeCmd] at h
    split at h
    · exact .command a v _ ‹_› h
    · cases h; exact .illegal a v _ s ‹_›
  | n => cases h; exact .setN a v s
  | sf => cases h; exact .setSf a v s
  | offset => cases h; exact .setOffset a v s
  | scale => cases h; exact .setScale a v s
  | min => cases h; exact .setMin a v s
  | max => cases h; exact .setMax a v s
  | status | finfo | mse | psnr => cases h; exact .answer _ _ s

theorem hostWrite_performed {a : Nat} {v : Word} {s t : State} (h : hostWrite a v s = .next t) :
    Performed (.write a v) s t := by
  unfold hostWrite at h
  split at h
  next r _ => exact writeReg_performed a h
  next b i hslot => cases h; exact .setElem a v s b i (lt_nmax_of_slotOf_elem hslot)
  next => cases h; exact .answer _ _ s

theorem performed_of_perform {e : HostEvent} {s t : State} (h : perform e s = .next t) : Performed e s t := by
  cases e with
  | read a => obtain ⟨r, rfl⟩ := hostRead_next h; exact .answer _ r s
  | write a v => exact hostWrite_performed h
  | reset => cases h; exact .reset s

/-- A step with nothing to come is idle, and one with an event to come performs it. -/
theorem step_next_cases {s t : State} (h : step s = .next t) :
    (s.pending = [] ∧ t = s) ∨ ∃ e rest, s.pending = e :: rest ∧ Performed e { s with pending := rest } t := by
  cases hp : s.pending with
  | nil => exact .inl ⟨rfl, by simpa [step, hostStep, hp, eq_comm] using h⟩
  | cons e rest => rw [step_cons hp] at h; exact .inr ⟨e, rest, rfl, performed_of_perform h⟩

/-! ## Reset, the decoded command and the element count -/

@[simp] theorem readElement_unwritten (b : Buf) (i : Nat) : readElement Memory.unwritten b i = none := by cases b <;> rfl

/-- Settles O5: the reset event answers `resetBlock`, whose fields are the reset values. -/
theorem resetValues : Obligations.ResetValues := by
  refine ⟨⟨rfl, rfl, rfl, rfl, rfl, rfl, rfl, rfl, rfl, rfl, rfl, readElement_unwritten⟩, fun s rest => ?_⟩
  exact ⟨resetBlock { s with pending := rest }, rfl, rfl, rfl, rfl, rfl, rfl, rfl, rfl, rfl, rfl, rfl, rfl,
    readElement_unwritten⟩

/-- Settles O23: slot 0 is `CMD`, and the write to it runs what the decoder reads. -/
theorem stepRunsTheDecodedCommand : Obligations.StepRunsTheDecodedCommand := by
  intro s rest v i hv
  have hslot : slotOf s.cfg 0x00 = .reg .cmd := slotOf_regSlot s.cfg .cmd
  rw [step_cons rfl]
  simp only [perform, hostWrite, hslot, writeReg, writeCmd, hv]
  rfl

/-- Settles O37: the element count is every command's first check, so its stop is the command's. -/
theorem countOutOfRangeFaults : Obligations.CountOutOfRangeFaults := by
  intro i s hn
  have hcount : elementCount s = .error (.raise .nRange finfoNone) :=
    (elementCount_error_iff s _).2 ⟨fun h => by omega, rfl⟩
  rw [exec_eq_finish, commandResult_of_count hcount, finish_raise]
  rfl

end Sys2Proof.Machine
end

section
/-! SUPPORT. What the rule of each command writes when it reaches its end, one lemma per command, and the frames of
10_state.md R33 that follow from them (O8, O9, O25 to O28). -/

namespace Sys2Proof.Machine

variable {s u : State}

/-- The form that a choice by a flag has inside a sequence. -/
theorem ite_bind_same {α β : Type} (e : Bool) (x y : Except Stop α) (f : α → Except Stop β) :
    (if e then x >>= f else y >>= f) = (if e then x else y) >>= f := by cases e <;> rfl

/-! ## What a rule that reaches its end has read and writes -/

theorem uqResult_ok {c : BitVec 6} (h : uqResult c s = .ok u) :
    CountLegal s ∧ ∃ d scale, finiteElems s.cfg.flen .data s.mem.data s.n.toNat = .ok d ∧ d.length = s.n.toNat ∧
      s.cfg.flen.fl (uniformScale c (minOf d) (maxOf d)) = some scale ∧
      u = { s with
        mem := { s.mem with
          code := Buffer.writeAll s.mem.code (storeInts 32 (d.map (uniformCode c (minOf d) (maxOf d)))) }
        scale := scale, min := s.cfg.flen.flFits (minOf d), max := s.cfg.flen.flFits (maxOf d) } := by
  simp only [uqResult, bind_eq_ok, elementCount_ok_iff] at h
  obtain ⟨n, ⟨hcount, rfl⟩, d, hd, h⟩ := h
  split at h <;> cases h
  exact ⟨hcount, d, _, hd, length_of_forIndex hd, ‹_›, rfl⟩

theorem udqResult_ok {c : BitVec 6} (h : udqResult c s = .ok u) :
    CountLegal s ∧ ∃ codes, forIndex (codeElem c s.mem.code) s.n.toNat = .ok codes ∧ codes.length = s.n.toNat ∧
      u = { s with mem := { s.mem with
        recon := Buffer.writeAll s.mem.recon ((codes.map (uniformValue c (s.cfg.flen.val s.scale)
          (s.cfg.flen.val s.min) (s.cfg.flen.val s.max))).map s.cfg.flen.flFits) } } := by
  simp only [udqResult, bind_eq_ok, elementCount_ok_iff, finiteScalar_ok_iff] at h
  obtain ⟨n, ⟨hcount, rfl⟩, _, ⟨-, rfl⟩, _, ⟨-, rfl⟩, _, ⟨-, rfl⟩, codes, hcodes, h⟩ := h
  cases h
  exact ⟨hcount, codes, hcodes, length_of_forIndex hcodes, rfl⟩

theorem asmqResult_ok {c : BitVec 6} {sfs : Bool} (h : asmqResult c sfs s = .ok u) :
    CountLegal s ∧ ∃ d sfb, finiteElems s.cfg.flen .data s.mem.data s.n.toNat = .ok d ∧ d.length = s.n.toNat ∧
      scalingFactor sfs s (d.map (fun x => |x|)) = .ok sfb ∧
      u = { s with
        mem := { s.mem with
          sign := Buffer.writeAll s.mem.sign (storeInts 2 (d.map sgn))
          ipart := Buffer.writeAll s.mem.ipart (storeInts 32 ((d.map (fun x => |x|)).map integerPart))
          dpart := Buffer.writeAll s.mem.dpart
            (storeInts 64 ((d.map (fun x => |x|)).map (decimalPart (s.cfg.flen.val sfb)))) }
        sf := if sfs then s.sf else sfb } := by
  simp only [asmqResult, bind_eq_ok, elementCount_ok_iff] at h
  obtain ⟨n, ⟨hcount, rfl⟩, d, hd, sfb, hsfb, -, -, -, -, h⟩ := h
  cases h
  exact ⟨hcount, d, sfb, hd, length_of_forIndex hd, hsfb, rfl⟩

theorem asmdqResult_ok {e : Bool} (h : asmdqResult e s = .ok u) :
    CountLegal s ∧ SfLegal s ∧ ∃ (signs : List ℤ) (d : List ℚ) (ips : List (BitVec 32)) (dps : List (BitVec 64))
      (recon err : List Word),
      roundElems s.cfg.flen .recon (adaptiveValues (s.cfg.flen.val s.sf) signs ips dps) = .ok recon ∧
      recon.length = s.n.toNat ∧
      roundElems s.cfg.flen .err (d.zipWith (fun x r => x - s.cfg.flen.val r) recon) = .ok err ∧
      err.length ≤ s.n.toNat ∧ (e = false → err = []) ∧
      u = { s with mem := { s.mem with
        recon := Buffer.writeAll s.mem.recon recon, err := Buffer.writeAll s.mem.err err } } := by
  simp only [asmdqResult, ite_bind_same, bind_eq_ok, elementCount_ok_iff, suppliedSf_ok_iff] at h
  obtain ⟨n, ⟨hcount, rfl⟩, _, ⟨hsf, rfl⟩, signs, hsigns, d, hd, ips, hips, dps, hdps, recon, hrecon, err, herr, h⟩ := h
  cases h
  have hlen : recon.length = s.n.toNat := by
    simp [length_of_roundElems hrecon, adaptiveValues, length_of_forIndex hsigns, length_of_forIndex hips,
      length_of_forIndex hdps]
  refine ⟨hcount, hsf, signs, d, ips, dps, recon, err, hrecon, hlen, herr, ?_, fun he => ?_, rfl⟩
  · simp [length_of_roundElems herr, hlen]
  · subst he; cases hd; cases herr; rfl

theorem orqResult_ok {c : BitVec 6} {sfs ofs : Bool} (h : orqResult c sfs ofs s = .ok u) :
    CountLegal s ∧ ∃ d sfb, finiteElems s.cfg.flen .data s.mem.data s.n.toNat = .ok d ∧ d.length = s.n.toNat ∧
      let a := d.map (fun x => |x|)
      let ofb := offsetBits ofs s a
      scalingFactor sfs s a = .ok sfb ∧
      u = { s with
        mem := { s.mem with
          sign := Buffer.writeAll s.mem.sign (storeInts 2 (d.map sgn))
          iopart := Buffer.writeAll s.mem.iopart (storeInts 8 (a.map (offsetPart (s.cfg.flen.val ofb))))
          dopart := Buffer.writeAll s.mem.dopart
            (storeInts 64 (a.map (decimalOffsetPart (s.cfg.flen.val sfb) (s.cfg.flen.val ofb)))) }
        sf := if sfs then s.sf else sfb
        offset := if ofs then s.offset else ofb } := by
  simp only [orqResult, bind_eq_ok, elementCount_ok_iff] at h
  obtain ⟨n, ⟨hcount, rfl⟩, d, hd, -, -, sfb, hsfb, -, -, -, -, -, -, -, -, h⟩ := h
  cases h
  exact ⟨hcount, d, sfb, hd, length_of_forIndex hd, hsfb, rfl⟩

theorem ordqResult_ok (h : ordqResult s = .ok u) :
    CountLegal s ∧ SfLegal s ∧ ∃ (signs : List ℤ) (iops : List (BitVec 8)) (dops : List (BitVec 64))
      (recon : List Word),
      roundElems s.cfg.flen .recon
        (offsetValues (s.cfg.flen.val s.sf) (s.cfg.flen.val s.offset) signs iops dops) = .ok recon ∧
      recon.length = s.n.toNat ∧
      u = { s with mem := { s.mem with recon := Buffer.writeAll s.mem.recon recon } } := by
  simp only [ordqResult, bind_eq_ok, elementCount_ok_iff, suppliedSf_ok_iff, finiteScalar_ok_iff] at h
  obtain ⟨n, ⟨hcount, rfl⟩, _, ⟨hsf, rfl⟩, _, ⟨-, rfl⟩, signs, hsigns, iops, hiops, dops, hdops, recon, hrecon, h⟩ := h
  cases h
  refine ⟨hcount, hsf, signs, iops, dops, recon, hrecon, ?_, rfl⟩
  simp [length_of_roundElems hrecon, offsetValues, length_of_forIndex hsigns, length_of_forIndex hiops,
    length_of_forIndex hdops]

theorem emResult_ok (h : emResult s = .ok u) :
    CountLegal s ∧ ∃ o r mse, finiteElems s.cfg.flen .data s.mem.data s.n.toNat = .ok o ∧
      finiteElems s.cfg.flen .recon s.mem.recon s.n.toNat = .ok r ∧ s.cfg.flen.fl (exactMse o r) = some mse ∧
      u = { s with mse := mse, psnr := s.cfg.flen.psnr (exactMse o r) (exactPeak o) } := by
  simp only [emResult, bind_eq_ok, elementCount_ok_iff] at h
  obtain ⟨n, ⟨hcount, rfl⟩, o, ho, r, hr, h⟩ := h
  split at h <;> cases h
  exact ⟨hcount, o, r, _, ho, hr, ‹_›, rfl⟩

/-! ## Frames -/

/-- A command that answers a next state without an error has reached the end of its rule. -/
theorem exec_success {i : Instr} {s t : State} (h : exec i s = .next t) (herr : statusErr t.status = false) :
    ∃ u, commandResult i s = .ok u ∧ t = succeed u := by
  obtain hok | ⟨c, info, -, rfl⟩ := (exec_next_iff i s t).1 h
  · exact hok
  · simp at herr

/-- A list of at most `n` elements leaves the elements from `n` on. -/
theorem tailKept_writeAll {w n : Nat} (b : Buffer w) {xs : List (BitVec w)} (hn : xs.length ≤ n) :
    TailKept b (Buffer.writeAll b xs) n := fun i hi => writeAll_tailKept b xs i (hn.trans hi)

/-- Settles O25: a success has reached the end of its rule, which writes `N` elements. -/
theorem uniformFrame : Obligations.UniformFrame := by
  refine fun s t c => ⟨fun h herr => ?_, fun h herr => ?_⟩
  · obtain ⟨u, hu, rfl⟩ := exec_success h herr
    obtain ⟨-, d, scale, -, hlen, -, rfl⟩ := uqResult_ok hu
    exact ⟨rfl, tailKept_writeAll _ (by simp [hlen])⟩
  · obtain ⟨u, hu, rfl⟩ := exec_success h herr
    obtain ⟨-, codes, -, hlen, rfl⟩ := udqResult_ok hu
    exact ⟨rfl, tailKept_writeAll _ (by simp [hlen])⟩

/-- Settles O26: without `E` the list of errors is empty, so that `ERR` is kept whole. -/
theorem adaptiveFrame : Obligations.AdaptiveFrame := by
  refine fun s t c sfs e => ⟨fun h herr => ?_, fun h herr => ?_⟩
  · obtain ⟨u, hu, rfl⟩ := exec_success h herr
    obtain ⟨-, d, sfb, -, hlen, -, rfl⟩ := asmqResult_ok hu
    refine ⟨rfl, fun h => if_pos h, tailKept_writeAll _ ?_, tailKept_writeAll _ ?_, tailKept_writeAll _ ?_⟩ <;> simp [hlen]
  · obtain ⟨u, hu, rfl⟩ := exec_success h herr
    obtain ⟨-, -, _, _, _, _, recon, err, -, hrecon, -, hlen, hempty, rfl⟩ := asmdqResult_ok hu
    exact ⟨rfl, fun he => by simp [hempty he], tailKept_writeAll _ hrecon.le, tailKept_writeAll _ hlen⟩

/-- Settles O27: a supplied scalar is written back as it was. -/
theorem offsetFrame : Obligations.OffsetFrame := by
  refine fun s t c sfs ofs => ⟨fun h herr => ?_, fun h herr => ?_⟩
  · obtain ⟨u, hu, rfl⟩ := exec_success h herr
    obtain ⟨-, d, sfb, -, hlen, -, rfl⟩ := orqResult_ok hu
    refine ⟨rfl, fun h => if_pos h, fun h => if_pos h, tailKept_writeAll _ ?_, tailKept_writeAll _ ?_,
      tailKept_writeAll _ ?_⟩ <;> simp [hlen]
  · obtain ⟨u, hu, rfl⟩ := exec_success h herr
    obtain ⟨-, -, _, _, _, recon, -, hrecon, rfl⟩ := ordqResult_ok hu
    exact ⟨rfl, tailKept_writeAll _ hrecon.le⟩

/-- Settles O28: the rule writes two registers, and the report of its end `STATUS` and `FINFO`. -/
theorem metricsFrame : Obligations.MetricsFrame := by
  intro s t h herr
  obtain ⟨u, hu, rfl⟩ := exec_success h herr
  obtain ⟨-, o, r, mse, -, -, -, rfl⟩ := emResult_ok hu
  rfl

/-! ## What no command writes -/

/-- What no command writes is the same in two states: the parameters, `CMD`, `N`, `DATA` and the host's side of the port
(10_state.md R33, R24; 20_memory.md R54). -/
def SameInputs (s t : State) : Prop :=
  t.cfg = s.cfg ∧ t.cmd = s.cmd ∧ t.n = s.n ∧ t.mem.data = s.mem.data ∧ t.pending = s.pending ∧ t.response = s.response

theorem commandResult_sameInputs {i : Instr} (h : commandResult i s = .ok u) : SameInputs s u := by
  cases i with
  | uq c => obtain ⟨-, _, _, -, -, -, rfl⟩ := uqResult_ok h; exact ⟨rfl, rfl, rfl, rfl, rfl, rfl⟩
  | udq c => obtain ⟨-, _, -, -, rfl⟩ := udqResult_ok h; exact ⟨rfl, rfl, rfl, rfl, rfl, rfl⟩
  | asmq c sfs => obtain ⟨-, _, _, -, -, -, rfl⟩ := asmqResult_ok h; exact ⟨rfl, rfl, rfl, rfl, rfl, rfl⟩
  | asmdq e =>
    obtain ⟨-, -, _, _, _, _, _, _, -, -, -, -, -, rfl⟩ := asmdqResult_ok h; exact ⟨rfl, rfl, rfl, rfl, rfl, rfl⟩
  | orq c sfs ofs => obtain ⟨-, _, _, -, -, -, rfl⟩ := orqResult_ok h; exact ⟨rfl, rfl, rfl, rfl, rfl, rfl⟩
  | ordq => obtain ⟨-, -, _, _, _, _, -, -, rfl⟩ := ordqResult_ok h; exact ⟨rfl, rfl, rfl, rfl, rfl, rfl⟩
  | em => obtain ⟨-, _, _, _, -, -, -, rfl⟩ := emResult_ok h; exact ⟨rfl, rfl, rfl, rfl, rfl, rfl⟩

/-- Settles O9: no rule writes an input, and the report of the end is `STATUS` and `FINFO` only. -/
theorem commandsLeaveTheirInputs : Obligations.CommandsLeaveTheirInputs := by
  intro i s t h
  obtain ⟨u, hu, rfl⟩ | ⟨c, info, -, rfl⟩ := (exec_next_iff i s t).1 h
  · have hin : SameInputs s u := commandResult_sameInputs hu
    exact hin
  · exact ⟨rfl, rfl, rfl, rfl, rfl, rfl⟩

/-- Settles O8: a command keeps its inputs, and every other effect of an event writes other fields. -/
theorem configurationNeverChanges : Obligations.ConfigurationNeverChanges := by
  intro s t h
  obtain ⟨-, rfl⟩ | ⟨e, rest, -, hperf⟩ := step_next_cases h
  · rfl
  · cases hperf with
    | command a v i _ ht => exact (commandsLeaveTheirInputs i _ t ht).1
    | _ => rfl

end Sys2Proof.Machine
end

section
/-! SUPPORT. What faults each command can raise, once for all seven: a cause of its column of 60_exceptions.md R169, with the fault
information R164 gives the cause and an element below `N`. The unreachable `RESIDUAL` (44_offset_refinement.md R153) needs
that the scaling factor is positive. -/

namespace Sys2Proof

/-! ## The scaling factor is positive -/

/-- The ideal values from the least subnormal on round to a positive value: `fl` does not lose them. -/
theorem val_pos_of_fl {f : FloatWidth} {x : ℚ} {b : Word} (h : f.fl x = some b)
    (hx : (2 : ℚ) ^ (f.emin - f.precision + 1) ≤ x) : 0 < f.val b := by
  have hpos : 0 < x := lt_of_lt_of_le (by positivity) hx
  have hu := ulp_pos f x
  have hle : f.ulp x ≤ |x| := by
    rw [FloatWidth.ulp]
    obtain hbin | hbin := (binade_spec f hpos.ne').1
    · refine le_trans (zpow_le_zpow_right₀ one_le_two ?_) hbin
      have : 1 ≤ f.precision := by cases f <;> decide
      omega
    · rwa [hbin, abs_of_pos hpos]
  have hsig : 1 ≤ f.significand x :=
    (rnd_between (a := 1) (by rw [Int.cast_one, one_le_div hu]; exact hle) (Int.le_ceil _)).1
  obtain ⟨-, -, hval⟩ := fl_spec f h
  rw [hval, if_neg hpos.not_gt, one_mul]
  exact mul_pos (by exact_mod_cast hsig) hu

/-- A finite value is below the power of two where overflow begins. -/
theorem abs_val_lt (f : FloatWidth) {b : Word} (hb : f.isFinite b = true) : |f.val b| < (2 : ℚ) ^ (f.emax + 1) := by
  obtain ⟨e, m, hcan, hm, hmag⟩ := finite_pattern f hb
  have hval : |f.val b| = f.magnitude b := by
    have hnonneg : 0 ≤ f.magnitude b := by
      rw [hmag]; exact mul_nonneg (Int.cast_nonneg hcan.nonneg) (by positivity)
    rw [FloatWidth.val]; split <;> simp [abs_of_nonneg hnonneg]
  calc |f.val b| = m * (2 : ℚ) ^ (e - f.precision + 1) := hval.trans hmag
    _ < (2 : ℚ) ^ f.precision * (2 : ℚ) ^ (e - f.precision + 1) := by
        gcongr
        exact_mod_cast hm
    _ = (2 : ℚ) ^ (e + 1) := by
        rw [← zpow_natCast, ← zpow_add₀ two_ne_zero]; congr 1; omega
    _ ≤ (2 : ℚ) ^ (f.emax + 1) := zpow_le_zpow_right₀ one_le_two (by have := hcan.le_emax; omega)

/-- The inferred factor is at least the least subnormal before it is rounded (40_numerics.md R98, R108). -/
theorem least_subnormal_le_pow_kexp (f : FloatWidth) {m : ℚ} (hm : 0 < m) (hlt : m < (2 : ℚ) ^ (f.emax + 1)) :
    (2 : ℚ) ^ (f.emin - f.precision + 1) ≤ (10 : ℚ) ^ kexp m := by
  calc (2 : ℚ) ^ (f.emin - f.precision + 1) ≤ (2 : ℚ) ^ (-(f.emax + 1)) :=
        zpow_le_zpow_right₀ one_le_two (by cases f <;> decide)
    _ = ((2 : ℚ) ^ (f.emax + 1))⁻¹ := zpow_neg _ _
    _ ≤ m⁻¹ := inv_anti₀ hm hlt.le
    _ ≤ (10 : ℚ) ^ kexp m := Int.self_le_zpow_clog (by decide) _

namespace Machine

/-- The factor inferred from magnitudes of finite values is positive. -/
theorem inferSf_pos {f : FloatWidth} {a : List ℚ} {b : Word} (h : inferSf f a = .ok b)
    (ha : ∀ x ∈ a, 0 ≤ x ∧ x < (2 : ℚ) ^ (f.emax + 1)) : 0 < f.val b := by
  simp only [inferSf] at h
  split at h
  · cases h
  next hne =>
    split at h <;> cases h
    next hfl =>
    obtain ⟨hmem, -⟩ := minOf_spec _ (mt List.isEmpty_iff.2 hne)
    obtain ⟨hin, hnz⟩ := List.mem_filter.1 hmem
    obtain ⟨hnonneg, hlt⟩ := ha _ hin
    exact val_pos_of_fl hfl (least_subnormal_le_pow_kexp f (hnonneg.lt_of_ne' (by simpa using hnz)) hlt)

/-- The scaling factor a quantizer uses on finite samples is positive, supplied or inferred
(44_offset_refinement.md R153). -/
theorem scalingFactor_pos {sfs : Bool} {s : State} {b : Buf} {m : Buffer 64} {n : Nat} {d : List ℚ} {sfb : Word}
    (hd : finiteElems s.cfg.flen b m n = .ok d) (h : scalingFactor sfs s (d.map (fun x => |x|)) = .ok sfb) :
    0 < s.cfg.flen.val sfb := by
  cases sfs with
  | true =>
    obtain ⟨⟨-, hpos⟩, rfl⟩ := (scalingFactor_supplied_ok_iff s _ sfb).1 h
    exact hpos
  | false =>
    refine inferSf_pos h fun x hx => ?_
    obtain ⟨y, hy, rfl⟩ := List.mem_map.1 hx
    obtain ⟨p, -, hfin, rfl⟩ := (finiteElems_ok_iff _ _ _ _ _).1 hd
    obtain ⟨i, hi, rfl⟩ := List.mem_map.1 hy
    exact ⟨abs_nonneg _, abs_val_lt _ (hfin i (List.mem_range.1 hi))⟩

/-- Where the difference from the offset is an integer, the residual is the scaled fraction of the magnitude, whatever the
offset (44_offset_refinement.md R153). -/
theorem residual_of_fit {sf o a : ℚ} (h : offsetUnfit o a = false) : residual sf o a = (a - ⌊a⌋) * sf := by
  simp only [offsetUnfit, Bool.or_eq_false_iff, decide_eq_false_iff_not, not_not] at h
  obtain ⟨⟨hint, -⟩, -⟩ := h
  rw [residual, offsetPart, ← hint, offsetDifference, integerPart, sub_add_cancel]

/-- The residual of a difference that fits is in range. -/
theorem residual_inRange {sf o a : ℚ} (hsf : 0 < sf) (h : offsetUnfit o a = false) :
    0 ≤ residual sf o a ∧ residual sf o a < sf := by
  rw [residual_of_fit h]
  exact ⟨mul_nonneg (Int.fract_nonneg a) hsf.le, mul_lt_of_lt_one_left hsf (Int.fract_lt_one a)⟩

/-! ## Which faults a computation can raise -/

/-- Every fault a computation raises has `P` of its cause and fault information. -/
def RaisesOnly {α : Type} (P : Cause → BitVec 36 → Prop) (x : Except Stop α) : Prop :=
  ∀ c info, x = .error (.raise c info) → P c info

section
variable {α β : Type} {P : Cause → BitVec 36 → Prop}

theorem RaisesOnly.ok (a : α) : RaisesOnly P (.ok a) := nofun

theorem RaisesOnly.raise {c : Cause} {info : BitVec 36} (h : P c info) :
    RaisesOnly P (.error (.raise c info) : Except Stop α) := by
  rintro _ _ ⟨⟩; exact h

theorem RaisesOnly.bind {x : Except Stop α} {f : α → Except Stop β} (hx : RaisesOnly P x)
    (hf : ∀ a, x = .ok a → RaisesOnly P (f a)) : RaisesOnly P (x >>= f) := by
  intro c info h
  obtain h | ⟨a, ha, h⟩ := (bind_eq_error x f _).1 h
  · exact hx c info h
  · exact hf a ha c info h

theorem elementCount_raises (s : State) (h : P .nRange finfoNone) : RaisesOnly P (elementCount s) := by
  intro c info hs
  obtain ⟨-, ⟨⟩⟩ := (elementCount_error_iff s _).1 hs
  exact h

theorem forIndex_raises {f : Nat → Except Stop β} {n : Nat} (h : ∀ i < n, RaisesOnly P (f i)) :
    RaisesOnly P (forIndex f n) := by
  intro c info hs
  obtain ⟨k, hk, hs, -⟩ := (forIndex_error_iff f n _).1 hs
  exact h k hk c info hs

theorem readElems_raises {w : Nat} (b : Buf) (m : Buffer w) (n : Nat) : RaisesOnly P (readElems b m n) :=
  forIndex_raises fun i _ c info hs => by simp [readElem_error_iff] at hs

theorem finiteElems_raises (f : FloatWidth) {b : Buf} (m : Buffer 64) {n : Nat}
    (h : ∀ i < n, P .nonfiniteElem (finfoElem b i)) : RaisesOnly P (finiteElems f b m n) :=
  forIndex_raises fun i hi c info hs => by
    obtain ⟨-, ⟨⟩⟩ | ⟨x, -, -, ⟨⟩⟩ := (finiteElem_error_iff f b m i _).1 hs
    exact h i hi

theorem codeElems_raises (w : BitVec 6) (m : Buffer 32) {n : Nat} (h : ∀ i < n, P .codeRange (finfoElem .code i)) :
    RaisesOnly P (forIndex (codeElem w m) n) :=
  forIndex_raises fun i hi c info hs => by
    obtain ⟨-, ⟨⟩⟩ | ⟨x, -, -, ⟨⟩⟩ := (codeElem_error_iff w m i _).1 hs
    exact h i hi

theorem signElems_raises (m : Buffer 2) {n : Nat} (h : ∀ i < n, P .signReserved (finfoElem .sign i)) :
    RaisesOnly P (forIndex (signElem m) n) :=
  forIndex_raises fun i hi c info hs => by
    obtain ⟨-, ⟨⟩⟩ | ⟨-, ⟨⟩⟩ := (signElem_error_iff m i _).1 hs
    exact h i hi

theorem finiteScalar_raises (f : FloatWidth) {r : Reg} (x : Word) (h : P .nonfiniteScalar (finfoReg r)) :
    RaisesOnly P (finiteScalar f r x) := by
  intro c info hs
  obtain ⟨-, ⟨⟩⟩ := (finiteScalar_error_iff f r x _).1 hs
  exact h

theorem suppliedSf_raises (s : State) (hfin : P .nonfiniteScalar (finfoReg .sf)) (hpos : P .sfNonpos (finfoReg .sf)) :
    RaisesOnly P (suppliedSf s) := by
  intro c info hs
  obtain ⟨-, ⟨⟩⟩ | ⟨-, -, ⟨⟩⟩ := (suppliedSf_error_iff s _).1 hs
  · exact hfin
  · exact hpos

theorem inferSf_raises (f : FloatWidth) (a : List ℚ) (hzero : P .allZero finfoNone) (hovf : P .outOvf (finfoReg .sf)) :
    RaisesOnly P (inferSf f a) := by
  simp only [inferSf]
  split
  · exact .raise hzero
  · split
    · exact .raise hovf
    · exact .ok _

/-- The scaling factor raises the faults of `SF` where it is supplied, and those of the inference otherwise. -/
theorem scalingFactor_raises {sfs : Bool} (s : State) (a : List ℚ)
    (hfin : sfs = true → P .nonfiniteScalar (finfoReg .sf)) (hpos : sfs = true → P .sfNonpos (finfoReg .sf))
    (hzero : sfs = false → P .allZero finfoNone) (hovf : sfs = false → P .outOvf (finfoReg .sf)) :
    RaisesOnly P (scalingFactor sfs s a) := by
  cases sfs with
  | true => exact .bind (suppliedSf_raises s (hfin rfl) (hpos rfl)) fun _ _ => .ok _
  | false => exact inferSf_raises _ _ (hzero rfl) (hovf rfl)

theorem checkEach_raises {bad : α → Bool} {c : Cause} {b : Buf} {xs : List α} {n : Nat} (hn : xs.length ≤ n)
    (h : ∀ i < n, P c (finfoElem b i)) : RaisesOnly P (checkEach bad c b xs) := by
  intro c' info hs
  obtain ⟨i, hi, -, -, ⟨⟩⟩ := (checkEach_error_iff bad c b xs _).1 hs
  exact h i (hi.trans_le hn)

theorem roundElems_raises (f : FloatWidth) {b : Buf} {vs : List ℚ} {n : Nat} (hn : vs.length ≤ n)
    (h : ∀ i < n, P .outOvf (finfoElem b i)) : RaisesOnly P (roundElems f b vs) :=
  .bind (checkEach_raises hn h) fun _ _ => .ok _

theorem checkSupplied_raises {sfs ofs : Bool} (s : State) (hfin : sfs = true → P .nonfiniteScalar (finfoReg .sf))
    (hpos : sfs = true → P .sfNonpos (finfoReg .sf)) (hof : ofs = true → P .nonfiniteScalar (finfoReg .offset)) :
    RaisesOnly P (checkSupplied sfs ofs s) := by
  have hoffset : RaisesOnly P (checkSupplied false ofs s) := by
    cases ofs with
    | true => exact .bind (finiteScalar_raises _ _ (hof rfl)) fun _ _ => .ok _
    | false => exact .ok _
  cases sfs with
  | true => exact .bind (suppliedSf_raises s (hfin rfl) (hpos rfl)) fun _ _ => hoffset
  | false => exact hoffset

end

/-! ## The faults of each command -/

/-- A fault that command `i` may raise with `n` elements: a cause of its column of 60_exceptions.md R169, the fault information
R164 gives the cause, and where that names an element, an index below `n`. -/
structure FaultOf (i : Instr) (n : Nat) (c : Cause) (info : BitVec 36) : Prop where
  cause_mem : c ∈ causesOf i
  legal : legalInfo c info = true
  index_lt : finfoWhere info ≠ 0 → (finfoIndex info).toNat < n

@[simp] theorem finfoWhere_finfoElem (b : Buf) (k : Nat) : finfoWhere (finfoElem b k) = BitVec.ofNat 4 b.number :=
  BitVec.extractLsb'_append_eq_left ..

@[simp] theorem finfoIndex_finfoElem (b : Buf) (k : Nat) : finfoIndex (finfoElem b k) = BitVec.ofNat 32 k :=
  BitVec.extractLsb'_append_eq_right ..

@[simp] theorem finfoWhere_finfoReg (r : Reg) : finfoWhere (finfoReg r) = 0 :=
  BitVec.extractLsb'_append_eq_left ..

section
variable {i : Instr} {c : Cause}

theorem FaultOf.elem {n : Nat} {b : Buf} (hc : c ∈ causesOf i := by simp [causesOf])
    (hb : ∀ k, legalInfo c (finfoElem b k) = true := by simp [legalInfo, Buf.number]) :
    ∀ k < n, FaultOf i n c (finfoElem b k) := fun k hk =>
  ⟨hc, hb k, fun _ => by
    rw [finfoIndex_finfoElem, BitVec.toNat_ofNat]
    exact (Nat.mod_le _ _).trans_lt hk⟩

theorem FaultOf.reg {n : Nat} {r : Reg} (hc : c ∈ causesOf i := by simp [causesOf])
    (hr : legalInfo c (finfoReg r) = true := by rfl) : FaultOf i n c (finfoReg r) :=
  ⟨hc, hr, fun h => absurd (finfoWhere_finfoReg r) h⟩

theorem FaultOf.noElem {n : Nat} (hc : c ∈ causesOf i := by simp [causesOf])
    (h : legalInfo c finfoNone = true := by rfl) : FaultOf i n c finfoNone :=
  ⟨hc, h, fun h => absurd rfl h⟩

end

/-- Every command checks the element count first (10_state.md R27), and goes on with a legal one. -/
theorem RaisesOnly.bind_elementCount {α : Type} {i : Instr} {s : State} {f : Nat → Except Stop α}
    (hf : RaisesOnly (FaultOf i s.n.toNat) (f s.n.toNat)) :
    RaisesOnly (FaultOf i s.n.toNat) (elementCount s >>= f) := by
  have hc : Cause.nRange ∈ causesOf i := by
    cases i with
    | asmq _ sfs => cases sfs <;> simp [causesOf]
    | asmdq e => cases e <;> simp [causesOf]
    | orq _ sfs ofs => cases sfs <;> cases ofs <;> simp [causesOf]
    | _ => simp [causesOf]
  refine .bind (elementCount_raises s (.noElem hc)) fun n hn => ?_
  obtain ⟨-, rfl⟩ := (elementCount_ok_iff s n).1 hn
  exact hf

theorem uqResult_raises (w : BitVec 6) (s : State) : RaisesOnly (FaultOf (.uq w) s.n.toNat) (uqResult w s) := by
  refine .bind_elementCount <| .bind (finiteElems_raises _ _ .elem) fun d _ => ?_
  dsimp only
  cases s.cfg.flen.fl (uniformScale w (minOf d) (maxOf d)) with
  | none => exact .raise (FaultOf.reg)
  | some scale => exact .ok _

theorem udqResult_raises (w : BitVec 6) (s : State) : RaisesOnly (FaultOf (.udq w) s.n.toNat) (udqResult w s) :=
  .bind_elementCount <| .bind (finiteScalar_raises _ _ .reg) fun _ _ => .bind (finiteScalar_raises _ _ .reg) fun _ _ =>
    .bind (finiteScalar_raises _ _ .reg) fun _ _ => .bind (codeElems_raises _ _ .elem) fun _ _ => .ok _

theorem asmqResult_raises (w : BitVec 6) (sfs : Bool) (s : State) :
    RaisesOnly (FaultOf (.asmq w sfs) s.n.toNat) (asmqResult w sfs s) := by
  have hcommon : ∀ c ∈ [.nonfiniteElem, .ipartOvf, .dpartOvf], c ∈ causesOf (.asmq w sfs) := by
    cases sfs <;> simp [causesOf]
  refine .bind_elementCount <| .bind (finiteElems_raises _ _ (.elem (hcommon _ (by simp)))) fun d hd => ?_
  have hlen : (d.map (fun x => |x|)).length ≤ s.n.toNat := by simp [length_of_forIndex hd]
  refine .bind (scalingFactor_raises s _ ?_ ?_ ?_ ?_) fun sfb _ =>
    .bind (checkEach_raises hlen (.elem (hcommon _ (by simp)))) fun _ _ =>
    .bind (checkEach_raises hlen (.elem (hcommon _ (by simp)))) fun _ _ => .ok _
  · rintro rfl; exact FaultOf.reg
  · rintro rfl; exact FaultOf.reg
  · rintro rfl; exact FaultOf.noElem
  · rintro rfl; exact FaultOf.reg

theorem asmdqResult_raises (e : Bool) (s : State) :
    RaisesOnly (FaultOf (.asmdq e) s.n.toNat) (asmdqResult e s) := by
  have hcommon : ∀ c ∈ [.nonfiniteScalar, .sfNonpos, .signReserved, .outOvf], c ∈ causesOf (.asmdq e) := by
    cases e <;> simp [causesOf]
  have hsamples : RaisesOnly (FaultOf (.asmdq e) s.n.toNat)
      (if e then finiteElems s.cfg.flen .data s.mem.data s.n.toNat else .ok []) := by
    cases e with
    | true => exact finiteElems_raises _ _ FaultOf.elem
    | false => exact .ok _
  simp only [asmdqResult, ite_bind_same]
  refine .bind_elementCount <|
    .bind (suppliedSf_raises s (.reg (hcommon _ (by simp))) (.reg (hcommon _ (by simp)))) fun sf _ =>
    .bind (signElems_raises _ (.elem (hcommon _ (by simp)))) fun signs hsigns => .bind hsamples fun d _ =>
    .bind (readElems_raises _ _ _) fun ips _ => .bind (readElems_raises _ _ _) fun dps _ =>
    .bind (roundElems_raises _ ?_ (.elem (hcommon _ (by simp)))) fun recon hrecon =>
    .bind (roundElems_raises _ ?_ (.elem (hcommon _ (by simp)))) fun err _ => .ok _
  · simp [adaptiveValues, length_of_forIndex hsigns]
  · simp [length_of_roundElems hrecon, adaptiveValues, length_of_forIndex hsigns]

/-- The check of the residual raises nothing: the checks before it leave nothing to report (44_offset_refinement.md R153). -/
theorem checkResidual_raises {P : Cause → BitVec 36 → Prop} {sf o : ℚ} {a : List ℚ} {u : Unit} (hsf : 0 < sf)
    (hfit : checkEach (offsetUnfit o) .offsetRange .data a = .ok u) :
    RaisesOnly P (checkEach (fun x => residual sf o x < 0 || sf ≤ residual sf o x) .residual .data a) := by
  rw [(checkEach_ok_iff _ _ _ a ()).2 fun x hx => ?_]
  · exact .ok _
  · obtain ⟨hnonneg, hlt⟩ := residual_inRange hsf ((checkEach_ok_iff _ _ _ a u).1 hfit x hx)
    simp [hnonneg, hlt]

theorem orqResult_raises (w : BitVec 6) (sfs ofs : Bool) (s : State) :
    RaisesOnly (FaultOf (.orq w sfs ofs) s.n.toNat) (orqResult w sfs ofs s) := by
  have hcommon : ∀ c ∈ [.nonfiniteElem, .ipartOvf, .offsetRange, .dpartOvf], c ∈ causesOf (.orq w sfs ofs) := by
    cases sfs <;> cases ofs <;> simp [causesOf]
  refine .bind_elementCount <| .bind (finiteElems_raises _ _ (.elem (hcommon _ (by simp)))) fun d hd => ?_
  have hlen : (d.map (fun x => |x|)).length ≤ s.n.toNat := by simp [length_of_forIndex hd]
  refine .bind (checkSupplied_raises s ?_ ?_ ?_) fun _ _ => .bind (scalingFactor_raises s _ ?_ ?_ ?_ ?_) fun sfb hsfb =>
    .bind (checkEach_raises hlen (.elem (hcommon _ (by simp)))) fun _ _ =>
    .bind (checkEach_raises hlen (.elem (hcommon _ (by simp)))) fun _ hfit =>
    .bind (checkResidual_raises (scalingFactor_pos hd hsfb) hfit) fun _ _ =>
    .bind (checkEach_raises hlen (.elem (hcommon _ (by simp)))) fun _ _ => .ok _
  · rintro rfl; exact FaultOf.reg
  · rintro rfl; exact FaultOf.reg
  · rintro rfl; exact .reg (by cases sfs <;> simp [causesOf])
  · rintro rfl; exact FaultOf.reg
  · rintro rfl; exact FaultOf.reg
  · rintro rfl; exact .noElem (by cases ofs <;> simp [causesOf])
  · rintro rfl; exact .reg (by cases ofs <;> simp [causesOf])

theorem ordqResult_raises (s : State) : RaisesOnly (FaultOf .ordq s.n.toNat) (ordqResult s) := by
  refine .bind_elementCount <| .bind (suppliedSf_raises s .reg .reg) fun sf _ =>
    .bind (finiteScalar_raises _ _ .reg) fun o _ => .bind (signElems_raises _ .elem) fun signs hsigns =>
    .bind (readElems_raises _ _ _) fun iops _ => .bind (readElems_raises _ _ _) fun dops _ =>
    .bind (roundElems_raises _ ?_ .elem) fun recon _ => .ok _
  simp [offsetValues, length_of_forIndex hsigns]

theorem emResult_raises (s : State) : RaisesOnly (FaultOf .em s.n.toNat) (emResult s) := by
  refine .bind_elementCount <| .bind (finiteElems_raises _ _ .elem) fun o _ =>
    .bind (finiteElems_raises _ _ .elem) fun r _ => ?_
  cases s.cfg.flen.fl (exactMse o r) with
  | none => exact .raise FaultOf.reg
  | some mse => exact .ok _

/-- Every command raises only faults of its column of 60_exceptions.md R169, reported as R164 says. -/
theorem commandResult_raises (i : Instr) (s : State) : RaisesOnly (FaultOf i s.n.toNat) (commandResult i s) := by
  cases i with
  | uq w => exact uqResult_raises w s
  | udq w => exact udqResult_raises w s
  | asmq w sfs => exact asmqResult_raises w sfs s
  | asmdq e => exact asmdqResult_raises e s
  | orq w sfs ofs => exact orqResult_raises w sfs ofs s
  | ordq => exact ordqResult_raises s
  | em => exact emResult_raises s

end Machine

end Sys2Proof
end

section
/-! SUPPORT. The invariant of every step, with a name for each of its parts: it holds after reset (O6), and every event keeps it
(O7). -/

namespace Sys2Proof.Machine

/-! ## Patterns within `FLEN` bits -/

theorem fitsFlen_zero (f : FloatWidth) : fitsFlen f 0 = true := by cases f <;> decide

theorem fitsFlen_of_fl {f : FloatWidth} {x : ℚ} {b : Word} (h : f.fl x = some b) : fitsFlen f b = true :=
  (fl_spec f h).2.1

/-- What stands for a rounded value where the spec shows that none overflows fits too. -/
theorem fitsFlen_fl_getD (f : FloatWidth) (x : ℚ) : fitsFlen f ((f.fl x).getD 0) = true := by
  cases h : f.fl x with
  | none => exact fitsFlen_zero f
  | some b => exact fitsFlen_of_fl h

theorem fitsFlen_flFits (f : FloatWidth) (x : ℚ) : fitsFlen f (f.flFits x) = true := fitsFlen_fl_getD f x

theorem fitsFlen_psnr (f : FloatWidth) (mse peak : ℚ) : fitsFlen f (f.psnr mse peak) = true := by
  unfold FloatWidth.psnr
  split
  · cases f <;> decide
  · split
    · cases f <;> decide
    · unfold FloatWidth.flLog10
      split <;> exact fitsFlen_fl_getD f _

theorem fitsFlen_keepFlen (f : FloatWidth) (v : Word) : fitsFlen f (keepFlen f v) = true := by
  rw [fitsFlen, decide_eq_true_eq]
  cases f with
  | b32 => simp only [keepFlen, FloatWidth.bits, BitVec.toNat_setWidth]; omega
  | b64 => exact v.isLt

theorem fitsFlen_of_roundElems {f : FloatWidth} {b : Buf} {vs : List ℚ} {ws : List Word}
    (h : roundElems f b vs = .ok ws) : ∀ r ∈ ws, fitsFlen f r = true := by
  intro r hr
  have hmem : some r ∈ vs.map f.fl := by
    rw [(roundElems_ok_iff f b vs ws).1 h]; exact List.mem_map_of_mem hr
  obtain ⟨v, -, hv⟩ := List.mem_map.1 hmem
  exact fitsFlen_of_fl hv

/-- The factor a quantizer stores fits, supplied or inferred. -/
theorem fitsFlen_storedSf {sfs : Bool} {s : State} {a : List ℚ} {sfb : Word} (hsf : fitsFlen s.cfg.flen s.sf = true)
    (h : scalingFactor sfs s a = .ok sfb) : fitsFlen s.cfg.flen (if sfs then s.sf else sfb) = true := by
  cases sfs with
  | true => exact hsf
  | false =>
    have hinfer : inferSf s.cfg.flen a = .ok sfb := h
    simp only [inferSf] at hinfer
    split at hinfer
    · cases hinfer
    · split at hinfer <;> cases hinfer
      exact fitsFlen_of_fl ‹_›

/-- The offset `ORQ` stores fits, supplied or inferred. -/
theorem fitsFlen_storedOffset {ofs : Bool} {s : State} (a : List ℚ) (hof : fitsFlen s.cfg.flen s.offset = true) :
    fitsFlen s.cfg.flen (if ofs then s.offset else offsetBits ofs s a) = true := by
  cases ofs with
  | true => exact hof
  | false => exact fitsFlen_flFits _ _

/-! ## Legal reports -/

/-- `STATUS` and `FINFO` after a success are a legal report, whatever they were before (60_exceptions.md R167). -/
theorem legalReport_success (old : BitVec 17) : legalReport (statusSuccess old) finfoNone = true := by
  rw [statusSuccess]; cases statusSticky old <;> decide

/-- After a fault of any cause but `RESIDUAL`, with the information R164 gives it (60_exceptions.md R166). -/
theorem legalReport_fault {c : Cause} {info : BitVec 36} (hc : c ≠ .residual) (h : legalInfo c info = true) :
    legalReport (statusFault c) info = true := by
  have hmem : c ∈ reachableCauses := by
    cases c with
    | residual => exact absurd rfl hc
    | _ => decide
  rw [legalReport, Bool.or_eq_true, List.any_eq_true]
  exact .inr ⟨c, hmem, by simp [h]⟩

theorem residual_notMem_causesOf (i : Instr) : Cause.residual ∉ causesOf i := by
  cases i with
  | asmq _ sfs => cases sfs <;> simp [causesOf]
  | asmdq e => cases e <;> simp [causesOf]
  | orq _ sfs ofs => cases sfs <;> cases ofs <;> simp [causesOf]
  | _ => simp [causesOf]

theorem legalReport_faultOf {i : Instr} {n : Nat} {c : Cause} {info : BitVec 36} (h : FaultOf i n c info) :
    legalReport (statusFault c) info = true :=
  legalReport_fault (fun hc => residual_notMem_causesOf i (hc ▸ h.cause_mem)) h.legal

/-- A word that is no command has one of the three causes of an illegal command (30_encoding.md R75). -/
theorem decode_error {v : Word} {c : Cause} (h : decode v = .error c) :
    c = .fieldReserved ∨ c = .opReserved ∨ c = .wRange := by
  unfold decode at h
  split at h
  · cases h; exact .inl rfl
  · split at h
    · cases h; exact .inr (.inl rfl)
    · split at h
      · cases h; exact .inl rfl
      · split at h <;> cases h
        exact .inr (.inr rfl)

theorem legalReport_illegal {v : Word} {c : Cause} (h : decode v = .error c) :
    legalReport (statusFault c) finfoNone = true := by
  obtain rfl | rfl | rfl := decode_error h <;> exact legalReport_fault (by decide) rfl

/-! ## Buffers -/

/-- A buffer in canonical form with every index below `NMAX` (10_state.md R30; log 4). -/
structure Sound (c : Config) {w : Nat} (b : Buffer w) : Prop where
  canonical : Buffer.canonical b = true
  inRange : Buffer.inRange c b = true

/-- A sound buffer whose elements stand in `FLEN` bits (10_state.md R31; log 11). -/
structure FloatSound (c : Config) (b : Buffer 64) : Prop extends Sound c b where
  fits : Buffer.fits c.flen b = true

section
variable {c : Config} {w : Nat}

theorem Sound.nil : Sound c ([] : Buffer w) := ⟨rfl, rfl⟩

theorem FloatSound.nil : FloatSound c [] := ⟨.nil, rfl⟩

theorem Sound.write {b : Buffer w} (h : Sound c b) {i : Nat} (hi : i < c.nmax) (x : BitVec w) :
    Sound c (Buffer.write b i x) :=
  ⟨canonical_write b i x h.canonical, all_write _ b i x (decide_eq_true hi) h.inRange⟩

theorem FloatSound.write {b : Buffer 64} (h : FloatSound c b) {i : Nat} (hi : i < c.nmax) {x : Word}
    (hx : fitsFlen c.flen x = true) : FloatSound c (Buffer.write b i x) :=
  ⟨h.toSound.write hi x, all_write _ b i x hx h.fits⟩

theorem Sound.writeAll {b : Buffer w} (h : Sound c b) {xs : List (BitVec w)} (hn : xs.length ≤ c.nmax) :
    Sound c (Buffer.writeAll b xs) :=
  ⟨canonical_writeAll b xs h.canonical, all_writeAll _ xs b (fun _ hk => decide_eq_true (hk.trans_le hn)) h.inRange⟩

theorem FloatSound.writeAll {b : Buffer 64} (h : FloatSound c b) {xs : List Word} (hn : xs.length ≤ c.nmax)
    (hx : ∀ x ∈ xs, fitsFlen c.flen x = true) : FloatSound c (Buffer.writeAll b xs) :=
  ⟨h.toSound.writeAll hn, all_writeAll _ xs b (fun _ _ => hx _ (List.getElem_mem _)) h.fits⟩

end

/-! ## The invariant -/

/-- The conjuncts of `State.wf`, named. -/
structure WellFormed (s : State) : Prop where
  data : FloatSound s.cfg s.mem.data
  recon : FloatSound s.cfg s.mem.recon
  err : FloatSound s.cfg s.mem.err
  code : Sound s.cfg s.mem.code
  sign : Sound s.cfg s.mem.sign
  ipart : Sound s.cfg s.mem.ipart
  dpart : Sound s.cfg s.mem.dpart
  iopart : Sound s.cfg s.mem.iopart
  dopart : Sound s.cfg s.mem.dopart
  sf : fitsFlen s.cfg.flen s.sf = true
  offset : fitsFlen s.cfg.flen s.offset = true
  scale : fitsFlen s.cfg.flen s.scale = true
  min : fitsFlen s.cfg.flen s.min = true
  max : fitsFlen s.cfg.flen s.max = true
  mse : fitsFlen s.cfg.flen s.mse = true
  psnr : fitsFlen s.cfg.flen s.psnr = true
  report : legalReport s.status s.finfo = true

theorem wf_iff (s : State) : s.wf = true ↔ WellFormed s := by
  simp only [State.wf, Memory.wf, Memory.inRange, Bool.and_eq_true]
  constructor
  · rintro ⟨⟨⟨⟨⟨⟨⟨⟨⟨⟨⟨⟨⟨⟨⟨⟨⟨⟨⟨⟨c1, c2⟩, c3⟩, c4⟩, c5⟩, c6⟩, c7⟩, c8⟩, c9⟩, ⟨⟨⟨⟨⟨⟨⟨r1, r2⟩, r3⟩, r4⟩, r5⟩, r6⟩, r7⟩, r8⟩, r9⟩,
      f1⟩, f2⟩, f3⟩, sf⟩, offset⟩, scale⟩, min⟩, max⟩, mse⟩, psnr⟩, report⟩
    exact ⟨⟨⟨c1, r1⟩, f1⟩, ⟨⟨c2, r2⟩, f2⟩, ⟨⟨c3, r3⟩, f3⟩, ⟨c4, r4⟩, ⟨c5, r5⟩, ⟨c6, r6⟩, ⟨c7, r7⟩, ⟨c8, r8⟩, ⟨c9, r9⟩,
      sf, offset, scale, min, max, mse, psnr, report⟩
  · rintro ⟨⟨⟨c1, r1⟩, f1⟩, ⟨⟨c2, r2⟩, f2⟩, ⟨⟨c3, r3⟩, f3⟩, ⟨c4, r4⟩, ⟨c5, r5⟩, ⟨c6, r6⟩, ⟨c7, r7⟩, ⟨c8, r8⟩, ⟨c9, r9⟩,
      sf, offset, scale, min, max, mse, psnr, report⟩
    simp only [and_self, *]

theorem wellFormed_resetOf (c : Config) : WellFormed (State.resetOf c) :=
  have h0 := fitsFlen_zero c.flen
  ⟨.nil, .nil, .nil, .nil, .nil, .nil, .nil, .nil, .nil, h0, h0, h0, h0, h0, h0, h0, rfl⟩

/-- Settles O6: every buffer is empty, every register zero, and no command has been reported. -/
theorem resetIsWellFormed : Obligations.ResetIsWellFormed :=
  have h := fun c => (wf_iff _).2 (wellFormed_resetOf c)
  ⟨h, h Config.suggested⟩

section
variable {s u : State}

theorem WellFormed.succeed (h : WellFormed s) : WellFormed (succeed s) := { h with report := legalReport_success _ }

theorem WellFormed.takeFault (h : WellFormed s) {c : Cause} {info : BitVec 36}
    (hr : legalReport (statusFault c) info = true) : WellFormed (takeFault c info s) := { h with report := hr }

theorem WellFormed.respond (h : WellFormed s) (r : Response) : WellFormed (respond r s) := { h with }

theorem WellFormed.storeCmd (h : WellFormed s) (v : Word) : WellFormed (storeCmd v s) := { h with }

theorem WellFormed.resetBlock (s : State) : WellFormed (resetBlock s) := { wellFormed_resetOf s.cfg with }

theorem WellFormed.writeElement (h : WellFormed s) {b : Buf} {i : Nat} (hi : i < s.cfg.nmax) (v : Word) :
    WellFormed { s with mem := writeElement s.cfg.flen s.mem b i v } := by
  have hkept := fitsFlen_keepFlen s.cfg.flen v
  cases b with
  | data => exact { h with data := h.data.write hi hkept }
  | recon => exact { h with recon := h.recon.write hi hkept }
  | err => exact { h with err := h.err.write hi hkept }
  | code => exact { h with code := h.code.write hi _ }
  | sign => exact { h with sign := h.sign.write hi _ }
  | ipart => exact { h with ipart := h.ipart.write hi _ }
  | dpart => exact { h with dpart := h.dpart.write hi _ }
  | iopart => exact { h with iopart := h.iopart.write hi _ }
  | dopart => exact { h with dopart := h.dopart.write hi _ }

/-- The rule of a command keeps the invariant: it writes at most `N` elements, and only patterns that `fl` delivers. -/
theorem WellFormed.commandResult (hs : WellFormed s) {i : Instr} (h : commandResult i s = .ok u) : WellFormed u := by
  cases i with
  | uq c =>
    obtain ⟨⟨-, hn⟩, d, scale, -, hlen, hscale, rfl⟩ := uqResult_ok h
    exact { hs with
      code := hs.code.writeAll (by simp [hlen, hn])
      scale := fitsFlen_of_fl hscale
      min := fitsFlen_flFits _ _
      max := fitsFlen_flFits _ _ }
  | udq c =>
    obtain ⟨⟨-, hn⟩, codes, -, hlen, rfl⟩ := udqResult_ok h
    refine { hs with recon := hs.recon.writeAll (by simp [hlen, hn]) fun x hx => ?_ }
    obtain ⟨v, -, rfl⟩ := List.mem_map.1 hx
    exact fitsFlen_flFits _ v
  | asmq c sfs =>
    obtain ⟨⟨-, hn⟩, d, sfb, -, hlen, hsfb, rfl⟩ := asmqResult_ok h
    exact { hs with
      sign := hs.sign.writeAll (by simp [hlen, hn])
      ipart := hs.ipart.writeAll (by simp [hlen, hn])
      dpart := hs.dpart.writeAll (by simp [hlen, hn])
      sf := fitsFlen_storedSf hs.sf hsfb }
  | asmdq e =>
    obtain ⟨⟨-, hn⟩, -, _, _, _, _, recon, err, hrecon, hrlen, herr, helen, -, rfl⟩ := asmdqResult_ok h
    exact { hs with
      recon := hs.recon.writeAll (hrlen.trans_le hn) (fitsFlen_of_roundElems hrecon)
      err := hs.err.writeAll (helen.trans hn) (fitsFlen_of_roundElems herr) }
  | orq c sfs ofs =>
    obtain ⟨⟨-, hn⟩, d, sfb, -, hlen, hsfb, rfl⟩ := orqResult_ok h
    exact { hs with
      sign := hs.sign.writeAll (by simp [hlen, hn])
      iopart := hs.iopart.writeAll (by simp [hlen, hn])
      dopart := hs.dopart.writeAll (by simp [hlen, hn])
      sf := fitsFlen_storedSf hs.sf hsfb
      offset := fitsFlen_storedOffset _ hs.offset }
  | ordq =>
    obtain ⟨⟨-, hn⟩, -, _, _, _, recon, hrecon, hlen, rfl⟩ := ordqResult_ok h
    exact { hs with recon := hs.recon.writeAll (hlen.trans_le hn) (fitsFlen_of_roundElems hrecon) }
  | em =>
    obtain ⟨-, o, r, mse, -, -, hmse, rfl⟩ := emResult_ok h
    exact { hs with mse := fitsFlen_of_fl hmse, psnr := fitsFlen_psnr _ _ _ }

theorem WellFormed.exec (hs : WellFormed s) {i : Instr} {t : State} (h : exec i s = .next t) : WellFormed t := by
  obtain ⟨u, hu, rfl⟩ | ⟨c, info, hraise, rfl⟩ := (exec_next_iff i s t).1 h
  · exact (hs.commandResult hu).succeed
  · exact hs.takeFault (legalReport_faultOf (commandResult_raises i s c info hraise))

theorem WellFormed.performed (hs : WellFormed s) {e : HostEvent} {t : State} (h : Performed e s t) : WellFormed t := by
  have hkept := fun v => fitsFlen_keepFlen s.cfg.flen v
  cases h with
  | answer e r => exact hs.respond r
  | setN a v => exact { hs with }
  | setSf a v => exact { hs with sf := hkept v }
  | setOffset a v => exact { hs with offset := hkept v }
  | setScale a v => exact { hs with scale := hkept v }
  | setMin a v => exact { hs with min := hkept v }
  | setMax a v => exact { hs with max := hkept v }
  | setElem a v _ b i hi => exact (hs.writeElement hi v).respond .done
  | command a v i _ ht => exact (hs.storeCmd v).exec ht
  | illegal a v c _ hv => exact (hs.storeCmd v).takeFault (legalReport_illegal hv)
  | reset => exact .resetBlock s

end

/-- Settles O7: the invariant does not read the host's list, and whatever the next event does keeps it. -/
theorem stepKeepsWellFormed : Obligations.StepKeepsWellFormed := by
  intro s t hwf h
  rw [wf_iff] at hwf ⊢
  obtain ⟨-, rfl⟩ | ⟨e, rest, -, hperf⟩ := step_next_cases h
  · exact hwf
  · have hnext : WellFormed { s with pending := rest } := { hwf with }
    exact hnext.performed hperf

end Sys2Proof.Machine
end

section
/-! SUPPORT. The host port: where the slots lead (20_memory.md R56), what each transaction answers (R52, R53), and the statements
about them (O17 to O22). -/

namespace Sys2Proof.Machine

/-! ## The slot map -/

@[simp] theorem bufOfNumber_number (b : Buf) : bufOfNumber b.number = some b := by cases b <;> rfl

theorem regOfSlot_eq_none {a : Nat} (h : 0x0B ≤ a) : regOfSlot a = none := by
  obtain ⟨d, rfl⟩ := Nat.exists_eq_add_of_le' h
  rfl

theorem bufOfNumber_eq_none {k : Nat} (h : 10 ≤ k) : bufOfNumber k = none := by
  obtain ⟨d, rfl⟩ := Nat.exists_eq_add_of_le' h
  rfl

theorem nmax_pos (c : Config) : 0 < c.nmax := Nat.two_pow_pos c.aw

/-- The slot address of an element below the capacity leads to it (20_memory.md R56). -/
theorem slotOf_elemSlot (c : Config) (b : Buf) {i : Nat} (hi : i < c.nmax) : slotOf c (elemSlot c b i) = .elem b i := by
  have hbuf : 1 ≤ b.number := by cases b <;> decide
  have habove : ¬ elemSlot c b i < c.nmax :=
    Nat.not_lt.2 ((Nat.le_mul_of_pos_left _ hbuf).trans (Nat.le_add_right _ i))
  have hdiv : elemSlot c b i / c.nmax = b.number := by
    rw [elemSlot, Nat.mul_comm, Nat.mul_add_div (nmax_pos c), Nat.div_eq_of_lt hi, Nat.add_zero]
  have hmod : elemSlot c b i % c.nmax = i := by rw [elemSlot, Nat.mul_add_mod', Nat.mod_eq_of_lt hi]
  simp only [slotOf, if_neg habove, hdiv, hmod, bufOfNumber_number]

/-- The slots between the registers and the buffers, and those above the last buffer, are unmapped (20_memory.md R56). -/
theorem slotOf_unmapped {c : Config} {a : Nat} (h : (0x0B ≤ a ∧ a < c.nmax) ∨ 10 * c.nmax ≤ a) :
    slotOf c a = .unmapped := by
  obtain ⟨hreg, hlt⟩ | hbuf := h
  · simp only [slotOf, if_pos hlt, regOfSlot_eq_none hreg]
  · have hpos := nmax_pos c
    have hk : 10 ≤ a / c.nmax := (Nat.le_div_iff_mul_le hpos).2 hbuf
    have hge : ¬ a < c.nmax := by omega
    simp only [slotOf, if_neg hge, bufOfNumber_eq_none hk]

/-! ## The transactions of a step -/

section
variable (s : State) (rest : List HostEvent) (v : Word)

theorem step_read_reg (r : Reg) :
    step { s with pending := .read r.slot :: rest } =
      .next { s with pending := rest, response := some (.data (readReg s r)) } := by
  rw [step_cons rfl]
  simp only [perform, hostRead, slotOf_regSlot]
  rfl

theorem step_write_reg (r : Reg) :
    step { s with pending := .write r.slot v :: rest } = writeReg r v { s with pending := rest } := by
  rw [step_cons rfl]
  simp only [perform, hostWrite, slotOf_regSlot]

theorem step_read_elem {b : Buf} {i : Nat} (hi : i < s.cfg.nmax) (hv : readElement s.mem b i = some v) :
    step { s with pending := .read (elemSlot s.cfg b i) :: rest } =
      .next { s with pending := rest, response := some (.data v) } := by
  rw [step_cons rfl]
  simp only [perform, hostRead, slotOf_elemSlot s.cfg b hi, hv]
  rfl

theorem step_write_elem (b : Buf) {i : Nat} (hi : i < s.cfg.nmax) :
    step { s with pending := .write (elemSlot s.cfg b i) v :: rest } =
      .next { s with mem := writeElement s.cfg.flen s.mem b i v, pending := rest, response := some .done } := by
  rw [step_cons rfl]
  simp only [perform, hostWrite, slotOf_elemSlot s.cfg b hi]
  rfl

theorem step_read_unmapped {a : Nat} (h : slotOf s.cfg a = .unmapped) :
    step { s with pending := .read a :: rest } = .next { s with pending := rest, response := some .error } := by
  rw [step_cons rfl]
  simp only [perform, hostRead, h]
  rfl

theorem step_write_unmapped {a : Nat} (h : slotOf s.cfg a = .unmapped) :
    step { s with pending := .write a v :: rest } = .next { s with pending := rest, response := some .error } := by
  rw [step_cons rfl]
  simp only [perform, hostWrite, h]
  rfl

end

/-! ## The bits kept, and an element read after a write -/

/-- Zero-extending the low 32 bits clears the bits above them. -/
theorem low32_zeroExtended (v : Word) : (v.setWidth 32).setWidth 64 = v &&& 0xFFFFFFFF := by
  apply BitVec.eq_of_toNat_eq
  have hmask : v.toNat &&& 0xFFFFFFFF = v.toNat % 2 ^ 32 := Nat.and_two_pow_sub_one_eq_mod _ 32
  simp only [BitVec.toNat_setWidth, BitVec.toNat_and, BitVec.reduceToNat, hmask]
  omega

theorem keepFlen_eq (f : FloatWidth) (v : Word) : keepFlen f v = if f = .b32 then v &&& 0xFFFFFFFF else v := by
  cases f with
  | b32 => exact low32_zeroExtended v
  | b64 => rfl

/-- A read of an element after a host write of it gives the low bits kept, extended (10_state.md R31). -/
theorem readElement_writeElement_same (f : FloatWidth) (m : Memory) (b : Buf) (i : Nat) (v : Word) :
    readElement (writeElement f m b i v) b i = some (readBack f b v) := by
  cases b with
  | data | recon | err => simp [readElement, writeElement, readBack, keepFlen_eq]
  | code | ipart => simp [readElement, writeElement, readBack, low32_zeroExtended]
  | sign | iopart => simp [readElement, writeElement, readBack, BitVec.setWidth_eq_extractLsb']
  | dpart | dopart => simp [readElement, writeElement, readBack]

/-- A host write of an element leaves the other elements of its buffer, and every other buffer. -/
theorem readElement_writeElement_other (f : FloatWidth) (m : Memory) {b c : Buf} {i j : Nat} (v : Word)
    (h : c ≠ b ∨ j ≠ i) : readElement (writeElement f m b i v) c j = readElement m c j := by
  by_cases hc : c = b
  · subst c
    have hj : j ≠ i := h.resolve_left (not_not_intro rfl)
    cases b <;> simp only [readElement, writeElement, read_write_other _ _ hj]
  · -- each buffer is a field of its own, and the write replaces the field of `b`
    revert hc
    cases b <;> cases c <;> simp [readElement, writeElement]

/-! ## The statements -/

/-- Settles O17: the slot address of a register leads to it. -/
theorem hostReadsRegisters : Obligations.HostReadsRegisters := by
  intro s rest
  have reads := step_read_reg s rest
  exact ⟨reads .cmd, reads .status, reads .finfo, reads .n, reads .sf, reads .offset, reads .scale, reads .min, reads .max,
    reads .mse, reads .psnr⟩

/-- Settles O18: the slot address of an element leads to it, and the port extends the stored bits as `readElement` does. -/
theorem hostReadsElements : Obligations.HostReadsElements := by
  intro s rest i hi
  have reads (b : Buf) {v : Word} := step_read_elem s rest v (b := b) hi
  exact ⟨fun _ h => reads .data h, fun _ h => reads .recon h, fun _ h => reads .err h,
    fun _ h => reads .code (congrArg (Option.map _) h), fun _ h => reads .sign (congrArg (Option.map _) h),
    fun _ h => reads .ipart (congrArg (Option.map _) h), fun _ h => reads .dpart h,
    fun _ h => reads .iopart (congrArg (Option.map _) h), fun _ h => reads .dopart h⟩

/-- Settles O19: `keepFlen` keeps the low `FLEN` bits, and `N` the low 32. -/
theorem hostWritesRegisters : Obligations.HostWritesRegisters := by
  intro s rest v
  have writes := step_write_reg s rest v
  have hn : v.setWidth 32 = v.extractLsb' 0 32 := BitVec.setWidth_eq_extractLsb' (by decide)
  simp only [← keepFlen_eq, ← hn]
  exact ⟨writes .n, writes .sf, writes .offset, writes .scale, writes .min, writes .max⟩

/-- Settles O20: the write is `writeElement`, read back at the same element and at any other. -/
theorem hostWritesElements : Obligations.HostWritesElements := fun s rest b i v hi =>
  ⟨writeElement s.cfg.flen s.mem b i v, step_write_elem s rest v b hi, readElement_writeElement_same ..,
    fun _ _ h => readElement_writeElement_other _ _ v h⟩

/-- Settles O21: the error response comes from an unmapped slot or from a read-only register. -/
theorem portErrorsChangeNothing : Obligations.PortErrorsChangeNothing := by
  intro s rest a v
  have writes := step_write_reg s rest v
  refine ⟨fun h => ?_, writes .status, writes .finfo, writes .mse, writes .psnr⟩
  have hslot := slotOf_unmapped h
  exact ⟨step_read_unmapped s rest hslot, step_write_unmapped s rest v hslot⟩

/-- Settles O22: the host's list is empty, so the step is idle. -/
theorem idleBlockHoldsItsState : Obligations.IdleBlockHoldsItsState := by
  intro s hidle
  simp only [step, hostStep, hidle]

end Sys2Proof.Machine
end

section
/-! SUPPORT. The command word as its six fields (30_encoding.md R71): a word is the encoder's exactly when its fields are those
the encoder gives it, and it decodes to a command exactly when it is that command's word. The statements about the encoding
(O1 to O4, O24) follow from that. -/

namespace Sys2Proof

/-! ## The fields of a word, and of the encoder's word, as numbers -/

section
variable (v : Word)

theorem toNat_cmdOp : (cmdOp v).toNat = v.toNat % 16 := by
  rw [cmdOp, BitVec.extractLsb'_toNat, Nat.shiftRight_zero]

theorem toNat_cmdW : (cmdW v).toNat = v.toNat / 16 % 64 := by
  rw [cmdW, BitVec.extractLsb'_toNat, Nat.shiftRight_eq_div_pow]

theorem toNat_cmdSfs : (cmdSfs v).toNat = v.toNat / 1024 % 2 := Nat.toNat_testBit v.toNat 10

theorem toNat_cmdOfs : (cmdOfs v).toNat = v.toNat / 2048 % 2 := Nat.toNat_testBit v.toNat 11

theorem toNat_cmdE : (cmdE v).toNat = v.toNat / 4096 % 2 := Nat.toNat_testBit v.toNat 12

theorem toNat_cmdReserved : (cmdReserved v).toNat = v.toNat / 8192 := by
  have hlt : v.toNat / 8192 < 2 ^ 51 := by omega
  rw [cmdReserved, BitVec.extractLsb'_toNat, Nat.shiftRight_eq_div_pow, Nat.mod_eq_of_lt hlt]

end

theorem toNat_append_add {m n : Nat} (x : BitVec m) (y : BitVec n) : (x ++ y).toNat = x.toNat * 2 ^ n + y.toNat := by
  rw [BitVec.toNat_append, ← Nat.shiftLeft_add_eq_or_of_lt y.isLt, Nat.shiftLeft_eq]

theorem bool_toNat_inj {a b : Bool} : a.toNat = b.toNat ↔ a = b :=
  (Function.LeftInverse.injective Bool.ofNat_toNat).eq_iff

section
variable (op : BitVec 4) (w : BitVec 6) (sfs ofs e : Bool)

theorem toNat_commandWord :
    (commandWord op w sfs ofs e).toNat =
      op.toNat + 16 * w.toNat + 1024 * sfs.toNat + 2048 * ofs.toNat + 4096 * e.toNat := by
  have happend : (commandWord op w sfs ofs e).toNat = _ := toNat_append_add _ op
  simp only [happend, toNat_append_add, BitVec.toNat_ofBool, BitVec.toNat_ofNat]
  omega

/-- A word is a command word exactly when its fields are that word's and its reserved bits are zero. -/
theorem eq_commandWord_iff {v : Word} : v = (commandWord op w sfs ofs e).setWidth 64 ↔
    cmdReserved v = 0 ∧ cmdE v = e ∧ cmdOfs v = ofs ∧ cmdSfs v = sfs ∧ cmdW v = w ∧ cmdOp v = op := by
  have hsfs := sfs.toNat_lt
  have hofs := ofs.toNat_lt
  have he := e.toNat_lt
  simp only [← BitVec.toNat_inj, ← bool_toNat_inj, toNat_cmdReserved, toNat_cmdE, toNat_cmdOfs, toNat_cmdSfs, toNat_cmdW,
    toNat_cmdOp, BitVec.toNat_setWidth, toNat_commandWord, BitVec.ofNat_eq_ofNat, BitVec.toNat_ofNat]
  omega

end

/-- The mask of a row whose command uses those of `W`, `SFS`, `OFS` and `E` that are `true` here: it covers all but their
bits (30_encoding.md R74). -/
abbrev IsRowMask (mask : Word) (w sfs ofs e : Bool) : Prop :=
  cmdReserved mask = .allOnes 51 ∧ cmdE mask = !e ∧ cmdOfs mask = !ofs ∧ cmdSfs mask = !sfs ∧
    cmdW mask = (if w then 0 else .allOnes 6) ∧ cmdOp mask = .allOnes 4

/-- A word under a row's mask is the row's `match` exactly when its `OP` is the row's and it sets no bit that the row does
not use (30_encoding.md R74). -/
theorem and_mask_eq_iff {mask m : Word} {op : BitVec 4} {w sfs ofs e : Bool} (hmask : IsRowMask mask w sfs ofs e)
    (hm : m = (commandWord op 0 false false false).setWidth 64) (v : Word) :
    v &&& mask = m ↔ cmdReserved v = 0 ∧ (cmdE v = true → e = true) ∧ (cmdOfs v = true → ofs = true) ∧
      (cmdSfs v = true → sfs = true) ∧ (w = true ∨ cmdW v = 0) ∧ cmdOp v = op := by
  obtain ⟨hres, he, hofs, hsfs, hw, hop⟩ := hmask
  rw [hm, eq_commandWord_iff]
  simp only [cmdReserved, cmdE, cmdOfs, cmdSfs, cmdW, cmdOp, BitVec.extractLsb'_and, BitVec.getLsbD_and] at *
  rw [hres, he, hofs, hsfs, hw, hop, BitVec.and_allOnes, BitVec.and_allOnes]
  cases w
  · rw [if_neg Bool.false_ne_true, BitVec.and_allOnes]; simp
  · simp

/-! ## The four tests of the decoder (30_encoding.md R75) -/

/-- The spec names the reserved bits in two parts, 63:32 and 31:13 (30_encoding.md R71); the model takes them as one field. -/
theorem cmdReserved_ne_zero_iff (v : Word) : v.extractLsb' 32 32 ≠ 0 ∨ v.extractLsb' 13 19 ≠ 0 ↔ cmdReserved v ≠ 0 := by
  simp only [ne_eq, ← BitVec.toNat_inj, toNat_cmdReserved, BitVec.extractLsb'_toNat, Nat.shiftRight_eq_div_pow,
    BitVec.ofNat_eq_ofNat, BitVec.toNat_ofNat]
  omega

/-- The command that `OP` alone gives a word (30_encoding.md R70), its operands read from the word's other fields. -/
inductive OfOp (v : Word) : Instr → Prop
  | uq (hop : cmdOp v = 1) : OfOp v (.uq (cmdW v))
  | udq (hop : cmdOp v = 2) : OfOp v (.udq (cmdW v))
  | asmq (hop : cmdOp v = 3) : OfOp v (.asmq (cmdW v) (cmdSfs v))
  | asmdq (hop : cmdOp v = 4) : OfOp v (.asmdq (cmdE v))
  | orq (hop : cmdOp v = 5) : OfOp v (.orq (cmdW v) (cmdSfs v) (cmdOfs v))
  | ordq (hop : cmdOp v = 6) : OfOp v .ordq
  | em (hop : cmdOp v = 7) : OfOp v .em

theorem ofOp_of_commandOfOp {v : Word} {i : Instr} (h : commandOfOp v = some i) : OfOp v i := by
  unfold commandOfOp at h
  split at h <;> cases h <;> constructor <;> exact BitVec.eq_of_toNat_eq ‹_›

theorem commandOfOp_eq_none_iff {v : Word} : commandOfOp v = none ↔ (cmdOp v).toNat = 0 ∨ 8 ≤ (cmdOp v).toNat := by
  unfold commandOfOp
  generalize (cmdOp v).toNat = op
  split
  case h_8 => exact ⟨fun _ => by grind, fun _ => rfl⟩
  all_goals simp

theorem unusedFlagSet_iff {v : Word} {i : Instr} (h : commandOfOp v = some i) : unusedFlagSet i v = true ↔
    let op := (cmdOp v).toNat
    ((op = 1 ∨ op = 2 ∨ op = 6 ∨ op = 7) ∧ (cmdSfs v ∨ cmdOfs v ∨ cmdE v)) ∨ (op = 3 ∧ (cmdOfs v ∨ cmdE v)) ∨
      (op = 4 ∧ (cmdSfs v ∨ cmdOfs v)) ∨ (op = 5 ∧ cmdE v) := by
  cases ofOp_of_commandOfOp h <;> simp [*, unusedFlagSet, or_assoc]

theorem legalWidth_iff (w : BitVec 6) : legalWidth w = true ↔ 1 ≤ w.toNat ∧ w.toNat ≤ 32 := by
  rw [legalWidth, Bool.and_eq_true, decide_eq_true_iff, decide_eq_true_iff]

theorem not_widthInRange_iff {v : Word} {i : Instr} (h : commandOfOp v = some i) : ¬ widthInRange i v = true ↔
    let op := (cmdOp v).toNat
    ((op = 1 ∨ op = 2 ∨ op = 3 ∨ op = 5) ∧ ¬ (1 ≤ (cmdW v).toNat ∧ (cmdW v).toNat ≤ 32)) ∨
      ((op = 4 ∨ op = 6 ∨ op = 7) ∧ (cmdW v).toNat ≠ 0) := by
  cases ofOp_of_commandOfOp h <;> simp only [widthInRange, legalWidth_iff] <;> simp [*, ← BitVec.toNat_inj]

theorem decode_ok_iff_tests {v : Word} {i : Instr} : decode v = .ok i ↔
    cmdReserved v = 0 ∧ commandOfOp v = some i ∧ unusedFlagSet i v = false ∧ widthInRange i v = true := by
  constructor
  · intro h
    unfold decode at h
    split at h
    · cases h
    · split at h
      · cases h
      · split at h
        · cases h
        · split at h <;> cases h
          simp_all
  · rintro ⟨hres, hcmd, hflags, hwidth⟩
    simp [decode, hres, hcmd, hflags, hwidth]

/-- A word decodes to a command exactly when the command is well formed and the word is the encoder's. -/
theorem decode_ok_iff {v : Word} {i : Instr} : decode v = .ok i ↔ i.wellFormed = true ∧ v = cmdWrite i := by
  rw [decode_ok_iff_tests]
  constructor
  · rintro ⟨hres, hcmd, hflags, hwidth⟩
    cases ofOp_of_commandOfOp hcmd <;>
      simp_all [cmdWrite, encode, eq_commandWord_iff, unusedFlagSet, widthInRange, Instr.wellFormed]
  · rintro ⟨hwf, hv⟩
    cases i <;>
      simp_all [cmdWrite, encode, eq_commandWord_iff, commandOfOp, unusedFlagSet, widthInRange, Instr.wellFormed]

/-- A word decodes to a command exactly when its fields are those the encoder gives that command. -/
theorem decode_ok_iff_fields {v : Word} {i : Instr} {op : BitVec 4} {w : BitVec 6} {sfs ofs e : Bool}
    (hi : encode i = commandWord op w sfs ofs e) : decode v = .ok i ↔ i.wellFormed = true ∧
      cmdReserved v = 0 ∧ cmdE v = e ∧ cmdOfs v = ofs ∧ cmdSfs v = sfs ∧ cmdW v = w ∧ cmdOp v = op := by
  rw [decode_ok_iff, cmdWrite, hi, eq_commandWord_iff]

/-! ## The statements about the encoding -/

/-- Settles O1: the encoder's word of a well-formed command is the one word that decodes to it. -/
theorem encodedCommandsDecode : Obligations.EncodedCommandsDecode := fun _ hwf => decode_ok_iff.2 ⟨hwf, rfl⟩

/-- Settles O2: both sides of a row say what the six fields of the word are. -/
theorem opcodeMapRows : Obligations.OpcodeMapRows := by
  intro v
  have uniform : IsRowMask 0xFFFFFFFFFFFFFC0F true false false false := by decide
  have asmq : IsRowMask 0xFFFFFFFFFFFFF80F true true false false := by decide
  have asmdq : IsRowMask 0xFFFFFFFFFFFFEFFF false false false true := by decide
  have orq : IsRowMask 0xFFFFFFFFFFFFF00F true true true false := by decide
  refine ⟨fun w => ?_, fun w => ?_, fun w sfs => ?_, fun e => ?_, fun w sfs ofs => ?_,
    decode_ok_iff.trans (and_iff_right rfl), decode_ok_iff.trans (and_iff_right rfl)⟩
  · rw [decode_ok_iff_fields rfl, and_mask_eq_iff uniform (op := 1) (by decide)]
    grind [Instr.wellFormed, legalWidth_iff, cmdW]
  · rw [decode_ok_iff_fields rfl, and_mask_eq_iff uniform (op := 2) (by decide)]
    grind [Instr.wellFormed, legalWidth_iff, cmdW]
  · rw [decode_ok_iff_fields rfl, and_mask_eq_iff asmq (op := 3) (by decide)]
    grind [Instr.wellFormed, legalWidth_iff, cmdW, cmdSfs]
  · rw [decode_ok_iff_fields rfl, and_mask_eq_iff asmdq (op := 4) (by decide)]
    grind [Instr.wellFormed, cmdE]
  · rw [decode_ok_iff_fields rfl, and_mask_eq_iff orq (op := 5) (by decide)]
    grind [Instr.wellFormed, legalWidth_iff, cmdW, cmdSfs, cmdOfs]

/-- Settles O3: the branches of the statement are those of the decoder, test by test. -/
theorem illegalWordCauses : Obligations.IllegalWordCauses := by
  intro v op w sfs ofs e
  simp only [cmdReserved_ne_zero_iff]
  unfold decode
  split
  next => rfl
  next =>
  split
  next hop => rw [commandOfOp_eq_none_iff.2 hop]
  next hop =>
  obtain ⟨i, hcmd⟩ := Option.ne_none_iff_exists'.1 (mt commandOfOp_eq_none_iff.1 hop)
  rw [hcmd]
  split
  next hflag => exact if_pos ((unusedFlagSet_iff hcmd).2 hflag)
  next hflag =>
  simp only [if_neg (mt (unusedFlagSet_iff hcmd).1 hflag)]
  split
  next hw => exact if_neg ((not_widthInRange_iff hcmd).2 hw)
  next hw => exact ⟨i, if_pos (not_not.1 (mt (not_widthInRange_iff hcmd).1 hw))⟩

/-- Settles O24: the step is the `CMD` write, whose fault writes the `STATUS` word of the decoder's cause. -/
theorem illegalCommandsFault : Obligations.IllegalCommandsFault := by
  intro s rest v c hv
  refine ⟨Machine.statusFault c, ?_, ?_⟩
  · obtain rfl | rfl | rfl := Machine.decode_error hv <;> decide
  · refine (Machine.step_write_reg s rest v .cmd).trans ?_
    simp only [Machine.writeReg, Machine.writeCmd, hv]
    rfl

/-- Settles O4: the word of each line is the sum of its fields, and the fourteen words are decoded one by one. -/
theorem assemblerLines : Obligations.AssemblerLines := by
  refine ⟨fun b => ?_, by decide⟩
  simp only [encode, toNat_commandWord, Bool.toNat_false, Bool.toNat_true, BitVec.ofNat_eq_ofNat, BitVec.toNat_ofNat]
  omega

end Sys2Proof
end

section
/-! SUPPORT. The integer primitives of 40_numerics.md: rounding to the nearest integer (O30), the median (O35), and the
decimal exponent `kexp` (O36). -/

namespace Sys2Proof

/-! ## Rounding to an integer (R94) -/

/-- Rounding goes to the floor or the next integer, by the fraction, and to the even one of them at a tie. -/
theorem rnd_cases (x : ℚ) :
    (rnd x = ⌊x⌋ ∧ x - ⌊x⌋ ≤ 1 / 2 ∨ rnd x = ⌊x⌋ + 1 ∧ 1 / 2 ≤ x - ⌊x⌋) ∧ (x - ⌊x⌋ = 1 / 2 → Even (rnd x)) := by
  unfold rnd
  split
  next hlow => exact ⟨.inl ⟨rfl, hlow.le⟩, fun htie => absurd htie hlow.ne⟩
  next hlow =>
  split
  next hhigh => exact ⟨.inr ⟨rfl, hhigh.le⟩, fun htie => absurd htie hhigh.ne'⟩
  next hhigh =>
  split
  next heven => exact ⟨.inl ⟨rfl, not_lt.1 hhigh⟩, fun _ => Int.even_iff.2 heven⟩
  next hodd => exact ⟨.inr ⟨rfl, not_lt.1 hlow⟩, fun _ => Int.even_iff.2 (by omega)⟩

theorem abs_sub_rnd_le_half (x : ℚ) : |x - rnd x| ≤ 1 / 2 := by
  have hfloor := Int.floor_le x
  have hlt := Int.lt_floor_add_one x
  rw [abs_le]
  obtain ⟨⟨hr, hx⟩ | ⟨hr, hx⟩, -⟩ := rnd_cases x <;> rw [hr] <;> push_cast <;> constructor <;> linarith

/-- A number half-way between two integers is rounded to the even one. -/
theorem even_rnd_of_half {x : ℚ} (h : |x - rnd x| = 1 / 2) : Even (rnd x) := by
  obtain ⟨hcase, heven⟩ := rnd_cases x
  refine heven ?_
  have hfloor := Int.floor_le x
  have hlt := Int.lt_floor_add_one x
  obtain ⟨hr, hx⟩ | ⟨hr, hx⟩ := hcase
  · rw [hr, abs_of_nonneg (by linarith)] at h
    exact h
  · rw [hr, Int.cast_add, Int.cast_one, abs_of_neg (by linarith)] at h
    linarith

/-- An integer other than the rounded one is at least half away. -/
theorem half_le_abs_sub_of_ne_rnd {x : ℚ} {k : ℤ} (hk : k ≠ rnd x) : 1 / 2 ≤ |x - k| := by
  have hone : (1 : ℚ) ≤ |(rnd x : ℚ) - k| := by exact_mod_cast Int.one_le_abs (sub_ne_zero.2 hk.symm)
  have htri := abs_sub_le (rnd x : ℚ) x k
  rw [abs_sub_comm (rnd x : ℚ) x] at htri
  linarith [abs_sub_rnd_le_half x]

/-- No integer is nearer than the rounded one. -/
theorem abs_sub_rnd_le (x : ℚ) (k : ℤ) : |x - rnd x| ≤ |x - k| := by
  by_cases hk : k = rnd x
  · rw [hk]
  · exact (abs_sub_rnd_le_half x).trans (half_le_abs_sub_of_ne_rnd hk)

/-- Where another integer is as near, the rounded one is even. -/
theorem even_rnd_of_tie {x : ℚ} {k : ℤ} (hk : k ≠ rnd x) (h : |x - k| ≤ |x - rnd x|) : Even (rnd x) :=
  even_rnd_of_half (le_antisymm (abs_sub_rnd_le_half x) ((half_le_abs_sub_of_ne_rnd hk).trans h))

/-- An even integer is reached from half below it on. -/
theorem even_le_rnd_iff {x : ℚ} {n : ℤ} (hn : Even n) : n ≤ rnd x ↔ n - 1 / 2 ≤ x := by
  have hhalf := abs_sub_rnd_le_half x
  rw [abs_le] at hhalf
  constructor
  · intro h
    have : (n : ℚ) ≤ rnd x := by exact_mod_cast h
    linarith
  · intro h
    by_contra hlt
    have hle : rnd x ≤ n - 1 := by omega
    have hle' : (rnd x : ℚ) ≤ n - 1 := by exact_mod_cast hle
    have heq : rnd x = n - 1 := by
      refine le_antisymm hle (Int.cast_le (R := ℚ).1 ?_)
      push_cast; linarith
    have hcast : (rnd x : ℚ) = n - 1 := by exact_mod_cast heq
    have hodd := even_rnd_of_half (x := x) (by rw [abs_of_nonneg] <;> linarith)
    rw [heq, Int.even_sub_one] at hodd
    exact hodd hn

theorem rnd_intCast (n : ℤ) : rnd (n : ℚ) = n := by simp [rnd]

/-- Settles O30: the two lemmas on `rnd`, and the five listed values by evaluation. -/
theorem roundingToIntegerTiesToEven : Obligations.RoundingToIntegerTiesToEven := by
  refine ⟨fun x => ⟨abs_sub_rnd_le x, fun htie => ?_⟩, by decide +kernel⟩
  obtain ⟨hcase, heven⟩ := rnd_cases x
  exact ⟨heven htie, hcase.imp And.left And.left⟩

/-! ## The median (R97) -/

/-- A list of integers has one non-decreasing rearrangement, the one the model sorts it to. -/
theorem insertionSort_eq_of_perm {v s : List ℤ} (hperm : s.Perm v) (hs : s.Pairwise (· ≤ ·)) :
    v.insertionSort (· ≤ ·) = s :=
  ((List.perm_insertionSort (· ≤ ·) v).trans hperm.symm).eq_of_pairwise' (List.pairwise_insertionSort _ v) hs

/-- Settles O35: the list the model sorts is the given rearrangement. -/
theorem medianOfSortedIntegers : Obligations.MedianOfSortedIntegers := by
  intro v s _ hperm hs
  simp only [median, insertionSort_eq_of_perm hperm hs]

/-! ## The decimal exponent (R98) -/

/-- `kexp` is the least exponent whose power of ten brings the number to 1 or above. -/
theorem kexp_le_iff {m : ℚ} (hm : 0 < m) (k : ℤ) : kexp m ≤ k ↔ 1 ≤ (10 : ℚ) ^ k * m := by
  rw [kexp, ← Int.le_zpow_iff_clog_le (by decide) (inv_pos.2 hm), Nat.cast_ofNat, inv_le_iff_one_le_mul₀ hm]

theorem kexp_eq_iff {m : ℚ} (hm : 0 < m) (k : ℤ) : kexp m = k ↔ 1 ≤ (10 : ℚ) ^ k * m ∧ (10 : ℚ) ^ k * m < 10 := by
  have hpred : kexp m ≤ k - 1 ↔ 10 ≤ (10 : ℚ) ^ k * m := by
    rw [kexp_le_iff hm, zpow_sub_one₀ (by norm_num), mul_right_comm, le_mul_inv_iff₀ (by norm_num), one_mul]
  rw [← kexp_le_iff hm, ← not_le, ← hpred]
  omega

/-- `kexp m` is `ceil(-log10 m)` of the real logarithm. -/
theorem kexp_eq_ceil {m : ℚ} (hm : 0 < m) : kexp m = ⌈-Real.logb 10 m⌉ := by
  have hmR : (0 : ℝ) < m := by exact_mod_cast hm
  refine eq_of_forall_ge_iff fun k => ?_
  rw [kexp_le_iff hm, Int.ceil_le, ← Real.logb_inv, Real.logb_le_iff_le_rpow (by norm_num) (inv_pos.2 hmR),
    Real.rpow_intCast, inv_le_iff_one_le_mul₀ hmR, ← Rat.cast_le (K := ℝ)]
  push_cast
  rfl

/-- Settles O36: each clause is `1 ≤ 10^k * m` for one exponent `k`. -/
theorem kexpIsTheLeastExponent : Obligations.KexpIsTheLeastExponent := by
  refine ⟨fun m hm => ⟨kexp_eq_ceil hm, (kexp_le_iff hm _).1 le_rfl, fun k => (kexp_le_iff hm k).2, ?_, fun h => ?_,
    fun h => ?_⟩, ?_⟩
  · simpa using kexp_eq_iff hm 0
  · rw [kexp_le_iff hm, zpow_neg_one, le_inv_mul_iff₀ (by norm_num)]; linarith
  · have h0 : ¬ kexp m ≤ 0 := by rwa [kexp_le_iff hm, zpow_zero, one_mul, not_le]
    omega
  · have milli : FloatWidth.b64.val 0x3F50624DD2F1A9FC = 0x10624DD2F1A9FC * (2 : ℚ) ^ (-62 : ℤ) := by
      decide +kernel
    have micro : FloatWidth.b64.val 0x3EB0C6F7A0B5ED8D = 0x10C6F7A0B5ED8D * (2 : ℚ) ^ (-72 : ℤ) := by
      decide +kernel
    rw [milli, micro]
    refine ⟨?_, ?_, ?_, ?_, ?_, ?_, ?_, ?_⟩ <;> rw [kexp_eq_iff (by norm_num)] <;> norm_num

end Sys2Proof
end

section
/-! SUPPORT. The one rounding `fl` of 40_numerics.md R92: its result is a multiple of the unit at its argument, no finite
pattern is nearer (O32), it overflows from the threshold on (O33), its error and monotonicity (O34), and its fixed points (O31). -/

namespace Sys2Proof

variable {f : FloatWidth} {x : ℚ}

/-! ## The unit of the last place -/

theorem two_le_precision (f : FloatWidth) : 2 ≤ f.precision := by cases f <;> decide

theorem emin_le_emax (f : FloatWidth) : f.emin ≤ f.emax := by cases f <;> decide

theorem emin_le_binade (f : FloatWidth) (x : ℚ) : f.emin ≤ f.binade x := le_max_right _ _

/-- A power of two times the unit at `x`, as a power of two. -/
theorem zpow_mul_ulp (f : FloatWidth) (x : ℚ) (k : ℤ) :
    (2 : ℚ) ^ k * f.ulp x = (2 : ℚ) ^ (f.binade x + k - f.precision + 1) := by
  rw [FloatWidth.ulp, ← zpow_add₀ two_ne_zero]; congr 1; ring

/-- The significands of a binade end at the next power of two. -/
theorem pow_precision_mul_ulp (f : FloatWidth) (x : ℚ) :
    (2 : ℚ) ^ f.precision * f.ulp x = (2 : ℚ) ^ (f.binade x + 1) := by
  rw [← zpow_natCast, zpow_mul_ulp]; congr 1; ring

/-- The significands of a normal binade begin at its power of two. -/
theorem pow_pred_precision_mul_ulp (f : FloatWidth) (x : ℚ) :
    (2 : ℚ) ^ (f.precision - 1) * f.ulp x = (2 : ℚ) ^ f.binade x := by
  have hp := two_le_precision f
  rw [← zpow_natCast, zpow_mul_ulp]; congr 1; omega

theorem half_ulp (f : FloatWidth) (x : ℚ) : 1 / 2 * f.ulp x = (2 : ℚ) ^ (f.binade x - f.precision) := by
  rw [one_div, ← zpow_neg_one, zpow_mul_ulp]; congr 1; ring

/-- The distance to a multiple of the unit, in units. -/
theorem abs_sub_mul_ulp (f : FloatWidth) (x : ℚ) (k : ℤ) :
    |(|x| - k * f.ulp x)| = |(|x| / f.ulp x - k)| * f.ulp x := by
  have hu := ulp_pos f x
  rw [← abs_of_pos hu, ← abs_mul, abs_of_pos hu, sub_mul, div_mul_cancel₀ _ hu.ne']

/-- A binade is determined by its bounds. -/
theorem binade_eq_of_bounds {e : ℤ} (hx : x ≠ 0) (he : f.emin ≤ e) (hlow : (2 : ℚ) ^ e ≤ |x| ∨ e = f.emin)
    (hhigh : |x| < (2 : ℚ) ^ (e + 1)) : f.binade x = e := by
  have hpos := abs_pos.2 hx
  have hle : Int.log 2 |x| < e + 1 := (Int.lt_zpow_iff_log_lt (by decide) hpos).1 (by exact_mod_cast hhigh)
  unfold FloatWidth.binade
  obtain hlow | rfl := hlow
  · have hge : e ≤ Int.log 2 |x| := (Int.zpow_le_iff_le_log (by decide) hpos).1 (by exact_mod_cast hlow)
    omega
  · omega

/-! ## The answer of `fl` -/

@[simp] theorem significand_zero (f : FloatWidth) : f.significand 0 = 0 := by simp [FloatWidth.significand, rnd]

/-- A pattern that `fl` delivers is `+0.0` with significand 0, or the pattern of a significand that is not. -/
theorem fl_cases {b : Word} (h : f.fl x = some b) :
    (f.significand x = 0 ∧ b = 0) ∨
      (f.significand x ≠ 0 ∧ b = f.pattern (decide (x < 0)) (f.binade x) (f.significand x)) := by
  unfold FloatWidth.fl at h
  split at h
  next hx => cases h; exact .inl ⟨by rw [hx, significand_zero], rfl⟩
  next =>
  split at h
  · cases h
  · split at h
    next hs => cases h; exact .inl ⟨hs, rfl⟩
    next hs => cases h; exact .inr ⟨hs, rfl⟩

/-- The magnitude delivered is the significand in units. -/
theorem abs_val_of_fl {b : Word} (h : f.fl x = some b) : |f.val b| = f.significand x * f.ulp x := by
  obtain ⟨-, -, hval⟩ := fl_spec f h
  have hs : (0 : ℚ) ≤ f.significand x := by
    by_cases hx : x = 0
    · rw [hx, significand_zero, Int.cast_zero]
    · exact_mod_cast (significand_bounds f hx).1
  rw [hval]
  split <;> simp [abs_of_nonneg (mul_nonneg hs (ulp_pos f x).le)]

/-- The error of `fl` is that of the magnitude, since the sign is kept. -/
theorem abs_val_sub_of_fl {b : Word} (h : f.fl x = some b) :
    |f.val b - x| = |(|x| - f.significand x * f.ulp x)| := by
  obtain ⟨-, -, hval⟩ := fl_spec f h
  rw [hval]
  split
  next hneg => rw [abs_of_neg hneg]; congr 1; ring
  next hnonneg => rw [abs_of_nonneg (not_lt.1 hnonneg), one_mul, abs_sub_comm]

/-- A delivered zero is `+0.0`. -/
theorem eq_zero_of_fl_of_val_eq_zero {b : Word} (h : f.fl x = some b) (hb : f.val b = 0) : b = 0 := by
  obtain ⟨-, hzero⟩ | ⟨hs, -⟩ := fl_cases h
  · exact hzero
  · have habs := abs_val_of_fl h
    rw [hb, abs_zero, eq_comm, mul_eq_zero, Int.cast_eq_zero] at habs
    exact absurd (habs.resolve_right (ulp_pos f x).ne') hs

/-- The last bit of a delivered pattern is that of the significand. -/
theorem lastBit_of_fl_of_even {b : Word} (h : f.fl x = some b) (heven : Even (f.significand x)) :
    b.getLsbD 0 = false := by
  obtain ⟨-, rfl⟩ | ⟨-, rfl⟩ := fl_cases h
  · rfl
  · have hp : f.precision - 1 ≠ 0 := by have := two_le_precision f; omega
    have hbits : f.bits - 1 ≠ 0 := by cases f <;> decide
    have hm : Even (f.significand x).toNat := by
      rw [Int.even_iff] at heven
      rw [Nat.even_iff]
      omega
    have hsign : Even (if decide (x < 0) = true then 2 ^ (f.bits - 1) else 0) := by
      split
      · exact even_two.pow_of_ne_zero hbits
      · exact Even.zero
    have hsum := (hsign.add ((even_two.pow_of_ne_zero hp).mul_left (f.binade x + f.bias - 1).toNat)).add hm
    rw [FloatWidth.pattern, BitVec.getLsbD_ofNat, Nat.testBit_zero, Nat.even_iff.1 hsum]
    rfl

/-! ## No finite pattern is nearer -/

/-- A significand below `2^p` stays below the end of its binade. -/
theorem significand_mul_lt_pow {e m : ℤ} (hm : m < 2 ^ f.precision) :
    m * (2 : ℚ) ^ (e - f.precision + 1) < (2 : ℚ) ^ (e + 1) := by
  calc m * (2 : ℚ) ^ (e - f.precision + 1) < (2 : ℚ) ^ f.precision * (2 : ℚ) ^ (e - f.precision + 1) := by
        gcongr
        exact_mod_cast hm
    _ = (2 : ℚ) ^ (e + 1) := by rw [← zpow_natCast, ← zpow_add₀ two_ne_zero]; congr 1; ring

/-- The magnitude of a finite pattern is that of a canonical binade and significand. -/
theorem exists_canonical_abs_val {c : Word} (hc : f.isFinite c = true) :
    ∃ e m : ℤ, f.Canonical e m ∧ m < 2 ^ f.precision ∧ |f.val c| = m * (2 : ℚ) ^ (e - f.precision + 1) := by
  obtain ⟨e, m, hcan, hm, hmag⟩ := finite_pattern f hc
  refine ⟨e, m, hcan, hm, ?_⟩
  have hnonneg : 0 ≤ f.magnitude c := by
    rw [hmag]; exact mul_nonneg (Int.cast_nonneg hcan.nonneg) (by positivity)
  rw [← hmag, FloatWidth.val]
  split <;> simp [abs_of_nonneg hnonneg]

/-- A finite magnitude is a multiple of the unit at `x`, or some multiple is nearer to `|x|` than it is: the power of two of
the binade, above all patterns of the binades below. -/
theorem multiple_of_ulp_or_nearer (hx : x ≠ 0) {c : Word} (hc : f.isFinite c = true) :
    ∃ k : ℤ, |f.val c| = k * f.ulp x ∨ |(|x| - k * f.ulp x)| < |(|x| - |f.val c|)| := by
  obtain ⟨e, m, hcan, hm, hval⟩ := exists_canonical_abs_val hc
  by_cases he : f.binade x ≤ e
  · refine ⟨m * 2 ^ (e - f.binade x).toNat, .inl ?_⟩
    rw [hval]
    push_cast
    rw [← zpow_natCast, Int.toNat_of_nonneg (by omega), mul_assoc, zpow_mul_ulp]
    congr 2; ring
  · refine ⟨2 ^ (f.precision - 1), .inr ?_⟩
    push_cast
    rw [pow_pred_precision_mul_ulp]
    have hbin : (2 : ℚ) ^ f.binade x ≤ |x| := (binade_spec f hx).1.resolve_right (by have := hcan.emin_le; omega)
    have hlt : |f.val c| < (2 : ℚ) ^ f.binade x := by
      calc |f.val c| = m * (2 : ℚ) ^ (e - f.precision + 1) := hval
        _ < (2 : ℚ) ^ (e + 1) := significand_mul_lt_pow hm
        _ ≤ (2 : ℚ) ^ f.binade x := zpow_le_zpow_right₀ one_le_two (by omega)
    rw [abs_of_nonneg (sub_nonneg.2 hbin), abs_of_pos (sub_pos.2 (hlt.trans_le hbin))]
    linarith

/-- The rounded magnitude is the nearest multiple of the unit. -/
theorem rounded_le_multiple (f : FloatWidth) (x : ℚ) (k : ℤ) :
    |(|x| - f.significand x * f.ulp x)| ≤ |(|x| - k * f.ulp x)| := by
  rw [abs_sub_mul_ulp, abs_sub_mul_ulp]
  exact mul_le_mul_of_nonneg_right (abs_sub_rnd_le _ k) (ulp_pos f x).le

/-- No finite magnitude is nearer to `|x|` than the rounded one. -/
theorem rounded_le_finite (hx : x ≠ 0) {c : Word} (hc : f.isFinite c = true) :
    |(|x| - f.significand x * f.ulp x)| ≤ |(|x| - |f.val c|)| := by
  obtain ⟨k, hk | hk⟩ := multiple_of_ulp_or_nearer hx hc
  · rw [hk]; exact rounded_le_multiple f x k
  · exact (rounded_le_multiple f x k).trans hk.le

/-- Where another finite magnitude is as near, the significand is even. -/
theorem even_significand_of_tie (hx : x ≠ 0) {c : Word} (hc : f.isFinite c = true)
    (hne : |f.val c| ≠ f.significand x * f.ulp x)
    (htie : |(|x| - |f.val c|)| ≤ |(|x| - f.significand x * f.ulp x)|) : Even (f.significand x) := by
  obtain ⟨k, hk | hk⟩ := multiple_of_ulp_or_nearer hx hc
  · rw [hk, abs_sub_mul_ulp, abs_sub_mul_ulp, mul_le_mul_iff_left₀ (ulp_pos f x)] at htie
    exact even_rnd_of_tie (fun h => hne (by rw [hk, h, FloatWidth.significand])) htie
  · exact absurd (htie.trans (rounded_le_multiple f x k)) (not_le.2 hk)

/-- No finite pattern is nearer to `x` than `fl x`. -/
theorem fl_nearest {b c : Word} (h : f.fl x = some b) (hc : f.isFinite c = true) : |f.val b - x| ≤ |f.val c - x| := by
  rw [abs_val_sub_of_fl h]
  by_cases hx : x = 0
  · simp [hx]
  · calc |(|x| - f.significand x * f.ulp x)| ≤ |(|x| - |f.val c|)| := rounded_le_finite hx hc
      _ ≤ |x - f.val c| := abs_abs_sub_abs_le x _
      _ = |f.val c - x| := abs_sub_comm _ _

/-- At a tie between finite patterns of different values the significand `fl` takes is even. -/
theorem even_significand_of_fl_tie {b c : Word} (h : f.fl x = some b) (hc : f.isFinite c = true)
    (hne : f.val c ≠ f.val b) (htie : |f.val c - x| = |f.val b - x|) : Even (f.significand x) := by
  by_cases hx : x = 0
  · simp [hx]
  have hle : |(|x| - |f.val c|)| ≤ |(|x| - f.significand x * f.ulp x)| := by
    rw [← abs_val_sub_of_fl h, ← htie, abs_sub_comm (f.val c)]
    exact abs_abs_sub_abs_le x _
  refine even_significand_of_tie hx hc (fun habs => ?_) hle
  -- the other pattern of the same magnitude has the other sign, and is as near to `x` only where `x` is zero
  rw [← abs_val_of_fl h] at habs
  have hneg : f.val c = -f.val b := (abs_eq_abs.1 habs).resolve_left hne
  have hb : f.val b ≠ 0 := fun h0 => hne (by rw [hneg, h0, neg_zero])
  rw [hneg, ← abs_neg, neg_sub, sub_neg_eq_add, abs_eq_abs] at htie
  obtain hsame | hopp := htie
  · exact hx (by linarith)
  · exact hb (by linarith)

/-- Settles O32: a delivered pattern is the rounded magnitude with the sign of `x`. -/
theorem flIsNearestTiesToEven : Obligations.FlIsNearestTiesToEven := fun f _ _ h =>
  ⟨(fl_spec f h).1, fun _ hc => fl_nearest h hc,
    fun _ hc hne htie => lastBit_of_fl_of_even h (even_significand_of_fl_tie h hc hne htie),
    eq_zero_of_fl_of_val_eq_zero h⟩

/-! ## Overflow -/

/-- The threshold of overflow is half a unit of the last binade below its end. -/
theorem overflowThreshold_eq (f : FloatWidth) : (2 - (2 : ℚ) ^ (-(f.precision : ℤ))) * (2 : ℚ) ^ f.emax =
    (2 : ℚ) ^ (f.emax + 1) - (2 : ℚ) ^ (f.emax - f.precision) := by
  rw [sub_mul, ← zpow_add₀ two_ne_zero, zpow_add_one₀ two_ne_zero, mul_comm, neg_add_eq_sub]

theorem pow_emax_le_overflowThreshold (f : FloatWidth) :
    (2 : ℚ) ^ f.emax ≤ (2 - (2 : ℚ) ^ (-(f.precision : ℤ))) * (2 : ℚ) ^ f.emax := by
  have hle : (2 : ℚ) ^ (-(f.precision : ℤ)) ≤ 1 := zpow_le_one_of_nonpos₀ one_le_two (by omega)
  exact le_mul_of_one_le_left (by positivity) (by linarith)

/-- In the last binade the significand reaches its end from half a unit below it on, since that end is even. -/
theorem overflows_iff_of_last_binade (he : f.binade x = f.emax) :
    (2 : ℚ) ^ (f.emax + 1) ≤ f.significand x * f.ulp x ↔
      (2 - (2 : ℚ) ^ (-(f.precision : ℤ))) * (2 : ℚ) ^ f.emax ≤ |x| := by
  have hu := ulp_pos f x
  have heven : Even ((2 : ℤ) ^ f.precision) := even_two.pow_of_ne_zero (by have := two_le_precision f; omega)
  rw [overflowThreshold_eq, ← he, ← half_ulp, ← pow_precision_mul_ulp, ← sub_mul, mul_le_mul_iff_left₀ hu,
    ← le_div_iff₀ hu]
  have hiff := even_le_rnd_iff (x := |x| / f.ulp x) heven
  rw [← Int.cast_le (R := ℚ)] at hiff
  exact_mod_cast hiff

/-- The rounded magnitude stays in its binade or reaches its end. -/
theorem rounded_le_pow (hx : x ≠ 0) : f.significand x * f.ulp x ≤ (2 : ℚ) ^ (f.binade x + 1) := by
  rw [← pow_precision_mul_ulp]
  exact mul_le_mul_of_nonneg_right (by exact_mod_cast (significand_bounds f hx).2.1) (ulp_pos f x).le

/-- Above the subnormals the rounded magnitude is at least the power of two of its binade. -/
theorem pow_le_rounded (hx : x ≠ 0) (he : f.binade x ≠ f.emin) :
    (2 : ℚ) ^ f.binade x ≤ f.significand x * f.ulp x := by
  rw [← pow_pred_precision_mul_ulp]
  have hs := not_lt.1 fun hlt => he ((significand_bounds f hx).2.2 hlt)
  exact mul_le_mul_of_nonneg_right (by exact_mod_cast hs) (ulp_pos f x).le

/-- Settles O33: below the last binade neither side holds, above it both do. -/
theorem flOverflowsExactlyBeyond : Obligations.FlOverflowsExactlyBeyond := by
  intro f x
  have hpow (a b : ℤ) (h : a ≤ b) : (2 : ℚ) ^ a ≤ (2 : ℚ) ^ b := zpow_le_zpow_right₀ one_le_two h
  have hthreshold := pow_emax_le_overflowThreshold f
  rw [fl_eq_none_iff]
  by_cases hx : x = 0
  · have : (0 : ℚ) < (2 : ℚ) ^ f.emax := by positivity
    simp only [hx, ne_eq, not_true_eq_false, false_and, abs_zero, false_iff, not_le]
    linarith
  rw [and_iff_right hx]
  obtain ⟨hlow, hhigh⟩ := binade_spec f hx
  obtain hlt | heq | hgt := lt_trichotomy (f.binade x) f.emax
  · have hlast := hpow (f.binade x + 1) f.emax (by omega)
    have hend : (2 : ℚ) ^ f.emax < (2 : ℚ) ^ (f.emax + 1) := zpow_lt_zpow_right₀ one_lt_two (by omega)
    exact iff_of_false (not_le.2 (by linarith [rounded_le_pow (f := f) hx])) (not_le.2 (by linarith))
  · exact overflows_iff_of_last_binade heq
  · have hne : f.binade x ≠ f.emin := by have := emin_le_emax f; omega
    have hbeyond := hpow (f.emax + 1) (f.binade x) (by omega)
    have hbelow : (2 - (2 : ℚ) ^ (-(f.precision : ℤ))) * (2 : ℚ) ^ f.emax ≤ (2 : ℚ) ^ (f.emax + 1) := by
      rw [overflowThreshold_eq]; exact sub_le_self _ (by positivity)
    exact iff_of_true (hbeyond.trans (pow_le_rounded hx hne)) ((hbelow.trans hbeyond).trans (hlow.resolve_right hne))

/-! ## The error and the monotonicity of `fl` (R110) -/

/-- The error of `fl` is at most half a unit. -/
theorem abs_val_sub_le_half_ulp {b : Word} (h : f.fl x = some b) :
    |f.val b - x| ≤ (2 : ℚ) ^ (f.binade x - f.precision) := by
  rw [abs_val_sub_of_fl h, abs_sub_mul_ulp, ← half_ulp]
  exact mul_le_mul_of_nonneg_right (abs_sub_rnd_le_half _) (ulp_pos f x).le

/-- `fl` is monotone: each of two results is no nearer to the other's argument than the other is. -/
theorem fl_mono {y : ℚ} {b c : Word} (hx : f.fl x = some b) (hy : f.fl y = some c) (hxy : x ≤ y) :
    f.val b ≤ f.val c := by
  by_contra! hlt
  have hb := fl_nearest hx (fl_spec f hy).1
  have hc := fl_nearest hy (fl_spec f hx).1
  have hbx : f.val b + f.val c ≤ 2 * x := by
    rw [← sq_le_sq] at hb; nlinarith
  have hcy : 2 * y ≤ f.val b + f.val c := by
    rw [← sq_le_sq] at hc; nlinarith
  obtain rfl : x = y := by linarith
  rw [Option.some.inj (hx.symm.trans hy)] at hlt
  exact lt_irrefl _ hlt

/-- Settles O34: the error is at most half a unit, whose binade is that of `x` or the least one. -/
theorem flErrorBoundAndMonotone : Obligations.FlErrorBoundAndMonotone := by
  intro f x y b c hb hc
  have herr := abs_val_sub_le_half_ulp hb
  refine ⟨fun hnormal => ?_, fun hsub => ?_, fl_mono hb hc⟩
  · have hpos : 0 < |x| := lt_of_lt_of_le (by positivity) hnormal
    have hlog : f.emin ≤ Int.log 2 |x| :=
      (Int.zpow_le_iff_le_log (by decide) hpos).1 (by exact_mod_cast hnormal)
    rw [FloatWidth.binade, max_eq_left hlog] at herr
    refine ⟨herr, herr.trans ?_⟩
    rw [sub_eq_add_neg, zpow_add₀ two_ne_zero]
    have hle := Int.zpow_log_le_self (R := ℚ) (b := 2) (by decide) hpos
    exact mul_le_mul_of_nonneg_right (by exact_mod_cast hle) (by positivity)
  · by_cases hx : x = 0
    · subst hx
      rw [abs_val_sub_of_fl hb, significand_zero]
      simp only [abs_zero, Int.cast_zero, zero_mul, sub_zero]
      positivity
    · have hlt : |x| < (2 : ℚ) ^ (f.emin + 1) := hsub.trans (zpow_lt_zpow_right₀ one_lt_two (by omega))
      rwa [binade_eq_of_bounds hx le_rfl (.inr rfl) hlt] at herr

/-! ## The fixed points of `fl` -/

/-- A canonical binade and significand are those `fl` finds for their value. -/
theorem binade_significand_of_canonical {e m : ℤ} (hcan : f.Canonical e m) (hm : m < 2 ^ f.precision) (hx : x ≠ 0)
    (hval : |x| = m * (2 : ℚ) ^ (e - f.precision + 1)) : f.binade x = e ∧ f.significand x = m := by
  have hp := two_le_precision f
  have hbin : f.binade x = e := by
    refine binade_eq_of_bounds hx hcan.emin_le ?_ ?_
    · by_cases hs : m < 2 ^ (f.precision - 1)
      · exact .inr (hcan.small hs)
      · left
        calc (2 : ℚ) ^ e = (2 : ℚ) ^ (f.precision - 1) * (2 : ℚ) ^ (e - f.precision + 1) := by
              rw [← zpow_natCast, ← zpow_add₀ two_ne_zero]; congr 1; omega
          _ ≤ m * (2 : ℚ) ^ (e - f.precision + 1) :=
              mul_le_mul_of_nonneg_right (by exact_mod_cast not_lt.1 hs) (by positivity)
          _ = |x| := hval.symm
    · exact hval.trans_lt (significand_mul_lt_pow hm)
  refine ⟨hbin, ?_⟩
  rw [FloatWidth.significand, FloatWidth.ulp, hbin, hval, mul_div_cancel_right₀ _ (by positivity), rnd_intCast]

/-- A word within `FLEN` bits is its three fields put together. -/
theorem toNat_eq_fields {b : Word} (hfit : Machine.fitsFlen f b = true) :
    b.toNat = (if f.signBit b then 2 ^ (f.bits - 1) else 0) + f.exponent b * 2 ^ (f.precision - 1) + f.fraction b := by
  rw [Machine.fitsFlen, decide_eq_true_eq] at hfit
  have hsign : (if f.signBit b then 2 ^ (f.bits - 1) else 0) = b.toNat / 2 ^ (f.bits - 1) % 2 * 2 ^ (f.bits - 1) := by
    rw [FloatWidth.signBit, BitVec.getLsbD, Nat.testBit_eq_decide_div_mod_eq]
    obtain h | h := Nat.mod_two_eq_zero_or_one (b.toNat / 2 ^ (f.bits - 1)) <;> simp [h]
  rw [hsign, FloatWidth.exponent, FloatWidth.fraction, BitVec.extractLsb'_toNat, BitVec.extractLsb'_toNat,
    Nat.shiftRight_eq_div_pow, Nat.shiftRight_zero]
  cases f <;> simp only [FloatWidth.bits, FloatWidth.precision, FloatWidth.expBits] at hfit ⊢ <;> omega

/-- A finite word within `FLEN` bits is the pattern of its sign with a canonical binade and significand. -/
theorem exists_pattern_of_finite {b : Word} (hfit : Machine.fitsFlen f b = true) (hfin : f.isFinite b = true) :
    ∃ e m : ℤ, f.Canonical e m ∧ m < 2 ^ f.precision ∧ b = f.pattern (f.signBit b) e m := by
  have hb := congrArg (BitVec.ofNat 64) (toNat_eq_fields hfit)
  rw [BitVec.ofNat_toNat, BitVec.setWidth_eq] at hb
  have hfr : f.fraction b < 2 ^ (f.precision - 1) := BitVec.isLt _
  have hexp : f.exponent b < 2 ^ f.expBits := BitVec.isLt _
  have hne : f.exponent b ≠ f.emaxf := by simpa [FloatWidth.isFinite] using hfin
  by_cases h0 : f.exponent b = 0
  · have hlt : (f.fraction b : ℤ) < 2 ^ f.precision := by
      have hle := Nat.pow_le_pow_right Nat.two_pos (Nat.sub_le f.precision 1)
      exact_mod_cast hfr.trans_le hle
    have hfield : (f.emin + f.bias - 1).toNat = 0 := by cases f <;> rfl
    refine ⟨f.emin, f.fraction b, ⟨le_rfl, emin_le_emax f, Int.natCast_nonneg _, hlt.le, fun _ => rfl,
      fun h => absurd h hlt.ne⟩, hlt, ?_⟩
    rw [h0] at hb
    rwa [FloatWidth.pattern, hfield, Int.toNat_natCast]
  · refine ⟨(f.exponent b : ℤ) - f.bias, 2 ^ (f.precision - 1) + f.fraction b, ?_, ?_, ?_⟩
    · cases f <;> simp only [FloatWidth.expBits, FloatWidth.emaxf] at hexp hne <;> constructor <;>
        simp only [FloatWidth.emin, FloatWidth.emax, FloatWidth.precision, FloatWidth.bias] at hfr ⊢ <;> omega
    · cases f <;> simp only [FloatWidth.precision] at hfr ⊢ <;> omega
    · obtain ⟨E, hE⟩ := Nat.exists_eq_succ_of_ne_zero h0
      have hfield : ((f.exponent b : ℤ) - f.bias + f.bias - 1).toNat = E := by omega
      have hm : ((2 : ℤ) ^ (f.precision - 1) + f.fraction b).toNat = 2 ^ (f.precision - 1) + f.fraction b := by
        exact_mod_cast Int.toNat_natCast (2 ^ (f.precision - 1) + f.fraction b)
      have hcarry : f.exponent b * 2 ^ (f.precision - 1) = E * 2 ^ (f.precision - 1) + 2 ^ (f.precision - 1) := by
        rw [hE, Nat.succ_mul]
      rw [FloatWidth.pattern, hfield, hm, ← Nat.add_assoc, Nat.add_assoc _ (E * _), ← hcarry]
      exact hb

theorem pattern_zero (f : FloatWidth) (neg : Bool) :
    f.pattern neg f.emin 0 = if neg then BitVec.ofNat 64 (2 ^ (f.bits - 1)) else 0 := by
  cases f <;> cases neg <;> rfl

theorem val_negZero (f : FloatWidth) : f.val (BitVec.ofNat 64 (2 ^ (f.bits - 1))) = 0 := by
  have hcan : f.Canonical f.emin 0 :=
    ⟨le_rfl, emin_le_emax f, le_rfl, by positivity, fun _ => rfl, fun h => absurd h.symm (by positivity)⟩
  obtain ⟨-, -, -, hval⟩ := pattern_spec f true f.emin 0 hcan
  simpa [pattern_zero] using hval

/-- The finite patterns of value zero are the two zeros. -/
theorem eq_zero_or_negZero_of_val_eq_zero {b : Word} (hfit : Machine.fitsFlen f b = true) (hfin : f.isFinite b = true)
    (hx : f.val b = 0) : b = 0 ∨ b = BitVec.ofNat 64 (2 ^ (f.bits - 1)) := by
  obtain ⟨e, m, hcan, -, hb⟩ := exists_pattern_of_finite hfit hfin
  obtain ⟨-, -, -, hval⟩ := pattern_spec f (f.signBit b) e m hcan
  rw [← hb, hx, zero_eq_mul, mul_eq_zero, Int.cast_eq_zero] at hval
  have hm : m = 0 := (hval.resolve_left (by split <;> norm_num)).resolve_right (by positivity)
  subst hm
  obtain rfl : e = f.emin := hcan.small (by positivity)
  rw [pattern_zero] at hb
  split at hb
  · exact .inr hb
  · exact .inl hb

/-- The binade and significand of a finite pattern are those `fl` finds for its value. -/
theorem fl_val_of_ne_zero {b : Word} (hfit : Machine.fitsFlen f b = true) (hfin : f.isFinite b = true)
    (hx : f.val b ≠ 0) : f.fl (f.val b) = some b := by
  obtain ⟨e, m, hcan, hm, hb⟩ := exists_pattern_of_finite hfit hfin
  obtain ⟨-, -, -, hval⟩ := pattern_spec f (f.signBit b) e m hcan
  rw [← hb] at hval
  have hm0 : m ≠ 0 := by rintro rfl; simp [hval] at hx
  have hpos : (0 : ℚ) < m * (2 : ℚ) ^ (e - f.precision + 1) :=
    mul_pos (Int.cast_pos.2 (hcan.nonneg.lt_of_ne' hm0)) (by positivity)
  have habs : |f.val b| = m * (2 : ℚ) ^ (e - f.precision + 1) := by
    rw [hval]; split <;> simp [abs_of_pos hpos]
  have hneg : decide (f.val b < 0) = f.signBit b := by
    rw [hval]; cases f.signBit b <;> simp [hpos, hpos.le]
  obtain ⟨hbin, hsig⟩ := binade_significand_of_canonical hcan hm hx habs
  have hfits : ¬ (2 : ℚ) ^ (f.emax + 1) ≤ f.significand (f.val b) * f.ulp (f.val b) := by
    rw [hsig, FloatWidth.ulp, hbin, ← habs, not_le]
    exact abs_val_lt f hfin
  rw [FloatWidth.fl, if_neg hx, if_neg hfits, hsig, if_neg hm0, hbin, hneg, ← hb]

/-- Settles O31: a pattern of value zero is one of the two zeros, for which `fl` answers `+0.0`. -/
theorem flFixesFinitePatterns : Obligations.FlFixesFinitePatterns := by
  intro f b hfit hfin
  by_cases hx : f.val b = 0
  · have hzero := eq_zero_or_negZero_of_val_eq_zero hfit hfin hx
    rw [hx, FloatWidth.fl, if_pos rfl, Option.some.injEq]
    split
    next => rfl
    next hne => exact (hzero.resolve_right hne).symm
  · have hne : b ≠ BitVec.ofNat 64 (2 ^ (f.bits - 1)) := fun h => hx (h ▸ val_negZero f)
    rw [if_neg hne, fl_val_of_ne_zero hfit hfin hx]

end Sys2Proof
end

section
/-! SUPPORT. What the commands make of the numbers: every float written is one that `fl` delivers (O29), and the reports of a
non-finite element (O38), of a scalar output that overflows (O41), and of a reconstruction that does (O52). -/

namespace Sys2Proof.Machine

/-! ## Delivered patterns (R104, R106) -/

section
variable {f : FloatWidth}

theorem delivered_zero (f : FloatWidth) : Delivered f 0 := by cases f <;> decide

/-- Everything `fl` answers is finite and not `-0.0`. -/
theorem delivered_of_fl {x : ℚ} {b : Word} (h : f.fl x = some b) : Delivered f b := by
  refine ⟨(fl_spec f h).1, fun hneg => (delivered_zero f).2 ?_⟩
  rw [← hneg]
  exact (eq_zero_of_fl_of_val_eq_zero h (hneg ▸ val_negZero f)).symm

theorem delivered_fl_getD (f : FloatWidth) (x : ℚ) : Delivered f ((f.fl x).getD 0) := by
  cases h : f.fl x with
  | none => exact delivered_zero f
  | some b => exact delivered_of_fl h

theorem delivered_flFits (f : FloatWidth) (x : ℚ) : Delivered f (f.flFits x) := delivered_fl_getD f x

/-- `PSNR` is the only output that can be an infinity (42_error_metrics.md R131). -/
theorem psnr_delivered_or_infinite (f : FloatWidth) (mse peak : ℚ) :
    Delivered f (f.psnr mse peak) ∨ f.psnr mse peak = f.posInf ∨ f.psnr mse peak = f.negInf := by
  unfold FloatWidth.psnr
  split
  · exact .inr (.inl rfl)
  · split
    · exact .inr (.inr rfl)
    · unfold FloatWidth.flLog10
      split <;> exact .inl (delivered_fl_getD f _)

/-- Every element of a float array output is one that `fl` delivers. -/
theorem delivered_of_roundElems {b : Buf} {vs : List ℚ} {ws : List Word} (h : roundElems f b vs = .ok ws) :
    ∀ r ∈ ws, Delivered f r := by
  intro r hr
  have hmem : some r ∈ vs.map f.fl := by
    rw [(roundElems_ok_iff f b vs ws).1 h]; exact List.mem_map_of_mem hr
  obtain ⟨v, -, hv⟩ := List.mem_map.1 hmem
  exact delivered_of_fl hv

theorem delivered_of_inferSf {a : List ℚ} {b : Word} (h : inferSf f a = .ok b) : Delivered f b := by
  simp only [inferSf] at h
  split at h
  · cases h
  · split at h <;> cases h
    exact delivered_of_fl ‹_›

end

/-- The factor a quantizer stores is the register's own or a delivered one. -/
theorem storedSf_kept_or_delivered {sfs : Bool} {s : State} {a : List ℚ} {sfb : Word}
    (h : scalingFactor sfs s a = .ok sfb) :
    (if sfs then s.sf else sfb) = s.sf ∨ Delivered s.cfg.flen (if sfs then s.sf else sfb) := by
  cases sfs with
  | true => exact .inl rfl
  | false => exact .inr (delivered_of_inferSf h)

/-- The offset `ORQ` stores is the register's own or a delivered one. -/
theorem storedOffset_kept_or_delivered (ofs : Bool) (s : State) (a : List ℚ) :
    (if ofs then s.offset else offsetBits ofs s a) = s.offset ∨
      Delivered s.cfg.flen (if ofs then s.offset else offsetBits ofs s a) := by
  cases ofs with
  | true => exact .inl rfl
  | false => exact .inr (delivered_flFits _ _)

/-- After a list of elements with `P` has been written, each element of the buffer is as before or has `P`. -/
theorem writeAll_kept_or {w : Nat} {P : BitVec w → Prop} (b : Buffer w) {xs : List (BitVec w)} (h : ∀ x ∈ xs, P x)
    (k : Nat) : Buffer.read? (Buffer.writeAll b xs) k = Buffer.read? b k ∨
      ∃ r, Buffer.read? (Buffer.writeAll b xs) k = some r ∧ P r := by
  rw [read_writeAll]
  split
  next hk => exact .inr ⟨xs[k], List.getElem?_eq_getElem hk, h _ (List.getElem_mem hk)⟩
  next => exact .inl rfl

/-- Every float of `t` is that of `s` or a delivered one, but for an infinite `PSNR` where the command is `EM`. -/
structure FloatsKeptOrDelivered (i : Instr) (s t : State) : Prop where
  sf : t.sf = s.sf ∨ Delivered s.cfg.flen t.sf
  offset : t.offset = s.offset ∨ Delivered s.cfg.flen t.offset
  scale : t.scale = s.scale ∨ Delivered s.cfg.flen t.scale
  min : t.min = s.min ∨ Delivered s.cfg.flen t.min
  max : t.max = s.max ∨ Delivered s.cfg.flen t.max
  mse : t.mse = s.mse ∨ Delivered s.cfg.flen t.mse
  psnr : t.psnr = s.psnr ∨ Delivered s.cfg.flen t.psnr ∨
    i = .em ∧ (t.psnr = s.cfg.flen.posInf ∨ t.psnr = s.cfg.flen.negInf)
  recon : ∀ k, Buffer.read? t.mem.recon k = Buffer.read? s.mem.recon k ∨
    ∃ r, Buffer.read? t.mem.recon k = some r ∧ Delivered s.cfg.flen r
  err : ∀ k, Buffer.read? t.mem.err k = Buffer.read? s.mem.err k ∨
    ∃ r, Buffer.read? t.mem.err k = some r ∧ Delivered s.cfg.flen r

theorem FloatsKeptOrDelivered.refl (i : Instr) (s : State) : FloatsKeptOrDelivered i s s :=
  ⟨.inl rfl, .inl rfl, .inl rfl, .inl rfl, .inl rfl, .inl rfl, .inl rfl, fun _ => .inl rfl, fun _ => .inl rfl⟩

/-- A rule that reaches its end writes only delivered floats. -/
theorem commandResult_floats {i : Instr} {s u : State} (h : commandResult i s = .ok u) : FloatsKeptOrDelivered i s u := by
  have kept := FloatsKeptOrDelivered.refl i s
  cases i with
  | uq c =>
    obtain ⟨-, d, scale, -, -, hscale, rfl⟩ := uqResult_ok h
    exact { kept with
      scale := .inr (delivered_of_fl hscale)
      min := .inr (delivered_flFits _ _)
      max := .inr (delivered_flFits _ _) }
  | udq c =>
    obtain ⟨-, codes, -, -, rfl⟩ := udqResult_ok h
    refine { kept with recon := writeAll_kept_or _ fun r hr => ?_ }
    obtain ⟨v, -, rfl⟩ := List.mem_map.1 hr
    exact delivered_flFits _ v
  | asmq c sfs =>
    obtain ⟨-, d, sfb, -, -, hsfb, rfl⟩ := asmqResult_ok h
    exact { kept with sf := storedSf_kept_or_delivered hsfb }
  | asmdq e =>
    obtain ⟨-, -, _, _, _, _, recon, err, hrecon, -, herr, -, -, rfl⟩ := asmdqResult_ok h
    exact { kept with
      recon := writeAll_kept_or _ (delivered_of_roundElems hrecon)
      err := writeAll_kept_or _ (delivered_of_roundElems herr) }
  | orq c sfs ofs =>
    obtain ⟨-, d, sfb, -, -, hsfb, rfl⟩ := orqResult_ok h
    exact { kept with sf := storedSf_kept_or_delivered hsfb, offset := storedOffset_kept_or_delivered _ _ _ }
  | ordq =>
    obtain ⟨-, -, _, _, _, recon, hrecon, -, rfl⟩ := ordqResult_ok h
    exact { kept with recon := writeAll_kept_or _ (delivered_of_roundElems hrecon) }
  | em =>
    obtain ⟨-, o, r, mse, -, -, hmse, rfl⟩ := emResult_ok h
    exact { kept with
      mse := .inr (delivered_of_fl hmse)
      psnr := .inr ((psnr_delivered_or_infinite _ _ _).imp_right fun hinf => ⟨rfl, hinf⟩) }

theorem posInf_eq (f : FloatWidth) : f.posInf = if f = .b64 then 0x7FF0000000000000 else 0x7F800000 := by
  cases f <;> rfl

theorem negInf_eq (f : FloatWidth) : f.negInf = if f = .b64 then 0xFFF0000000000000 else 0xFF800000 := by
  cases f <;> rfl

/-- Settles O29: a success has reached the end of its rule, and a fault writes no float. -/
theorem floatOutputsAreDelivered : Obligations.FloatOutputsAreDelivered := by
  intro i s t h
  have hfloats : FloatsKeptOrDelivered i s t := by
    obtain ⟨u, hu, rfl⟩ | ⟨c, info, -, rfl⟩ := (exec_next_iff i s t).1 h
    · exact { commandResult_floats hu with }
    · exact { FloatsKeptOrDelivered.refl i s with }
  obtain ⟨sf, offset, scale, min, max, mse, psnr, recon, err⟩ := hfloats
  rw [posInf_eq, negInf_eq] at psnr
  exact ⟨sf, offset, scale, min, max, mse, psnr, fun k => ⟨recon k, err k⟩⟩

/-! ## The report of a fault -/

section
variable {i : Instr} {s : State} {c : Cause}

/-- A command whose rule raises a fault writes the report and nothing else. -/
theorem exec_of_raise {info : BitVec 36} (h : commandResult i s = .error (.raise c info)) :
    exec i s = .next { s with status := statusFault c, finfo := info } := by
  rw [exec_eq_finish, h]; rfl

/-- The fault information of an element as a number: the buffer above the 32 bits of the index (10_state.md R26). -/
theorem finfoElem_eq_ofNat (b : Buf) {k : Nat} (hk : k < 2 ^ 32) :
    finfoElem b k = BitVec.ofNat 36 (b.number * 2 ^ 32 + k) := by
  have hb : b.number < 2 ^ 4 := by cases b <;> decide
  refine BitVec.eq_of_toNat_eq ((toNat_append_add (BitVec.ofNat 4 b.number) (BitVec.ofNat 32 k)).trans ?_)
  simp only [BitVec.toNat_ofNat]
  omega

/-- `exec_of_raise` where the fault names an element below `N`. -/
theorem exec_of_raise_elem {b : Buf} {k : Nat} (hk : k < s.n.toNat)
    (h : commandResult i s = .error (.raise c (finfoElem b k))) :
    exec i s = .next { s with status := statusFault c, finfo := BitVec.ofNat 36 (b.number * 2 ^ 32 + k) } := by
  rw [exec_of_raise h, finfoElem_eq_ofNat b (hk.trans s.n.isLt)]

end

/-! ## Non-finite elements -/

/-- The commands that always read `DATA` read it right after the element count (60_exceptions.md R165). -/
theorem commandResult_of_samples_error {i : Instr} {s : State} {e : Stop} (hi : readsSamples i = true)
    (hcount : CountLegal s) (hd : finiteElems s.cfg.flen .data s.mem.data s.n.toNat = .error e) :
    commandResult i s = .error e := by
  have hn := elementCount_of_legal hcount
  cases i with
  | udq | asmdq | ordq => cases hi
  | uq c => simp [commandResult, uqResult, hn, hd]
  | asmq c sfs => simp [commandResult, asmqResult, hn, hd]
  | orq c sfs ofs => simp [commandResult, orqResult, hn, hd]
  | em => simp [commandResult, emResult, hn, hd]

/-- Settles O38: each scan is reached with nothing reported before it, and reports the lowest element. -/
theorem nonfiniteElementsReported : Obligations.NonfiniteElementsReported := by
  intro s x k hcount hk hfin hbad
  have hn := elementCount_of_legal hcount
  have hscan {b : Buf} {m : Buffer 64} (h : Holds m (k + 1) x) := finiteElems_nonfinite (b := b) hk h hfin hbad
  refine ⟨fun i hi hx => ?_, fun g hsf hg hsign hx => ?_, fun y hy hyfin hx => ?_⟩
  · exact exec_of_raise_elem hk (commandResult_of_samples_error hi hcount (hscan hx))
  · have hfactor := (suppliedSf_ok_iff s _).2 ⟨hsf, rfl⟩
    refine exec_of_raise_elem (b := .data) (c := .nonfiniteElem) hk ?_
    simp [commandResult, asmdqResult, hn, hfactor, signElems_of_holds hg hsign, hscan hx]
  · refine exec_of_raise_elem (b := .recon) (c := .nonfiniteElem) hk ?_
    simp [commandResult, emResult, hn, finiteElems_of_holds .data hy hyfin, hscan hx]

/-! ## Scalar outputs that overflow -/

/-- The least non-zero magnitude, from the description of it by its indexes. -/
theorem minOf_filter_range {n : Nat} {v : Nat → ℚ} {m : ℚ} (h : LeastNonzero n v m) :
    m ∈ ((List.range n).map v).filter (· ≠ 0) ∧ minOf (((List.range n).map v).filter (· ≠ 0)) = m := by
  obtain ⟨⟨i, hi, hm⟩, hm0, hle⟩ := h
  have hmem : m ∈ ((List.range n).map v).filter (· ≠ 0) := by
    rw [List.mem_filter, decide_eq_true_iff]
    exact ⟨List.mem_map.2 ⟨i, List.mem_range.2 hi, hm⟩, hm0⟩
  obtain ⟨hmin, hleast⟩ := minOf_spec _ (List.ne_nil_of_mem hmem)
  refine ⟨hmem, le_antisymm (hleast m hmem) ?_⟩
  obtain ⟨hin, hne⟩ := List.mem_filter.1 hmin
  obtain ⟨j, hj, hv⟩ := List.mem_map.1 hin
  rw [← hv] at hne ⊢
  exact hle j (List.mem_range.1 hj) (by simpa using hne)

theorem inferSf_overflow {f : FloatWidth} {n : Nat} {v : Nat → ℚ} {m : ℚ} (h : LeastNonzero n v m)
    (hovf : f.fl ((10 : ℚ) ^ kexp m) = none) :
    inferSf f ((List.range n).map v) = .error (.raise .outOvf (finfoReg .sf)) := by
  obtain ⟨hmem, hmin⟩ := minOf_filter_range h
  have hne : ¬ (((List.range n).map v).filter (· ≠ 0)).isEmpty = true :=
    mt List.isEmpty_iff.1 (List.ne_nil_of_mem hmem)
  simp only [inferSf, if_neg hne, hmin, hovf]

theorem checkSupplied_inferredSf {ofs : Bool} {s : State} (h : OffsetLegal ofs s) : checkSupplied false ofs s = .ok () := by
  cases ofs with
  | false => rfl
  | true => simp [checkSupplied, finiteScalar, h rfl]

/-- The exact `mse` of two array operands, as a sum over their indexes. -/
theorem exactMse_range (n : Nat) (u v : Nat → ℚ) :
    exactMse ((List.range n).map u) ((List.range n).map v) = (∑ i ∈ Finset.range n, (u i - v i) ^ 2) / n := by
  rw [exactMse, mean, List.zipWith_map, List.zipWith_self, List.length_map, List.length_range]
  rfl

/-- Settles O41: the value each rule rounds for its register is the one the statement names. -/
theorem scalarOutputOverflow : Obligations.ScalarOutputOverflow := by
  rintro s x ⟨hcount, hx, hfin⟩
  have hn := elementCount_of_legal hcount
  have hd := finiteElems_of_holds .data hx hfin
  have habs : ((List.range s.n.toNat).map fun i => s.cfg.flen.val (x i)).map (fun v => |v|) =
      (List.range s.n.toNat).map (mags s.cfg.flen x) := List.map_map
  refine ⟨fun w mn mx hmn hmx hne hovf => ?_, fun w ofs m hm hovf => ?_, fun y hy hyfin hovf => ?_⟩
  · have hscale : uniformScale w mn mx = (2 ^ w.toNat - 1) / (mx - mn) := by
      simp [uniformScale, Ne.symm hne, maxCode]
    refine exec_of_raise (c := .outOvf) (info := finfoReg .scale) ?_
    simp [commandResult, uqResult, hn, hd, minOf_range hmn, maxOf_range hmx, hscale, hovf]
  · have hfactor : scalingFactor false s ((List.range s.n.toNat).map (mags s.cfg.flen x)) =
        .error (.raise .outOvf (finfoReg .sf)) := inferSf_overflow hm hovf
    refine ⟨exec_of_raise (c := .outOvf) (info := finfoReg .sf) ?_,
      fun hof => exec_of_raise (c := .outOvf) (info := finfoReg .sf) ?_⟩
    · simp only [commandResult, asmqResult, hn, hd, habs, hfactor, bind_ok, bind_error]
    · simp only [commandResult, orqResult, hn, hd, habs, checkSupplied_inferredSf hof, hfactor, bind_ok, bind_error]
  · refine exec_of_raise (c := .outOvf) (info := finfoReg .mse) ?_
    simp only [commandResult, emResult, hn, hd, finiteElems_of_holds .recon hy hyfin, exactMse_range, hovf, bind_ok]

/-! ## Float array outputs that overflow -/

section
variable {f : FloatWidth} {b : Buf} {n : Nat} {v : Nat → ℚ}

/-- The lowest element that overflows is reported. -/
theorem roundElems_overflow {k : Nat} (hk : k < n) (hlow : ∀ j < k, f.fl (v j) ≠ none) (hovf : f.fl (v k) = none) :
    roundElems f b ((List.range n).map v) = .error (.raise .outOvf (finfoElem b k)) := by
  rw [roundElems, bind_eq_error, checkEach_error_iff]
  refine .inl ⟨k, by simpa using hk, by simp [hovf], fun j hj => ?_, rfl⟩
  simpa [Option.isSome_iff_ne_none] using hlow j hj

theorem roundElems_of_fl {r : Nat → Word} (h : ∀ i < n, f.fl (v i) = some (r i)) :
    roundElems f b ((List.range n).map v) = .ok ((List.range n).map r) := by
  rw [roundElems_ok_iff, List.map_map, List.map_map]
  exact List.map_congr_left fun i hi => h i (List.mem_range.1 hi)

end

/-- The ideal reconstruction of element `i` of an adaptive record (43_adaptive_sign_magnitude.md R141 step 5). -/
def adaptiveRecon (sf : ℚ) (g : Nat → BitVec 2) (ip : Nat → BitVec 32) (dp : Nat → BitVec 64) (i : Nat) : ℚ :=
  (g i).toInt * ((ip i).toNat + (dp i).toInt / sf)

theorem adaptiveValues_range (sf : ℚ) (n : Nat) (g : Nat → BitVec 2) (ip : Nat → BitVec 32) (dp : Nat → BitVec 64) :
    adaptiveValues sf ((List.range n).map (fun i => (g i).toInt)) ((List.range n).map ip) ((List.range n).map dp) =
      (List.range n).map (adaptiveRecon sf g ip dp) := by
  simp [adaptiveValues, adaptiveValue, adaptiveRecon, List.zip_map']

/-- The ideal reconstruction of element `i` of an offset record (44_offset_refinement.md R151 step 4). -/
def offsetRecon (sf o : ℚ) (g : Nat → BitVec 2) (iop : Nat → BitVec 8) (dop : Nat → BitVec 64) (i : Nat) : ℚ :=
  (g i).toInt * ((iop i).toInt + o + (dop i).toInt / sf)

theorem offsetValues_range (sf o : ℚ) (n : Nat) (g : Nat → BitVec 2) (iop : Nat → BitVec 8) (dop : Nat → BitVec 64) :
    offsetValues sf o ((List.range n).map (fun i => (g i).toInt)) ((List.range n).map iop) ((List.range n).map dop) =
      (List.range n).map (offsetRecon sf o g iop dop) := by
  simp [offsetValues, offsetValue, offsetRecon, List.zip_map']

section
variable {s : State} {g : Nat → BitVec 2} (hcount : CountLegal s) (hsf : SfLegal s) (hg : Holds s.mem.sign s.n.toNat g)
  (hsign : ∀ i < s.n.toNat, g i ≠ 0b10#2)

include hcount hsf hg hsign

section
variable {ip : Nat → BitVec 32} {dp : Nat → BitVec 64} (hip : Holds s.mem.ipart s.n.toNat ip)
  (hdp : Holds s.mem.dpart s.n.toNat dp)

include hip hdp

/-- `ASMDQ` on a legal record and samples stops where the rounding of the reconstructions does. -/
theorem asmdqResult_of_recon_error {e : Bool} {d : List ℚ} {stop : Stop}
    (hd : (if e then finiteElems s.cfg.flen .data s.mem.data s.n.toNat else .ok []) = .ok d)
    (hrecon : roundElems s.cfg.flen .recon ((List.range s.n.toNat).map (adaptiveRecon (s.cfg.flen.val s.sf) g ip dp)) =
      .error stop) :
    asmdqResult e s = .error stop := by
  simp only [asmdqResult, ite_bind_same]
  simp only [hd, elementCount_of_legal hcount, (suppliedSf_ok_iff s _).2 ⟨hsf, rfl⟩, signElems_of_holds hg hsign,
    readElems_of_holds .ipart hip, readElems_of_holds .dpart hdp, bind_ok, adaptiveValues_range, hrecon, bind_error]

/-- `ASMDQ` on a legal record whose reconstructions are delivered stops where the rounding of the errors does. -/
theorem asmdqResult_of_err_error {x r : Nat → Word} {stop : Stop} (hx : Holds s.mem.data s.n.toNat x)
    (hfin : AllFinite s.cfg.flen s.n.toNat x)
    (hr : ∀ i < s.n.toNat, s.cfg.flen.fl (adaptiveRecon (s.cfg.flen.val s.sf) g ip dp i) = some (r i))
    (herr : roundElems s.cfg.flen .err ((List.range s.n.toNat).map
      (fun i => s.cfg.flen.val (x i) - s.cfg.flen.val (r i))) = .error stop) :
    asmdqResult true s = .error stop := by
  simp only [asmdqResult, if_true, elementCount_of_legal hcount, (suppliedSf_ok_iff s _).2 ⟨hsf, rfl⟩,
    signElems_of_holds hg hsign, finiteElems_of_holds .data hx hfin, readElems_of_holds .ipart hip,
    readElems_of_holds .dpart hdp, adaptiveValues_range, roundElems_of_fl hr, bind_ok, List.zipWith_map,
    List.zipWith_self, herr, bind_error]

end

/-- `ORDQ` on a legal record stops where the rounding of the reconstructions does. -/
theorem ordqResult_of_recon_error {iop : Nat → BitVec 8} {dop : Nat → BitVec 64} {stop : Stop}
    (hof : s.cfg.flen.isFinite s.offset = true) (hiop : Holds s.mem.iopart s.n.toNat iop)
    (hdop : Holds s.mem.dopart s.n.toNat dop)
    (hrecon : roundElems s.cfg.flen .recon ((List.range s.n.toNat).map
      (offsetRecon (s.cfg.flen.val s.sf) (s.cfg.flen.val s.offset) g iop dop)) = .error stop) :
    ordqResult s = .error stop := by
  simp only [ordqResult, elementCount_of_legal hcount, (suppliedSf_ok_iff s _).2 ⟨hsf, rfl⟩,
    (finiteScalar_ok_iff s.cfg.flen .offset s.offset _).2 ⟨hof, rfl⟩, signElems_of_holds hg hsign,
    readElems_of_holds .iopart hiop, readElems_of_holds .dopart hdop, bind_ok, offsetValues_range, hrecon, bind_error]

end

/-- Settles O52: the record and the samples pass every check before the rounding, whose lowest overflow is reported. -/
theorem reconstructionOverflow : Obligations.ReconstructionOverflow := by
  intro s g k hcount hsf hk hg hsign
  refine ⟨fun ip dp hip hdp => ⟨fun hlow hovf => ?_, fun x r hx hfin hr hlow hovf => ?_⟩,
    fun iop dop hof hiop hdop hlow hovf => ?_⟩
  · have hrecon := roundElems_overflow (b := .recon) hk hlow hovf
    refine ⟨?_, fun x hx hfin => ?_⟩
    · exact exec_of_raise_elem (b := .recon) (c := .outOvf) hk
        (asmdqResult_of_recon_error hcount hsf hg hsign hip hdp (e := false) rfl hrecon)
    · exact exec_of_raise_elem (b := .recon) (c := .outOvf) hk
        (asmdqResult_of_recon_error hcount hsf hg hsign hip hdp (e := true) (finiteElems_of_holds .data hx hfin) hrecon)
  · exact exec_of_raise_elem (b := .err) (c := .outOvf) hk
      (asmdqResult_of_err_error hcount hsf hg hsign hip hdp hx hfin hr (roundElems_overflow hk hlow hovf))
  · exact exec_of_raise_elem (b := .recon) (c := .outOvf) hk
      (ordqResult_of_recon_error hcount hsf hg hsign hof hiop hdop (roundElems_overflow hk hlow hovf))

end Sys2Proof.Machine
end

section
/-! SUPPORT. The uniform quantizer and dequantizer of 41_uniform.md: which ideal values never overflow (R106, R123), the codes
and the scale of `UQ` (R120, R122), what both commands write (O42, O43), the checks of `UDQ` (O44) and the round trip (O45). -/

namespace Sys2Proof

variable {f : FloatWidth} {x : ℚ}

/-! ## The values that never overflow -/

/-- A finite value is at most `MAXF` (40_numerics.md R92). -/
theorem abs_val_le_maxf {b : Word} (hb : f.isFinite b = true) : |f.val b| ≤ f.maxf := by
  obtain ⟨e, m, hcan, hm, hval⟩ := exists_canonical_abs_val hb
  have hm' : (m : ℚ) ≤ 2 ^ f.precision - 1 := by exact_mod_cast Int.le_sub_one_of_lt hm
  have hone : (1 : ℚ) ≤ 2 ^ f.precision := one_le_pow₀ one_le_two
  calc |f.val b| = m * (2 : ℚ) ^ (e - f.precision + 1) := hval
    _ ≤ (2 ^ f.precision - 1) * (2 : ℚ) ^ (f.emax - f.precision + 1) :=
        mul_le_mul hm' (zpow_le_zpow_right₀ one_le_two (by have := hcan.le_emax; omega)) (by positivity) (by linarith)
    _ = f.maxf := by
        rw [FloatWidth.maxf, sub_mul, sub_mul, ← zpow_natCast, ← zpow_add₀ two_ne_zero, ← zpow_add₀ two_ne_zero,
          ← zpow_one_add₀ two_ne_zero, one_mul]
        congr 2 <;> ring

/-- Up to `MAXF`, below the threshold of overflow, `fl` answers a pattern. -/
theorem fl_eq_flFits (hx : |x| ≤ f.maxf) : f.fl x = some (f.flFits x) := by
  have hne : f.fl x ≠ none := by
    rw [ne_eq, flOverflowsExactlyBeyond f x, not_le]
    refine hx.trans_lt (mul_lt_mul_of_pos_right ?_ (by positivity))
    have : (2 : ℚ) ^ (-(f.precision : ℤ)) < (2 : ℚ) ^ (1 - (f.precision : ℤ)) :=
      zpow_lt_zpow_right₀ one_lt_two (by omega)
    linarith
  obtain ⟨b, hb⟩ := Option.ne_none_iff_exists'.1 hne
  rw [FloatWidth.flFits, hb, Option.getD_some]

/-- Rounding the value of a finite pattern changes nothing. -/
theorem val_of_fl_val {b r : Word} (hb : f.isFinite b = true) (h : f.fl (f.val b) = some r) : f.val r = f.val b := by
  have hnear := fl_nearest h hb
  rw [sub_self, abs_zero] at hnear
  exact sub_eq_zero.1 (abs_nonpos_iff.1 hnear)

/-- The error of `fl` is within the rounding term, for normal and subnormal arguments (40_numerics.md R110). -/
theorem abs_val_sub_le_roundingTerm {b : Word} (h : f.fl x = some b) : |f.val b - x| ≤ Machine.roundingTerm f x := by
  obtain ⟨hnormal, hsub, -⟩ := flErrorBoundAndMonotone f x x b b h h
  obtain hx | hx := le_or_gt ((2 : ℚ) ^ f.emin) |x|
  · exact (hnormal hx).2.trans (le_max_left _ _)
  · exact (hsub hx).trans (le_max_right _ _)

/-- A point between two others is no further from zero than the further of them. -/
theorem abs_convex_le {t a b m : ℚ} (ht0 : 0 ≤ t) (ht1 : t ≤ 1) (ha : |a| ≤ m) (hb : |b| ≤ m) :
    |t * (b - a) + a| ≤ m := by
  rw [abs_le] at ha hb ⊢
  constructor <;> nlinarith

namespace Machine

variable {w : BitVec 6} {mn mx d : ℚ}

/-! ## The code and the scale of a sample -/

theorem cast_maxCode (w : BitVec 6) : (maxCode w : ℚ) = 2 ^ w.toNat - 1 := by simp [maxCode]

theorem maxCode_pos (hw : legalWidth w = true) : 0 < maxCode w :=
  sub_pos.2 (one_lt_pow₀ one_lt_two (by have := (legalWidth_iff w).1 hw; omega))

theorem maxCode_lt (hw : legalWidth w = true) : maxCode w < 2 ^ 32 :=
  (sub_one_lt _).trans_le (pow_le_pow_right₀ one_le_two ((legalWidth_iff w).1 hw).2)

theorem uniformScale_eq (w : BitVec 6) (mn mx : ℚ) :
    uniformScale w mn mx = if mx = mn then 0 else (2 ^ w.toNat - 1) / (mx - mn) := by
  rw [uniformScale, cast_maxCode]

/-- Every code lies in `[0, 2^W - 1]` (41_uniform.md R122). -/
theorem uniformCode_mem (hw : legalWidth w = true) (mn mx d : ℚ) :
    0 ≤ uniformCode w mn mx d ∧ uniformCode w mn mx d ≤ maxCode w := by
  have hpos := maxCode_pos hw
  rw [uniformCode]
  split <;> omega

/-- The clamp never acts on a sample between the least and the greatest (41_uniform.md R122). -/
theorem uniformCode_eq (hw : legalWidth w = true) (hmn : mn ≤ d) (hmx : d ≤ mx) : uniformCode w mn mx d =
    if mx = mn then 0 else rnd ((d - mn) * ((2 ^ w.toNat - 1) / (mx - mn))) := by
  rw [uniformCode, uniformScale_eq]
  split
  next => rfl
  next hne =>
    have hlen : 0 < mx - mn := sub_pos.2 (lt_of_le_of_ne (hmn.trans hmx) (Ne.symm hne))
    have hL : (0 : ℚ) < maxCode w := by exact_mod_cast maxCode_pos hw
    rw [← cast_maxCode]
    obtain ⟨hlow, hhigh⟩ := rnd_between (x := (d - mn) * (maxCode w / (mx - mn))) (a := 0) (b := maxCode w)
      (by rw [Int.cast_zero]; exact mul_nonneg (sub_nonneg.2 hmn) (div_pos hL hlen).le)
      (by rw [mul_div_left_comm]; exact mul_le_of_le_one_right hL.le ((div_le_one hlen).2 (by linarith)))
    rw [max_eq_left hlow, min_eq_left hhigh]

/-- A code is stored without loss (10_state.md R31). -/
theorem toNat_ofInt_code {k : ℤ} (hw : legalWidth w = true) (hk : 0 ≤ k ∧ k ≤ maxCode w) :
    ((BitVec.ofInt 32 k).toNat : ℤ) = k := by
  have := maxCode_lt hw
  obtain ⟨h0, hL⟩ := hk
  rw [BitVec.toNat_ofInt, Int.toNat_of_nonneg (by omega)]
  exact Int.emod_eq_of_lt h0 (by omega)

/-! ## What a command that reaches its end leaves -/

theorem statusSuccess_eq_successWord (old : BitVec 17) : statusSuccess old = successWord old := by
  rw [statusSuccess, successWord]; cases statusSticky old <;> rfl

/-- A command whose rule reaches its end writes the report of a success (60_exceptions.md R167). -/
theorem exec_of_ok {i : Instr} {s u : State} (h : commandResult i s = .ok u) :
    exec i s = .next { u with status := successWord u.status, finfo := 0 } := by
  rw [exec_eq_finish, h, finish_ok, succeed, statusSuccess_eq_successWord]; rfl

/-- The elements below `N` hold what a command has written to them. -/
theorem holds_writeAll {v : Nat} (b : Buffer v) (n : Nat) (y : Nat → BitVec v) :
    Holds (Buffer.writeAll b ((List.range n).map y)) n y := by
  intro i hi
  rw [read_writeAll, if_pos (by simpa using hi)]
  simp [hi]

/-! ## The quantizer -/

section
variable {s : State} {x : Nat → Word}

/-- The value of a sample is at most `MAXF`. -/
theorem abs_sample_le_maxf {m : ℚ} (hx : Samples s x) (h : ∃ i < s.n.toNat, s.cfg.flen.val (x i) = m) :
    |m| ≤ s.cfg.flen.maxf := by
  obtain ⟨i, hi, rfl⟩ := h
  exact abs_val_le_maxf (hx.2.2 i hi)

/-- `MIN` and `MAX` are exact, since they are elements of `DATA` (41_uniform.md R124). -/
theorem val_of_fl_sample {m : ℚ} {r : Word} (hx : Samples s x) (h : ∃ i < s.n.toNat, s.cfg.flen.val (x i) = m)
    (hr : s.cfg.flen.fl m = some r) : s.cfg.flen.val r = m := by
  obtain ⟨i, hi, rfl⟩ := h
  exact val_of_fl_val (hx.2.2 i hi) hr

/-- `UQ` on finite samples whose scale does not overflow reaches its end. -/
theorem uqResult_of_samples {scale : Word} (hx : Samples s x)
    (hmn : LeastOf s.n.toNat (fun i => s.cfg.flen.val (x i)) mn)
    (hmx : GreatestOf s.n.toNat (fun i => s.cfg.flen.val (x i)) mx)
    (hscale : s.cfg.flen.fl (uniformScale w mn mx) = some scale) :
    uqResult w s = .ok { s with
      mem := { s.mem with code := Buffer.writeAll s.mem.code ((List.range s.n.toNat).map
        (fun i => BitVec.ofInt 32 (uniformCode w mn mx (s.cfg.flen.val (x i))))) }
      scale := scale, min := s.cfg.flen.flFits mn, max := s.cfg.flen.flFits mx } := by
  obtain ⟨hcount, hheld, hfin⟩ := hx
  simp only [uqResult, elementCount_of_legal hcount, finiteElems_of_holds .data hheld hfin, bind_ok, minOf_range hmn,
    maxOf_range hmx, hscale, storeInts, List.map_map, Function.comp_def]

end

/-- Settles O42: the rule reaches its end, the clamp does not act, and `MIN` and `MAX` are values of samples. -/
theorem uqQuantizes : Obligations.UqQuantizes := by
  intro s w x mn mx scale hw hx hmn hmx hscale code
  have hcode (i : Nat) (hi : i < s.n.toNat) : uniformCode w mn mx (s.cfg.flen.val (x i)) = code i :=
    uniformCode_eq hw (hmn.2 i hi) (hmx.2 i hi)
  rw [← uniformScale_eq] at hscale
  refine ⟨_, exec_of_ok (uqResult_of_samples hx hmn hmx hscale), rfl,
    fl_eq_flFits (abs_sample_le_maxf hx hmn.1), fl_eq_flFits (abs_sample_le_maxf hx hmx.1), fun i hi => ?_, fun i hi => ?_,
    tailKept_writeAll _ (by simp)⟩
  · rw [← hcode i hi]; exact uniformCode_mem hw mn mx _
  · exact (holds_writeAll _ _ _ i hi).trans (congrArg (fun k => some (BitVec.ofInt 32 k)) (hcode i hi))

/-! ## The dequantizer -/

/-- The ideal value of a legal code lies between `MIN` and `MAX`, in whichever order they stand (41_uniform.md R123). -/
theorem abs_uniformValue_le {scale m : ℚ} {k : ℤ} (hw : legalWidth w = true) (h0 : 0 ≤ k) (hL : k ≤ maxCode w)
    (hmn : |mn| ≤ m) (hmx : |mx| ≤ m) : |uniformValue w scale mn mx k| ≤ m := by
  have hpos : (0 : ℚ) < maxCode w := by exact_mod_cast maxCode_pos hw
  rw [uniformValue]
  split
  · exact hmn
  · exact abs_convex_le (div_nonneg (by exact_mod_cast h0) hpos.le) ((div_le_one hpos).2 (by exact_mod_cast hL)) hmn hmx

theorem uniformValue_natCast (w : BitVec 6) (scale mn mx : ℚ) (k : Nat) : uniformValue w scale mn mx k =
    if scale = 0 then mn else (k : ℚ) / (2 ^ w.toNat - 1) * (mx - mn) + mn := by
  rw [uniformValue, cast_maxCode, Int.cast_natCast]

/-- The bound on the codes, in the integers of the rule. -/
theorem le_maxCode_iff (w : BitVec 6) (k : Nat) : (k : ℤ) ≤ maxCode w ↔ k ≤ 2 ^ w.toNat - 1 := by
  have : 1 ≤ 2 ^ w.toNat := Nat.one_le_two_pow
  rw [maxCode, ← Int.ofNat_le]
  push_cast [this]
  rfl

/-- `UDQ` with finite scalars is the scan of the codes and its writes. -/
theorem udqResult_of_scalars {s : State} (hcount : CountLegal s) (hscale : s.cfg.flen.isFinite s.scale = true)
    (hmin : s.cfg.flen.isFinite s.min = true) (hmax : s.cfg.flen.isFinite s.max = true) :
    udqResult w s = forIndex (codeElem w s.mem.code) s.n.toNat >>= fun codes =>
      .ok { s with mem := { s.mem with recon := Buffer.writeAll s.mem.recon ((codes.map (uniformValue w
        (s.cfg.flen.val s.scale) (s.cfg.flen.val s.min) (s.cfg.flen.val s.max))).map s.cfg.flen.flFits) } } := by
  simp only [udqResult, elementCount_of_legal hcount, finiteScalar, hscale, hmin, hmax, if_true, bind_ok]

/-- Settles O43: the codes pass their check, and each ideal value is at most `MAXF` since `MIN` and `MAX` are. -/
theorem udqDequantizes : Obligations.UdqDequantizes := by
  intro s w c hw hcount hscale hmin hmax hheld hle mn mx
  have hle' (i : Nat) (hi : i < s.n.toNat) : ((c i).toNat : ℤ) ≤ maxCode w := (le_maxCode_iff w _).2 (hle i hi)
  have hresult := udqResult_of_scalars (w := w) hcount hscale hmin hmax
  rw [codeElems_of_holds hheld hle', bind_ok, List.map_map, List.map_map] at hresult
  refine ⟨_, exec_of_ok hresult, rfl, fun i hi => ⟨_, holds_writeAll _ _ _ i hi, ?_⟩, tailKept_writeAll _ (by simp)⟩
  rw [← uniformValue_natCast]
  exact fl_eq_flFits (abs_uniformValue_le hw (Int.natCast_nonneg _) (hle' i hi) (abs_val_le_maxf hmin)
    (abs_val_le_maxf hmax))

/-- Settles O44: each check is reached with nothing reported before it, and the scan reports the lowest code. -/
theorem udqOperandChecks : Obligations.UdqOperandChecks := by
  intro s w hcount fin
  have hn := elementCount_of_legal hcount
  refine ⟨fun hscale => ?_, fun hscale hmin => ?_, fun hscale hmin hmax => ?_,
    fun c k hscale hmin hmax hk hheld hlow hbad => ?_⟩
  · refine exec_of_raise (c := .nonfiniteScalar) (info := finfoReg .scale) ?_
    simp [commandResult, udqResult, hn, finiteScalar, hscale, fin]
  · refine exec_of_raise (c := .nonfiniteScalar) (info := finfoReg .min) ?_
    simp [commandResult, udqResult, hn, finiteScalar, hscale, hmin, fin]
  · refine exec_of_raise (c := .nonfiniteScalar) (info := finfoReg .max) ?_
    simp [commandResult, udqResult, hn, finiteScalar, hscale, hmin, hmax, fin]
  · have hscan : forIndex (codeElem w s.mem.code) s.n.toNat = .error (.raise .codeRange (finfoElem .code k)) := by
      rw [forIndex_error_iff]
      refine ⟨k, hk, (codeElem_error_iff ..).2 (.inr ⟨c k, hheld k (by omega), ?_, rfl⟩), fun j hj =>
        ⟨_, (codeElem_ok_iff ..).2 ⟨c j, hheld j (by omega), (le_maxCode_iff w _).2 (hlow j hj), rfl⟩⟩⟩
      rw [← not_le, le_maxCode_iff]; omega
    refine exec_of_raise_elem (b := .code) (c := .codeRange) hk ?_
    rw [commandResult, udqResult_of_scalars hcount hscale hmin hmax, hscan, bind_error]

/-! ## The round trip -/

/-- The scale of an array that is not constant is above the least subnormal, so `SCALE` is not zero (41_uniform.md R125). -/
theorem val_scale_pos {scale : Word} (hw : legalWidth w = true) (hlt : mn < mx) (hmn : |mn| ≤ f.maxf)
    (hmx : |mx| ≤ f.maxf) (h : f.fl (uniformScale w mn mx) = some scale) : 0 < f.val scale := by
  refine val_pos_of_fl h ?_
  have hL : (1 : ℚ) ≤ maxCode w := by exact_mod_cast maxCode_pos hw
  have hlen : 0 < mx - mn := sub_pos.2 hlt
  have hmaxf : f.maxf ≤ (2 : ℚ) ^ (f.emax + 1) := by
    rw [FloatWidth.maxf, zpow_add_one₀ two_ne_zero, mul_comm]
    gcongr
    exact sub_le_self _ (by positivity)
  have hwide : mx - mn ≤ (2 : ℚ) ^ (f.emax + 2) := by
    calc mx - mn ≤ 2 * f.maxf := by linarith [le_abs_self mx, neg_abs_le mn]
      _ ≤ 2 * (2 : ℚ) ^ (f.emax + 1) := by gcongr
      _ = (2 : ℚ) ^ (f.emax + 2) := by rw [← zpow_one_add₀ two_ne_zero]; congr 1; ring
  rw [uniformScale, if_neg hlt.ne']
  calc (2 : ℚ) ^ (f.emin - f.precision + 1) ≤ (2 : ℚ) ^ (-(f.emax + 2)) :=
        zpow_le_zpow_right₀ one_le_two (by cases f <;> decide)
    _ = 1 / (2 : ℚ) ^ (f.emax + 2) := by rw [zpow_neg, one_div]
    _ ≤ maxCode w / (mx - mn) := by gcongr

/-- A sample scaled to `[0, L]`, rounded and scaled back moves by at most half a step (41_uniform.md R124). -/
theorem abs_scaleBack_rnd_sub_le {L : ℚ} (hL : 0 < L) (hlt : mn < mx) (d : ℚ) :
    |rnd ((d - mn) * (L / (mx - mn))) / L * (mx - mn) + mn - d| ≤ (mx - mn) / (2 * L) := by
  have hlen : 0 < mx - mn := sub_pos.2 hlt
  have hstep : 0 < (mx - mn) / L := div_pos hlen hL
  generalize hy : (d - mn) * (L / (mx - mn)) = y
  have hd : d = y * ((mx - mn) / L) + mn := by rw [← hy]; field_simp; ring
  calc |rnd y / L * (mx - mn) + mn - d| = |(rnd y - y) * ((mx - mn) / L)| := by
        congr 1; linear_combination -hd
    _ = |y - rnd y| * ((mx - mn) / L) := by rw [abs_mul, abs_of_pos hstep, abs_sub_comm]
    _ ≤ 1 / 2 * ((mx - mn) / L) := mul_le_mul_of_nonneg_right (abs_sub_rnd_le_half y) hstep.le
    _ = (mx - mn) / (2 * L) := by field_simp

/-- The ideal value of the code of a sample, with the scale delivered, is within half a step of the sample. -/
theorem abs_uniformValue_uniformCode_sub_le {scale : Word} (hw : legalWidth w = true) (hmn : mn ≤ d)
    (hmx : d ≤ mx) (hmn' : |mn| ≤ f.maxf) (hmx' : |mx| ≤ f.maxf) (h : f.fl (uniformScale w mn mx) = some scale) :
    |uniformValue w (f.val scale) mn mx (uniformCode w mn mx d) - d| ≤ (mx - mn) / (2 * (2 ^ w.toNat - 1)) := by
  rw [uniformCode_eq hw hmn hmx, ← cast_maxCode, uniformValue]
  obtain rfl | hlt := (hmn.trans hmx).eq_or_lt
  · obtain rfl := le_antisymm hmn hmx
    split <;> simp
  · rw [if_neg (val_scale_pos hw hlt hmn' hmx' h).ne', if_neg hlt.ne']
    exact abs_scaleBack_rnd_sub_le (by exact_mod_cast maxCode_pos hw) hlt d

/-- What a successful `UQ` leaves for `UDQ` to read: the patterns of the scale and of the least and greatest sample, and the
codes. -/
theorem uq_success {s t : State} {x : Nat → Word} (hx : Samples s x)
    (hmn : LeastOf s.n.toNat (fun i => s.cfg.flen.val (x i)) mn)
    (hmx : GreatestOf s.n.toNat (fun i => s.cfg.flen.val (x i)) mx) (h : exec (.uq w) s = .next t)
    (herr : statusErr t.status = false) :
    t.cfg = s.cfg ∧ t.n = s.n ∧ s.cfg.flen.fl (uniformScale w mn mx) = some t.scale ∧ s.cfg.flen.fl mn = some t.min ∧
      s.cfg.flen.fl mx = some t.max ∧
      Holds t.mem.code s.n.toNat (fun i => BitVec.ofInt 32 (uniformCode w mn mx (s.cfg.flen.val (x i)))) := by
  obtain ⟨u, hu, rfl⟩ := exec_success h herr
  obtain ⟨-, d, scale, hd, -, hscale, -⟩ := uqResult_ok hu
  obtain rfl := Except.ok.inj ((finiteElems_of_holds .data hx.2.1 hx.2.2).symm.trans hd)
  rw [minOf_range hmn, maxOf_range hmx] at hscale
  obtain rfl := Except.ok.inj ((uqResult_of_samples hx hmn hmx hscale).symm.trans hu)
  exact ⟨rfl, rfl, hscale, fl_eq_flFits (abs_sample_le_maxf hx hmn.1), fl_eq_flFits (abs_sample_le_maxf hx hmx.1),
    holds_writeAll _ _ _⟩

theorem statusErr_successWord (old : BitVec 17) : statusErr (successWord old) = false := by
  rw [← statusSuccess_eq_successWord, statusErr_statusSuccess]

/-- Settles O45: the outputs of `UQ` are legal operands of `UDQ`, whose ideal values (O43) are those of the codes of the
samples, since `MIN` and `MAX` are exact and the codes are stored without loss. -/
theorem uniformRoundTrip : Obligations.UniformRoundTrip := by
  intro s t w x mn mx hw hx hmn hmx hexec herr
  obtain ⟨hcfg, hn, hscale, hmin, hmax, hcode⟩ := uq_success hx hmn hmx hexec herr
  have hstored (i : Nat) : ((BitVec.ofInt 32 (uniformCode w mn mx (s.cfg.flen.val (x i)))).toNat : ℤ) =
      uniformCode w mn mx (s.cfg.flen.val (x i)) := toNat_ofInt_code hw (uniformCode_mem hw ..)
  obtain ⟨u, hexecU, hu, hrecon, -⟩ := udqDequantizes t w _ hw (by simpa only [CountLegal, hcfg, hn] using hx.1)
    (hcfg ▸ (fl_spec _ hscale).1) (hcfg ▸ (fl_spec _ hmin).1) (hcfg ▸ (fl_spec _ hmax).1) (hn ▸ hcode)
    (fun i _ => by rw [← le_maxCode_iff, hstored]; exact (uniformCode_mem hw ..).2)
  refine ⟨u, hexecU, by rw [hu]; exact statusErr_successWord _, fun i hi => ?_⟩
  obtain ⟨r, hread, hr⟩ := hrecon i (hn ▸ hi)
  rw [← uniformValue_natCast, hcfg, val_of_fl_sample hx hmn.1 hmin, val_of_fl_sample hx hmx.1 hmax, hstored] at hr
  have hideal := abs_uniformValue_uniformCode_sub_le hw (hmn.2 i hi) (hmx.2 i hi) (abs_sample_le_maxf hx hmn.1)
    (abs_sample_le_maxf hx hmx.1) hscale
  refine ⟨_, r, hread, hr, hideal, ?_, fun hconst => ?_⟩
  · exact (abs_sub_le _ _ _).trans ((add_comm _ _).trans_le (add_le_add hideal (abs_val_sub_le_roundingTerm hr)))
  · have hstep : (mx - mn) / (2 * (2 ^ w.toNat - 1)) = 0 := by rw [hconst, sub_self, zero_div]
    exact sub_eq_zero.1 (abs_nonpos_iff.1 (hideal.trans_eq hstep))

end Machine
end Sys2Proof
end

section
/-! SUPPORT. The error metrics of 42_error_metrics.md: what `EM` delivers on finite operands (O59), and that its `PSNR` is the
finite pattern nearest to the exact logarithm (O60). The logarithm and the number the model rounds in its place lie between the
same two multiples of `2^(emin - p)`, and every point half-way between two finite values is such a multiple, so that both have
the same nearest patterns (40_numerics.md R99). -/

namespace Sys2Proof

variable {f : FloatWidth}

/-! ## Nearness to even integers -/

/-- Of two even integers the same is nearer to all points between two neighbouring integers, since the point half-way between
the even ones is an integer. -/
theorem nearer_even_of_same_cell {h k l : ℤ} {x L : ℝ} (hx : (h : ℝ) < x ∧ x < h + 1) (hL : (h : ℝ) < L ∧ L < h + 1)
    (hnear : |2 * (k : ℝ) - x| ≤ |2 * (l : ℝ) - x|) : |2 * (k : ℝ) - L| ≤ |2 * (l : ℝ) - L| := by
  have side (y : ℝ) : |2 * (k : ℝ) - y| ≤ |2 * (l : ℝ) - y| ↔ ((k : ℝ) - l) * (k + l - y) ≤ 0 := by
    rw [← sq_le_sq]
    constructor <;> intro hy <;> linarith
  rw [side] at hnear ⊢
  obtain hlt | rfl | hgt := lt_trichotomy k l
  · have hkl : (k : ℝ) - l < 0 := sub_neg.2 (by exact_mod_cast hlt)
    have hmid : (h : ℝ) < (k + l : ℤ) := by push_cast; nlinarith
    have hcell : (h : ℝ) + 1 ≤ k + l := by exact_mod_cast hmid
    nlinarith
  · simp
  · have hkl : 0 < (k : ℝ) - l := sub_pos.2 (by exact_mod_cast hgt)
    have hmid : ((k + l : ℤ) : ℝ) < h + 1 := by push_cast; nlinarith
    have hcell : (k : ℝ) + l ≤ h := by exact_mod_cast Int.lt_add_one_iff.1 (by exact_mod_cast hmid)
    nlinarith

/-! ## Finite values on the grid of `2^(emin - p)` -/

theorem gridBits_eq (f : FloatWidth) : (f.gridBits : ℤ) = f.precision - f.emin := by cases f <;> rfl

/-- In units of `2^(emin - p)` every finite value is an even integer. -/
theorem exists_val_mul_grid {c : Word} (hc : f.isFinite c = true) : ∃ k : ℤ, f.val c * 2 ^ f.gridBits = 2 * k := by
  obtain ⟨e, m, hcan, -, hval⟩ := exists_canonical_abs_val hc
  have habs : |f.val c| * 2 ^ f.gridBits = 2 * (m * 2 ^ (e - f.emin).toNat : ℤ) := by
    rw [hval]
    push_cast
    rw [← zpow_natCast, ← zpow_natCast, Int.toNat_of_nonneg (by have := hcan.emin_le; omega), gridBits_eq, mul_assoc,
      ← zpow_add₀ two_ne_zero, mul_left_comm, ← zpow_one_add₀ two_ne_zero]
    congr 2; ring
  obtain hpos | hneg := abs_choice (f.val c)
  · exact ⟨_, hpos ▸ habs⟩
  · refine ⟨-(m * 2 ^ (e - f.emin).toNat), ?_⟩
    rw [hneg] at habs
    rw [Int.cast_neg]
    linarith

/-- A value on the grid that is not zero is at least a unit of it. -/
theorem one_le_abs_mul_grid {x : ℚ} {k : ℤ} (hk : x * 2 ^ f.gridBits = 2 * k) (hx : x ≠ 0) :
    1 ≤ |x| * 2 ^ f.gridBits := by
  have hgrid : (0 : ℚ) < 2 ^ f.gridBits := by positivity
  have hne : 2 * k ≠ 0 := by
    intro h0
    refine mul_ne_zero hx hgrid.ne' ?_
    rw [hk]; exact_mod_cast h0
  calc (1 : ℚ) ≤ |((2 * k : ℤ) : ℚ)| := by exact_mod_cast Int.one_le_abs hne
    _ = |x * 2 ^ f.gridBits| := by rw [hk]; push_cast; rfl
    _ = |x| * 2 ^ f.gridBits := by rw [abs_mul, abs_of_pos hgrid]

theorem one_le_abs_val_mul_grid {c : Word} (hc : f.isFinite c = true) (hne : f.val c ≠ 0) :
    1 ≤ |f.val c| * 2 ^ f.gridBits := by
  obtain ⟨k, hk⟩ := exists_val_mul_grid hc
  exact one_le_abs_mul_grid hk hne

theorem one_le_abs_val_sub_mul_grid {c d : Word} (hc : f.isFinite c = true) (hd : f.isFinite d = true)
    (hne : f.val c ≠ f.val d) : 1 ≤ |f.val c - f.val d| * 2 ^ f.gridBits := by
  obtain ⟨k, hk⟩ := exists_val_mul_grid hc
  obtain ⟨l, hl⟩ := exists_val_mul_grid hd
  refine one_le_abs_mul_grid (k := k - l) ?_ (sub_ne_zero.2 hne)
  rw [sub_mul, hk, hl, Int.cast_sub, mul_sub]

/-- The pattern `fl` gives a number between two neighbouring points of the grid is nearest to every real between them. -/
theorem fl_nearest_of_same_cell {x : ℚ} {L : ℝ} {h : ℤ} {b c : Word} (hb : f.fl x = some b) (hc : f.isFinite c = true)
    (hx : (h : ℝ) < x * 2 ^ f.gridBits ∧ x * 2 ^ f.gridBits < (h : ℝ) + 1)
    (hL : (h : ℝ) < L * 2 ^ f.gridBits ∧ L * 2 ^ f.gridBits < h + 1) :
    |(f.val b : ℝ) - L| ≤ |(f.val c : ℝ) - L| := by
  obtain ⟨k, hk⟩ := exists_val_mul_grid (fl_spec f hb).1
  obtain ⟨l, hl⟩ := exists_val_mul_grid hc
  have hk' : (f.val b : ℝ) * 2 ^ f.gridBits = 2 * k := by exact_mod_cast congrArg (Rat.cast (K := ℝ)) hk
  have hl' : (f.val c : ℝ) * 2 ^ f.gridBits = 2 * l := by exact_mod_cast congrArg (Rat.cast (K := ℝ)) hl
  have hnear : |(f.val b : ℝ) - x| ≤ |(f.val c : ℝ) - x| := by exact_mod_cast fl_nearest hb hc
  have scale (u v y : ℝ) : |u - y| ≤ |v - y| ↔
      |u * 2 ^ f.gridBits - y * 2 ^ f.gridBits| ≤ |v * 2 ^ f.gridBits - y * 2 ^ f.gridBits| := by
    have hgrid : (0 : ℝ) < 2 ^ f.gridBits := by positivity
    rw [← sub_mul, ← sub_mul, abs_mul, abs_mul, abs_of_pos hgrid, mul_le_mul_iff_left₀ hgrid]
  rw [scale, hk', hl'] at hnear ⊢
  exact nearer_even_of_same_cell hx hL hnear

/-! ## The decimal logarithm of a rational -/

theorem intCast_lt_logb_iff {q : ℚ} (hq : 0 < q) (n : ℤ) : (n : ℝ) < Real.logb 10 q ↔ (10 : ℚ) ^ n < q := by
  rw [Real.lt_logb_iff_rpow_lt (by norm_num) (by exact_mod_cast hq), Real.rpow_intCast,
    ← Rat.cast_lt (K := ℝ)]
  push_cast
  rfl

theorem logb_lt_intCast_iff {q : ℚ} (hq : 0 < q) (n : ℤ) : Real.logb 10 q < n ↔ q < (10 : ℚ) ^ n := by
  rw [Real.logb_lt_iff_lt_rpow (by norm_num) (by exact_mod_cast hq), Real.rpow_intCast,
    ← Rat.cast_lt (K := ℝ)]
  push_cast
  rfl

/-- A rational of which some power is a power of ten is one: the exponent of 2 in it says which. -/
theorem eq_zpow_ten_of_pow_eq {q : ℚ} (hq : 0 < q) {n : Nat} (hn : n ≠ 0) {h : ℤ} (heq : q ^ n = (10 : ℚ) ^ h) :
    q = (10 : ℚ) ^ padicValRat 2 q := by
  have hten : padicValRat 2 (10 : ℚ) = 1 := by
    have h5 : padicValNat 2 5 = 0 := padicValNat.eq_zero_of_not_dvd (by decide)
    rw [show (10 : ℚ) = ((2 * 5 : Nat) : ℚ) by norm_num, padicValRat.of_nat,
      padicValNat.mul two_ne_zero (by decide), padicValNat_self, h5]
    rfl
  have hval : (n : ℤ) * padicValRat 2 q = h := by
    have := congrArg (padicValRat 2) heq
    simpa [padicValRat.pow, padicValRat.zpow, hten] using this
  refine (pow_left_inj₀ hq.le (by positivity) hn).1 ?_
  rw [heq, ← hval, mul_comm, zpow_mul, zpow_natCast]

/-- A number that is not a power of ten has its logarithm strictly between neighbouring points of the grid. -/
theorem logb_in_cell {q : ℚ} (hq : 0 < q) (hne : (10 : ℚ) ^ Int.log 10 q ≠ q) (j : Nat) :
    (scaledLog j q : ℝ) < Real.logb 10 q * 2 ^ j ∧ Real.logb 10 q * 2 ^ j < scaledLog j q + 1 := by
  have hpow : Real.logb 10 q * 2 ^ j = Real.logb 10 ((q ^ 2 ^ j : ℚ) : ℝ) := by
    rw [Rat.cast_pow, Real.logb_pow, mul_comm]; push_cast; rfl
  have hpos : 0 < q ^ 2 ^ j := pow_pos hq _
  obtain ⟨hlow, hhigh⟩ := scaledLog_spec j hq
  have hstrict : (10 : ℚ) ^ scaledLog j q ≠ q ^ 2 ^ j := by
    intro heq
    have hten := eq_zpow_ten_of_pow_eq hq (by positivity) heq.symm
    refine hne ?_
    rw [hten]
    exact congrArg _ (Int.log_zpow (by norm_num) _)
  rw [hpow]
  refine ⟨(intCast_lt_logb_iff hpos _).2 (hlow.lt_of_ne hstrict), ?_⟩
  exact_mod_cast (logb_lt_intCast_iff hpos (scaledLog j q + 1)).2 hhigh

theorem logb_of_zpow_eq {q : ℚ} {n : ℤ} (h : (10 : ℚ) ^ n = q) : Real.logb 10 q = n := by
  rw [← h]
  push_cast
  rw [← Real.rpow_intCast, Real.logb_rpow (by norm_num) (by norm_num)]

/-- The number the model rounds in place of a logarithm is the middle of its cell. -/
theorem cellMiddle_mul_grid (h : ℤ) (j : Nat) : ((2 * h + 1) / 2 ^ (j + 1) : ℝ) * 2 ^ j = h + 1 / 2 := by
  rw [pow_succ]; field_simp

/-- `fl` of the logarithm of a rational does not overflow where the logarithm is a unit below `MAXF`, and no finite pattern is
nearer to the logarithm. -/
theorem flLog10_nearest {q : ℚ} (hq : 0 < q) (hfit : |Real.logb 10 q| + 1 ≤ f.maxf) :
    ∃ b, f.flLog10 q = some b ∧
      ∀ c, f.isFinite c = true → |(f.val b : ℝ) - Real.logb 10 q| ≤ |(f.val c : ℝ) - Real.logb 10 q| := by
  rw [FloatWidth.flLog10]
  split
  next hten =>
    rw [logb_of_zpow_eq hten] at hfit ⊢
    have hle : |(Int.log 10 q : ℚ)| ≤ f.maxf := by
      have : |((Int.log 10 q : ℚ) : ℝ)| ≤ f.maxf := by push_cast; linarith
      exact_mod_cast this
    refine ⟨_, fl_eq_flFits hle, fun c hc => ?_⟩
    exact_mod_cast fl_nearest (fl_eq_flFits hle) hc
  next hne =>
    have hL := logb_in_cell hq hne f.gridBits
    generalize scaledLog f.gridBits q = h at hL ⊢
    have hmid := cellMiddle_mul_grid h f.gridBits
    have hx : (h : ℝ) < ((2 * h + 1) / 2 ^ (f.gridBits + 1) : ℚ) * 2 ^ f.gridBits ∧
        ((2 * h + 1) / 2 ^ (f.gridBits + 1) : ℚ) * 2 ^ f.gridBits < (h : ℝ) + 1 := by
      push_cast
      rw [hmid]
      constructor <;> linarith
    generalize ((2 * h + 1) / 2 ^ (f.gridBits + 1) : ℚ) = x at hx ⊢
    have hle : |x| ≤ f.maxf := by
      have hgrid : (1 : ℝ) ≤ 2 ^ f.gridBits := one_le_pow₀ one_le_two
      have hdist : |(x : ℝ) - Real.logb 10 q| ≤ 1 := by
        rw [abs_le]
        constructor <;> nlinarith
      have : |(x : ℝ)| ≤ f.maxf := by
        have := abs_sub_abs_le_abs_sub (x : ℝ) (Real.logb 10 q)
        linarith
      exact_mod_cast this
    exact ⟨_, fl_eq_flFits hle, fun c hc => fl_nearest_of_same_cell (fl_eq_flFits hle) hc hx hL⟩

/-! ## The range of the operands -/

/-- A number between `2^-k` and `2^k` has a decimal logarithm between `-k` and `k`. -/
theorem abs_logb_le {q : ℚ} {j k : Nat} {e : ℤ} (hlow : 1 ≤ q * 2 ^ j) (hhigh : q ≤ 2 ^ e) (hj : j ≤ k) (he : e ≤ k) :
    |Real.logb 10 q| ≤ k := by
  have hq : 0 < q := pos_of_mul_pos_left (one_pos.trans_le hlow) (by positivity)
  have hlower : ¬ q < (10 : ℚ) ^ (-(k : ℤ)) := by
    rw [zpow_neg, zpow_natCast, not_lt, inv_le_iff_one_le_mul₀ (by positivity)]
    refine hlow.trans (mul_le_mul_of_nonneg_left ?_ hq.le)
    exact (pow_le_pow_right₀ one_le_two hj).trans (by gcongr; norm_num)
  have hupper : ¬ (10 : ℚ) ^ (k : ℤ) < q := by
    rw [zpow_natCast, not_lt]
    refine (hhigh.trans (zpow_le_zpow_right₀ one_le_two he)).trans ?_
    rw [zpow_natCast]; gcongr; norm_num
  have hlower := not_lt.1 (mt (logb_lt_intCast_iff hq _).1 hlower)
  have hupper := not_lt.1 (mt (intCast_lt_logb_iff hq _).1 hupper)
  push_cast at hlower hupper
  exact abs_le.2 ⟨hlower, hupper⟩

/-- What does not overflow is at most the power of two where overflow begins. -/
theorem abs_le_of_fl {x : ℚ} {b : Word} (h : f.fl x = some b) : |x| ≤ (2 : ℚ) ^ (f.emax + 1) := by
  have hfit : ¬ f.fl x = none := by rw [h]; exact Option.some_ne_none b
  rw [flOverflowsExactlyBeyond f x, overflowThreshold_eq, not_le] at hfit
  exact hfit.le.trans (sub_le_self _ (by positivity))

/-- The exact `mse` of the values of two arrays of patterns (42_error_metrics.md R130 step 4). -/
abbrev meanSquare (f : FloatWidth) (n : Nat) (x y : Nat → Word) : ℚ :=
  (∑ i ∈ Finset.range n, (f.val (x i) - f.val (y i)) ^ 2) / n

section
variable {n : Nat} {x y : Nat → Word}

theorem meanSquare_nonneg (f : FloatWidth) (n : Nat) (x y : Nat → Word) : 0 ≤ meanSquare f n x y :=
  div_nonneg (Finset.sum_nonneg fun _ _ => sq_nonneg _) n.cast_nonneg

/-- One difference that is not zero keeps the exact `mse` away from zero. -/
theorem one_le_meanSquare_mul {k : Nat} (hn : n ≤ 2 ^ k) (hx : Machine.AllFinite f n x) (hy : Machine.AllFinite f n y)
    (hne : meanSquare f n x y ≠ 0) : 1 ≤ meanSquare f n x y * 2 ^ (k + 2 * f.gridBits) := by
  have hn0 : (n : ℚ) ≠ 0 := fun h0 => hne (by rw [meanSquare, h0, div_zero])
  obtain ⟨i, hi, hdiff⟩ := Finset.exists_ne_zero_of_sum_ne_zero (div_ne_zero_iff.1 hne).1
  have hin := Finset.mem_range.1 hi
  have hunit := one_le_abs_val_sub_mul_grid (hx i hin) (hy i hin) (sub_ne_zero.1 (pow_ne_zero_iff two_ne_zero |>.1 hdiff))
  calc (1 : ℚ) ≤ (|f.val (x i) - f.val (y i)| * 2 ^ f.gridBits) ^ 2 := one_le_pow₀ hunit
    _ = (f.val (x i) - f.val (y i)) ^ 2 * 2 ^ (2 * f.gridBits) := by rw [mul_pow, sq_abs, ← pow_mul, mul_comm 2]
    _ ≤ (∑ i ∈ Finset.range n, (f.val (x i) - f.val (y i)) ^ 2) * 2 ^ (2 * f.gridBits) := by
        gcongr
        exact Finset.single_le_sum (f := fun i => (f.val (x i) - f.val (y i)) ^ 2) (fun _ _ => sq_nonneg _) hi
    _ = meanSquare f n x y * (n * 2 ^ (2 * f.gridBits)) := by rw [← mul_assoc, meanSquare, div_mul_cancel₀ _ hn0]
    _ ≤ meanSquare f n x y * 2 ^ (k + 2 * f.gridBits) := by
        rw [pow_add]
        have := meanSquare_nonneg f n x y
        gcongr
        exact_mod_cast hn

end

/-! ## The three cases of `PSNR` (R131) -/

section
variable {mse peak : ℚ}

theorem psnr_of_mse_eq_zero (hmse : mse = 0) : f.psnr mse peak = f.posInf := if_pos hmse

theorem psnr_of_peak_eq_zero (hmse : mse ≠ 0) (hpeak : peak = 0) : f.psnr mse peak = f.negInf := by
  rw [FloatWidth.psnr, if_neg hmse, if_pos hpeak]

theorem psnr_of_ne_zero (hmse : mse ≠ 0) (hpeak : peak ≠ 0) :
    f.psnr mse peak = (f.flLog10 ((peak ^ 2 / mse) ^ 10)).getD 0 := by
  rw [FloatWidth.psnr, if_neg hmse, if_neg hpeak]

/-- For either width `2^2200` is above all values and above the inverse of the least `mse` that is not zero. -/
theorem range_exponents_le (f : FloatWidth) : 32 + 2 * f.gridBits ≤ 2200 ∧ f.emax + 1 ≤ 2200 := by cases f <;> decide

/-- The third case of `PSNR` is far from overflow (42_error_metrics.md R131). -/
theorem logb_bound_le_maxf (f : FloatWidth) : (20 * 2200 + 10 * 2200 + 1 : ℚ) ≤ f.maxf := by cases f <;> decide +kernel

/-- The exact value by the logarithms of the operands. -/
theorem psnr_eq_logb (hmse : 0 < mse) (hpeak : 0 < peak) :
    20 * Real.logb 10 (peak / Real.sqrt mse) = 20 * Real.logb 10 peak - 10 * Real.logb 10 mse := by
  have hm : (0 : ℝ) < mse := by exact_mod_cast hmse
  have hp : (0 : ℝ) < peak := by exact_mod_cast hpeak
  rw [Real.logb_div hp.ne' (Real.sqrt_pos.2 hm).ne', Real.sqrt_eq_rpow, Real.logb_rpow_eq_mul_logb_of_pos hm]
  ring

/-- The logarithm the model takes is that of the exact value (40_numerics.md R99). -/
theorem logb_ratio_eq (hmse : 0 < mse) (hpeak : 0 < peak) :
    Real.logb 10 (((peak ^ 2 / mse) ^ 10 : ℚ) : ℝ) = 20 * Real.logb 10 peak - 10 * Real.logb 10 mse := by
  have hm : (0 : ℝ) < mse := by exact_mod_cast hmse
  have hp : (0 : ℝ) < peak := by exact_mod_cast hpeak
  push_cast
  rw [Real.logb_pow, Real.logb_div (by positivity) hm.ne', Real.logb_pow]
  push_cast
  ring

/-- In the third case no finite pattern is nearer to the exact logarithm than `PSNR`. -/
theorem psnr_nearest (hmse : 0 < mse) (hpeak : 0 < peak) (hm : |Real.logb 10 mse| ≤ (2200 : Nat))
    (hp : |Real.logb 10 peak| ≤ (2200 : Nat)) {c : Word} (hc : f.isFinite c = true) :
    |(f.val (f.psnr mse peak) : ℝ) - 20 * Real.logb 10 (peak / Real.sqrt mse)| ≤
      |(f.val c : ℝ) - 20 * Real.logb 10 (peak / Real.sqrt mse)| := by
  have hq : 0 < (peak ^ 2 / mse) ^ 10 := by positivity
  have hfit : |Real.logb 10 (((peak ^ 2 / mse) ^ 10 : ℚ) : ℝ)| + 1 ≤ f.maxf := by
    have hmax : (20 * 2200 + 10 * 2200 + 1 : ℝ) ≤ f.maxf := by exact_mod_cast logb_bound_le_maxf f
    have habs : |20 * Real.logb 10 peak - 10 * Real.logb 10 mse| ≤ 20 * 2200 + 10 * 2200 := by
      push_cast at hm hp
      rw [abs_le] at hm hp ⊢
      constructor <;> linarith
    rw [logb_ratio_eq hmse hpeak]
    linarith
  obtain ⟨b, hb, hnear⟩ := flLog10_nearest hq hfit
  rw [psnr_of_ne_zero hmse.ne' hpeak.ne', hb, Option.getD_some, psnr_eq_logb hmse hpeak,
    ← logb_ratio_eq hmse hpeak]
  exact hnear c hc

/-- `PSNR` is finite in the third case. -/
theorem psnr_isFinite (hmse : mse ≠ 0) (hpeak : peak ≠ 0) : f.isFinite (f.psnr mse peak) = true := by
  rw [psnr_of_ne_zero hmse hpeak, FloatWidth.flLog10]
  split <;> exact (Machine.delivered_fl_getD f _).1

end

/-! ## What `EM` delivers -/

namespace Machine

section
variable {s : State} {x y : Nat → Word} {peak : ℚ} (hx : Samples s x) (hy : Holds s.mem.recon s.n.toNat y)
  (hyfin : AllFinite s.cfg.flen s.n.toNat y) (hpeak : GreatestOf s.n.toNat (mags s.cfg.flen x) peak)

/-- The exact `peak` of an array operand, from the description of it by its indexes. -/
theorem exactPeak_range {n : Nat} {v : Nat → ℚ} (h : GreatestOf n (fun i => |v i|) peak) :
    exactPeak ((List.range n).map v) = peak := by
  rw [exactPeak, List.map_map]
  exact maxOf_range h

include hx hy hyfin hpeak

/-- `EM` on finite operands whose exact `mse` does not overflow reaches its end. -/
theorem emResult_of_operands {b : Word} (hb : s.cfg.flen.fl (meanSquare s.cfg.flen s.n.toNat x y) = some b) :
    emResult s =
      .ok { s with mse := b, psnr := s.cfg.flen.psnr (meanSquare s.cfg.flen s.n.toNat x y) peak } := by
  obtain ⟨hcount, hheld, hfin⟩ := hx
  simp only [emResult, elementCount_of_legal hcount, finiteElems_of_holds .data hheld hfin,
    finiteElems_of_holds .recon hy hyfin, bind_ok, exactMse_range, exactPeak_range hpeak, hb]

/-- A successful `EM` has rounded its exact `mse`, and leaves the `PSNR` of it. -/
theorem em_success {t : State} (h : exec .em s = .next t) (herr : statusErr t.status = false) :
    s.cfg.flen.fl (meanSquare s.cfg.flen s.n.toNat x y) = some t.mse ∧
      t.psnr = s.cfg.flen.psnr (meanSquare s.cfg.flen s.n.toNat x y) peak := by
  obtain ⟨u, hu, rfl⟩ := exec_success h herr
  obtain ⟨-, o, r, b, ho, hr, hb, -⟩ := emResult_ok hu
  obtain rfl := Except.ok.inj ((finiteElems_of_holds .data hx.2.1 hx.2.2).symm.trans ho)
  obtain rfl := Except.ok.inj ((finiteElems_of_holds .recon hy hyfin).symm.trans hr)
  rw [exactMse_range] at hb
  obtain rfl := Except.ok.inj ((emResult_of_operands hx hy hyfin hpeak hb).symm.trans hu)
  exact ⟨hb, rfl⟩

end

/-- Settles O59: the rule reaches its end, and the three cases are those of `PSNR`. -/
theorem emMeasures : Obligations.EmMeasures := by
  intro s x y peak b hx hy hyfin hpeak mse hb
  refine ⟨_, exec_of_ok (emResult_of_operands hx hy hyfin hpeak hb), rfl, fun hzero => ?_, fun hne hzero => ?_,
    fun hne hne' => psnr_isFinite hne hne'⟩
  · rw [← posInf_eq]; exact psnr_of_mse_eq_zero hzero
  · rw [← negInf_eq]; exact psnr_of_peak_eq_zero hne hzero

/-- A peak that is not zero is the magnitude of a finite sample, so its logarithm is not large. -/
theorem abs_logb_peak_le {s : State} {x : Nat → Word} {peak : ℚ} (hx : Samples s x)
    (hpeak : ∃ i < s.n.toNat, mags s.cfg.flen x i = peak) (hne : peak ≠ 0) : |Real.logb 10 peak| ≤ (2200 : Nat) := by
  obtain ⟨i, hi, rfl⟩ := hpeak
  have hfin := hx.2.2 i hi
  have hrange := range_exponents_le s.cfg.flen
  exact abs_logb_le (one_le_abs_val_mul_grid hfin (abs_ne_zero.1 hne)) (abs_val_lt _ hfin).le (by omega) (by omega)

/-- Settles O60: neither logarithm is large, so that `fl` does not overflow, and `PSNR` is the pattern `fl` gives. -/
theorem psnrIsTheRoundedLogarithm : Obligations.PsnrIsTheRoundedLogarithm := by
  intro s t x y peak hx hy hyfin hpeak mse hmse hne h herr psnr
  obtain ⟨hfl, hpsnr⟩ := em_success hx hy hyfin hpeak h herr
  have hmse0 : 0 < mse := (meanSquare_nonneg _ _ x y).lt_of_ne' hmse
  have hpeak0 : 0 < peak := by
    obtain ⟨i, -, rfl⟩ := hpeak.1
    exact (abs_nonneg _).lt_of_ne' hne
  have hm : |Real.logb 10 mse| ≤ (2200 : Nat) := by
    have hrange := range_exponents_le s.cfg.flen
    exact abs_logb_le (one_le_meanSquare_mul s.n.isLt.le hx.2.2 hyfin hmse) ((le_abs_self _).trans (abs_le_of_fl hfl))
      hrange.1 hrange.2
  rw [hpsnr]
  exact ⟨psnr_isFinite hmse hne, fun c hc => psnr_nearest hmse0 hpeak0 hm (abs_logb_peak_le hx hpeak.1 hne) hc⟩

end Machine
end Sys2Proof
end

section
/-! SUPPORT. The adaptive sign-magnitude quantizer and dequantizer of 43_adaptive_sign_magnitude.md: the factor of a quantizer and
its array checks, which ORQ shares (O47 to O49), what both commands write (O46, O50), the report of a reserved sign code (O51) and
the round trip (O53). -/

namespace Sys2Proof.Machine

/-! ## Checks over an array operand -/

section
variable {α : Type} {bad : α → Bool} {c : Cause} {b : Buf} {n k : Nat} {v : Nat → α}

theorem checkEach_range_ok (h : ∀ i < n, bad (v i) = false) : checkEach bad c b ((List.range n).map v) = .ok () := by
  rw [checkEach_ok_iff]
  intro y hy
  obtain ⟨i, hi, rfl⟩ := List.mem_map.1 hy
  exact h i (List.mem_range.1 hi)

/-- The lowest bad element is reported. -/
theorem checkEach_range_lowest (hk : k < n) (hlow : ∀ j < k, bad (v j) = false) (hbad : bad (v k) = true) :
    checkEach bad c b ((List.range n).map v) = .error (.raise c (finfoElem b k)) := by
  rw [checkEach_error_iff]
  exact ⟨k, by simpa using hk, by simpa using hbad, fun j hj => by simpa using hlow j hj, rfl⟩

end

/-- An integer part does not fit `W` bits exactly when the magnitude is at least `2^W`. -/
theorem maxCode_lt_integerPart_iff {w : BitVec 6} {a : ℚ} : maxCode w < integerPart a ↔ 2 ^ w.toNat ≤ a := by
  rw [maxCode, integerPart, Int.sub_one_lt_iff, Int.le_floor]
  push_cast
  rfl

section
variable {w : BitVec 6} {n k : Nat} {v : Nat → ℚ}

theorem checkIntegerParts_of_lt (h : ∀ i < n, v i < 2 ^ w.toNat) : checkIntegerParts w ((List.range n).map v) = .ok () :=
  checkEach_range_ok fun i hi => decide_eq_false (mt maxCode_lt_integerPart_iff.1 (not_le.2 (h i hi)))

theorem checkIntegerParts_lowest (hk : k < n) (hlow : ∀ j < k, v j < 2 ^ w.toNat) (hbad : 2 ^ w.toNat ≤ v k) :
    checkIntegerParts w ((List.range n).map v) = .error (.raise .ipartOvf (finfoElem .data k)) :=
  checkEach_range_lowest hk (fun j hj => decide_eq_false (mt maxCode_lt_integerPart_iff.1 (not_le.2 (hlow j hj))))
    (decide_eq_true (maxCode_lt_integerPart_iff.2 hbad))

/-- The check of the decimal parts `p`, the same in both quantizers. -/
theorem checkDecimalParts_of_le {p : ℚ → ℤ} (h : ∀ i < n, p (v i) ≤ maxDpart) :
    checkEach (fun y => maxDpart < p y) .dpartOvf .data ((List.range n).map v) = .ok () :=
  checkEach_range_ok fun i hi => decide_eq_false (not_lt.2 (h i hi))

theorem checkDecimalParts_lowest {p : ℚ → ℤ} (hk : k < n) (hlow : ∀ j < k, p (v j) ≤ maxDpart)
    (hbad : maxDpart < p (v k)) : checkEach (fun y => maxDpart < p y) .dpartOvf .data ((List.range n).map v) =
      .error (.raise .dpartOvf (finfoElem .data k)) :=
  checkEach_range_lowest hk (fun j hj => decide_eq_false (not_lt.2 (hlow j hj))) (decide_eq_true hbad)

end

/-! ## The factor of a quantizer -/

/-- The magnitudes of the samples as the quantizers compute them. -/
theorem abs_samples (f : FloatWidth) (n : Nat) (x : Nat → Word) :
    ((List.range n).map fun i => f.val (x i)).map (fun v => |v|) = (List.range n).map (mags f x) := List.map_map

theorem inferSf_of_fl {f : FloatWidth} {n : Nat} {v : Nat → ℚ} {m : ℚ} {b : Word} (h : LeastNonzero n v m)
    (hb : f.fl ((10 : ℚ) ^ kexp m) = some b) : inferSf f ((List.range n).map v) = .ok b := by
  obtain ⟨hmem, hmin⟩ := minOf_filter_range h
  have hne : ¬ (((List.range n).map v).filter (· ≠ 0)).isEmpty = true :=
    mt List.isEmpty_iff.1 (List.ne_nil_of_mem hmem)
  simp only [inferSf, if_neg hne, hmin, hb]

theorem inferSf_of_zero (f : FloatWidth) {n : Nat} {v : Nat → ℚ} (h : ∀ i < n, v i = 0) :
    inferSf f ((List.range n).map v) = .error (.raise .allZero finfoNone) := by
  have hnil : ((List.range n).map v).filter (· ≠ 0) = [] := by
    rw [List.filter_eq_nil_iff]
    intro y hy
    obtain ⟨i, hi, rfl⟩ := List.mem_map.1 hy
    simp [h i (List.mem_range.1 hi)]
  simp only [inferSf, hnil, List.isEmpty_nil, if_true]

section
variable {s : State} {sfs ofs : Bool} {x : Nat → Word} {sfb ofb : Word}

theorem scalingFactor_of_factorIs (h : FactorIs sfs s x sfb) :
    scalingFactor sfs s ((List.range s.n.toNat).map (mags s.cfg.flen x)) = .ok sfb := by
  cases sfs with
  | true => exact (scalingFactor_supplied_ok_iff s _ _).2 h
  | false =>
    obtain ⟨m, hm, hfl⟩ := h
    exact inferSf_of_fl hm hfl

/-- The factor a quantizer finds is a legal operand of the dequantizers (43_adaptive_sign_magnitude.md R143). -/
theorem scalingFactor_legal (hx : Samples s x)
    (h : scalingFactor sfs s ((List.range s.n.toNat).map (mags s.cfg.flen x)) = .ok sfb) :
    s.cfg.flen.isFinite sfb = true ∧ 0 < s.cfg.flen.val sfb := by
  rw [← abs_samples] at h
  refine ⟨?_, scalingFactor_pos (finiteElems_of_holds .data hx.2.1 hx.2.2) h⟩
  cases sfs with
  | true =>
    obtain ⟨⟨hfin, -⟩, rfl⟩ := (scalingFactor_supplied_ok_iff s _ _).1 h
    exact hfin
  | false => exact (delivered_of_inferSf h).1

/-- The factor a quantizer finds is the one it leaves in `SF`. -/
theorem storedSf_eq {a : List ℚ} (h : scalingFactor sfs s a = .ok sfb) : (if sfs then s.sf else sfb) = sfb := by
  cases sfs with
  | true => exact ((scalingFactor_supplied_ok_iff s _ _).1 h).2.symm
  | false => rfl

/-- A quantizer that has found its factor has passed the check of its supplied scalars (44_offset_refinement.md R150
step 4). -/
theorem checkSupplied_of_factor {a : List ℚ} (h : scalingFactor sfs s a = .ok sfb) (hof : OffsetLegal ofs s) :
    checkSupplied sfs ofs s = .ok () := by
  cases sfs with
  | false => exact checkSupplied_inferredSf hof
  | true =>
    have hsf := (suppliedSf_ok_iff s _).2 ⟨((scalingFactor_supplied_ok_iff s _ _).1 h).1, rfl⟩
    cases ofs with
    | false => simp [checkSupplied, hsf]
    | true => simp [checkSupplied, hsf, finiteScalar, hof rfl]

/-! ## The offset of `ORQ` -/

theorem offsetLegal_of_offsetIs (h : OffsetIs ofs s x ofb) : OffsetLegal ofs s := by
  rintro rfl
  exact h.1

theorem offsetBits_of_offsetIs (h : OffsetIs ofs s x ofb) :
    offsetBits ofs s ((List.range s.n.toNat).map (mags s.cfg.flen x)) = ofb := by
  cases ofs with
  | true => exact h.2.symm
  | false =>
    have hfl : s.cfg.flen.fl (median (((List.range s.n.toNat).map (mags s.cfg.flen x)).map integerPart)) = some ofb := by
      rw [List.map_map]; exact h
    exact congrArg (Option.getD · 0) hfl

/-- The offset `ORQ` finds is the one it leaves in `OFFSET`. -/
theorem storedOffset_eq {a : List ℚ} (h : offsetBits ofs s a = ofb) : (if ofs then s.offset else ofb) = ofb := by
  cases ofs with
  | true => exact h
  | false => rfl

end

/-- The check of a difference, in the words of the statements. -/
theorem offsetUnfit_eq_false_iff {o a : ℚ} : offsetUnfit o a = false ↔ OffsetFits o a := by
  have hint : offsetDifference o a = ⌊offsetDifference o a⌋ ↔ (offsetDifference o a).den = 1 := by
    rw [eq_comm, Rat.den_eq_one_iff]
    refine ⟨fun h => ?_, fun h => ?_⟩
    · rw [← h, Rat.num_intCast]
    · rw [← h, Int.floor_intCast]
  simp only [offsetUnfit, Bool.or_eq_false_iff, decide_eq_false_iff_not, not_not, hint, not_lt, and_assoc]
  rfl

/-- Where the difference fits, the decimal part does not depend on the offset (44_offset_refinement.md R153). -/
theorem decimalOffsetPart_of_fit {sf o a : ℚ} (h : OffsetFits o a) : decimalOffsetPart sf o a = decimalPart sf a := by
  rw [decimalOffsetPart, residual_of_fit (offsetUnfit_eq_false_iff.2 h), decimalPart, integerPart]

/-- Where every difference fits, the check of the residuals passes (44_offset_refinement.md R153). -/
theorem checkResidual_of_fit {sf o : ℚ} {n : Nat} {v : Nat → ℚ} (hsf : 0 < sf) (h : ∀ i < n, OffsetFits o (v i)) :
    checkEach (fun y => residual sf o y < 0 || sf ≤ residual sf o y) .residual .data ((List.range n).map v) = .ok () := by
  refine checkEach_range_ok fun i hi => ?_
  obtain ⟨hnonneg, hbelow⟩ := residual_inRange hsf (offsetUnfit_eq_false_iff.2 (h i hi))
  simp [hnonneg, hbelow]

/-! ## The quantizers -/

/-- What `ASMQ` has written on the samples `x` with the factor `sfb`, before its report (R140). -/
def asmqWrites (s : State) (x : Nat → Word) (sfb : Word) : State :=
  { s with
    mem := { s.mem with
      sign := Buffer.writeAll s.mem.sign
        ((List.range s.n.toNat).map fun i => BitVec.ofInt 2 (sgn (s.cfg.flen.val (x i))))
      ipart := Buffer.writeAll s.mem.ipart
        ((List.range s.n.toNat).map fun i => BitVec.ofInt 32 (integerPart (mags s.cfg.flen x i)))
      dpart := Buffer.writeAll s.mem.dpart
        ((List.range s.n.toNat).map fun i => BitVec.ofInt 64 (decimalPart (s.cfg.flen.val sfb) (mags s.cfg.flen x i))) }
    sf := sfb }

/-- What `ORQ` has written on the samples `x` with the factor `sfb` and the offset `ofb`, before its report
(44_offset_refinement.md R150). -/
def orqWrites (s : State) (x : Nat → Word) (sfb ofb : Word) : State :=
  { s with
    mem := { s.mem with
      sign := Buffer.writeAll s.mem.sign
        ((List.range s.n.toNat).map fun i => BitVec.ofInt 2 (sgn (s.cfg.flen.val (x i))))
      iopart := Buffer.writeAll s.mem.iopart
        ((List.range s.n.toNat).map fun i => BitVec.ofInt 8 (offsetPart (s.cfg.flen.val ofb) (mags s.cfg.flen x i)))
      dopart := Buffer.writeAll s.mem.dopart ((List.range s.n.toNat).map fun i =>
        BitVec.ofInt 64 (decimalOffsetPart (s.cfg.flen.val sfb) (s.cfg.flen.val ofb) (mags s.cfg.flen x i))) }
    sf := sfb
    offset := ofb }

section
variable {s : State} {w : BitVec 6} {sfs ofs : Bool} {x : Nat → Word} {sfb ofb : Word}

/-- `ASMQ` on finite samples that have a factor is its two array checks and its writes. -/
theorem asmqResult_of_factor (hx : Samples s x)
    (hfactor : scalingFactor sfs s ((List.range s.n.toNat).map (mags s.cfg.flen x)) = .ok sfb) :
    asmqResult w sfs s =
      checkIntegerParts w ((List.range s.n.toNat).map (mags s.cfg.flen x)) >>= fun _ =>
      checkEach (fun y => maxDpart < decimalPart (s.cfg.flen.val sfb) y) .dpartOvf .data
        ((List.range s.n.toNat).map (mags s.cfg.flen x)) >>= fun _ => .ok (asmqWrites s x sfb) := by
  obtain ⟨hcount, hheld, hfin⟩ := hx
  simp only [asmqResult, elementCount_of_legal hcount, finiteElems_of_holds .data hheld hfin, bind_ok, abs_samples,
    hfactor, storedSf_eq hfactor]
  simp only [storeInts, List.map_map]
  rfl

/-- `ORQ` on finite samples that have a factor and an offset is its four array checks and its writes. -/
theorem orqResult_of_factor (hx : Samples s x)
    (hfactor : scalingFactor sfs s ((List.range s.n.toNat).map (mags s.cfg.flen x)) = .ok sfb) (hof : OffsetLegal ofs s)
    (hoffset : offsetBits ofs s ((List.range s.n.toNat).map (mags s.cfg.flen x)) = ofb) :
    let a := (List.range s.n.toNat).map (mags s.cfg.flen x)
    let sf := s.cfg.flen.val sfb
    let o := s.cfg.flen.val ofb
    orqResult w sfs ofs s =
      checkIntegerParts w a >>= fun _ =>
      checkEach (offsetUnfit o) .offsetRange .data a >>= fun _ =>
      checkEach (fun y => residual sf o y < 0 || sf ≤ residual sf o y) .residual .data a >>= fun _ =>
      checkEach (fun y => maxDpart < decimalOffsetPart sf o y) .dpartOvf .data a >>= fun _ =>
      .ok (orqWrites s x sfb ofb) := by
  obtain ⟨hcount, hheld, hfin⟩ := hx
  simp only [orqResult, elementCount_of_legal hcount, finiteElems_of_holds .data hheld hfin, bind_ok, abs_samples,
    checkSupplied_of_factor hfactor hof, hfactor, storedSf_eq hfactor, hoffset, storedOffset_eq hoffset]
  simp only [storeInts, List.map_map]
  rfl

end

/-- Settles O47: no magnitude is left to infer the factor from. -/
theorem allZeroSamplesFault : Obligations.AllZeroSamplesFault := by
  intro s w ofs x hx hzero
  have hn := elementCount_of_legal hx.1
  have hd := finiteElems_of_holds .data hx.2.1 hx.2.2
  have hfactor : scalingFactor false s ((List.range s.n.toNat).map (mags s.cfg.flen x)) =
      .error (.raise .allZero finfoNone) := inferSf_of_zero _ fun i hi => abs_eq_zero.2 (hzero i hi)
  refine ⟨exec_of_raise (c := .allZero) (info := finfoNone) ?_,
    fun hof => exec_of_raise (c := .allZero) (info := finfoNone) ?_⟩
  · simp only [commandResult, asmqResult, hn, hd, abs_samples, hfactor, bind_ok, bind_error]
  · simp only [commandResult, orqResult, hn, hd, abs_samples, checkSupplied_inferredSf hof, hfactor, bind_ok, bind_error]

/-- Settles O48: both quantizers come to the width check with their factor, and it reports the lowest sample. -/
theorem integerPartOverflow : Obligations.IntegerPartOverflow := by
  intro s w sfs ofs x sfb k hx hfactor hk hlow hbad
  have hsf := scalingFactor_of_factorIs hfactor
  have hcheck := checkIntegerParts_lowest hk hlow hbad
  refine ⟨exec_of_raise_elem (b := .data) (c := .ipartOvf) hk ?_,
    fun hof => exec_of_raise_elem (b := .data) (c := .ipartOvf) hk ?_⟩
  · rw [commandResult, asmqResult_of_factor hx hsf, hcheck, bind_error]
  · rw [commandResult, orqResult_of_factor hx hsf hof rfl, hcheck, bind_error]

/-- Settles O49: the decimal parts of the two quantizers are the same, and the check of them reports the lowest sample. -/
theorem decimalPartOverflow : Obligations.DecimalPartOverflow := by
  intro s w sfs ofs x sfb ofb k hx hfactor hk hlt dp hlow hbad
  have hsf := scalingFactor_of_factorIs hfactor
  have hint := checkIntegerParts_of_lt hlt
  refine ⟨exec_of_raise_elem (b := .data) (c := .dpartOvf) hk ?_,
    fun hoffset hfit => exec_of_raise_elem (b := .data) (c := .dpartOvf) hk ?_⟩
  · rw [commandResult, asmqResult_of_factor hx hsf, hint, bind_ok, checkDecimalParts_lowest hk hlow hbad, bind_error]
  · have hdec := checkDecimalParts_lowest (v := mags s.cfg.flen x)
      (p := decimalOffsetPart (s.cfg.flen.val sfb) (s.cfg.flen.val ofb)) hk
      (fun j hj => by rw [decimalOffsetPart_of_fit (hfit j (hj.trans hk))]; exact hlow j hj)
      (by rw [decimalOffsetPart_of_fit (hfit k hk)]; exact hbad)
    rw [commandResult, orqResult_of_factor hx hsf (offsetLegal_of_offsetIs hoffset) (offsetBits_of_offsetIs hoffset), hint,
      bind_ok, checkEach_range_ok fun i hi => offsetUnfit_eq_false_iff.2 (hfit i hi), bind_ok,
      checkResidual_of_fit (scalingFactor_legal hx hsf).2 hfit, bind_ok, hdec, bind_error]

/-- The code of a sign (10_state.md R32). -/
theorem ofInt_sgn (v : ℚ) : BitVec.ofInt 2 (sgn v) = if v = 0 then 0b00#2 else if 0 < v then 0b01#2 else 0b11#2 := by
  obtain hv | rfl | hv := lt_trichotomy v 0
  · simp [sgn, hv, hv.ne, hv.not_gt]
  · simp [sgn]
  · simp [sgn, hv, hv.ne', hv.not_gt]

/-- Settles O46: the samples pass both array checks, and the rule writes what the statement names. -/
theorem asmqQuantizes : Obligations.AsmqQuantizes := by
  intro s w sfs x sfb _ hx hfactor a dp hlt hdp
  have hresult : commandResult (.asmq w sfs) s = .ok (asmqWrites s x sfb) := by
    rw [commandResult, asmqResult_of_factor hx (scalingFactor_of_factorIs hfactor), checkIntegerParts_of_lt hlt, bind_ok,
      checkDecimalParts_of_le hdp, bind_ok]
  refine ⟨_, exec_of_ok hresult, rfl, ?_, holds_writeAll _ _ _, holds_writeAll _ _ _, tailKept_writeAll _ (by simp),
    tailKept_writeAll _ (by simp), tailKept_writeAll _ (by simp)⟩
  simp only [← ofInt_sgn]
  exact holds_writeAll _ _ _

/-! ## The dequantizer -/

/-- The lowest reserved sign code is reported when those below it are written and not reserved. -/
theorem signElems_reserved {m : Buffer 2} {n k : Nat} {g : Nat → BitVec 2} (hk : k < n) (h : Holds m (k + 1) g)
    (hlow : ∀ j < k, g j ≠ 0b10#2) (hbad : g k = 0b10#2) :
    forIndex (signElem m) n = .error (.raise .signReserved (finfoElem .sign k)) := by
  rw [forIndex_error_iff]
  refine ⟨k, hk, (signElem_error_iff m k _).2 (.inr ⟨hbad ▸ h k (by omega), rfl⟩), fun j hj => ?_⟩
  exact ⟨_, (signElem_ok_iff m j _).2 ⟨g j, h j (by omega), hlow j hj, rfl⟩⟩

/-- Settles O51: the scan of the signs is reached before any other element is read. -/
theorem reservedSignReported : Obligations.ReservedSignReported := by
  intro s e g k hcount hsf hk hg hlow hbad
  have hn := elementCount_of_legal hcount
  have hfactor := (suppliedSf_ok_iff s _).2 ⟨hsf, rfl⟩
  have hscan := signElems_reserved hk hg hlow hbad
  refine ⟨exec_of_raise_elem (b := .sign) (c := .signReserved) hk ?_,
    fun hof => exec_of_raise_elem (b := .sign) (c := .signReserved) hk ?_⟩
  · simp [commandResult, asmdqResult, hn, hfactor, hscan]
  · simp [commandResult, ordqResult, hn, hfactor, finiteScalar, hof, hscan]

/-- `ASMDQ` on a legal record whose reconstructions and errors are delivered reaches its end. -/
theorem asmdqResult_of_record {s : State} {e : Bool} {g : Nat → BitVec 2} {ip : Nat → BitVec 32} {dp : Nat → BitVec 64}
    {d : List ℚ} {r : Nat → Word} {err : List Word} (hcount : CountLegal s) (hsf : SfLegal s)
    (hg : Holds s.mem.sign s.n.toNat g) (hip : Holds s.mem.ipart s.n.toNat ip) (hdp : Holds s.mem.dpart s.n.toNat dp)
    (hsign : ∀ i < s.n.toNat, g i ≠ 0b10#2)
    (hr : ∀ i < s.n.toNat, s.cfg.flen.fl (adaptiveRecon (s.cfg.flen.val s.sf) g ip dp i) = some (r i))
    (hd : (if e then finiteElems s.cfg.flen .data s.mem.data s.n.toNat else .ok []) = .ok d)
    (herr : roundElems s.cfg.flen .err
      (d.zipWith (fun x y => x - s.cfg.flen.val y) ((List.range s.n.toNat).map r)) = .ok err) :
    asmdqResult e s = .ok { s with mem := { s.mem with
      recon := Buffer.writeAll s.mem.recon ((List.range s.n.toNat).map r)
      err := Buffer.writeAll s.mem.err err } } := by
  simp only [asmdqResult, ite_bind_same]
  simp only [hd, elementCount_of_legal hcount, (suppliedSf_ok_iff s _).2 ⟨hsf, rfl⟩, signElems_of_holds hg hsign,
    readElems_of_holds .ipart hip, readElems_of_holds .dpart hdp, bind_ok, adaptiveValues_range, roundElems_of_fl hr,
    herr]

/-- Settles O50: without `E` the list of errors is empty, and with it the errors are delivered as the statement says. -/
theorem asmdqReconstructs : Obligations.AsmdqReconstructs := by
  intro s e g ip dp x r d hcount hsf hg hip hdp hsign hr he
  cases e with
  | false =>
    have hresult := asmdqResult_of_record (e := false) hcount hsf hg hip hdp hsign hr rfl (roundElems_nil _ _)
    exact ⟨_, exec_of_ok hresult, rfl, holds_writeAll _ _ _, tailKept_writeAll _ (by simp), rfl⟩
  | true =>
    obtain ⟨hx, hfin, hd⟩ := he rfl
    have herr : roundElems s.cfg.flen .err (((List.range s.n.toNat).map fun i => s.cfg.flen.val (x i)).zipWith
        (fun x y => x - s.cfg.flen.val y) ((List.range s.n.toNat).map r)) = .ok ((List.range s.n.toNat).map d) := by
      rw [List.zipWith_map, List.zipWith_self]
      exact roundElems_of_fl hd
    have hresult := asmdqResult_of_record (e := true) hcount hsf hg hip hdp hsign hr (finiteElems_of_holds .data hx hfin) herr
    exact ⟨_, exec_of_ok hresult, rfl, holds_writeAll _ _ _, tailKept_writeAll _ (by simp), holds_writeAll _ _ _,
      tailKept_writeAll _ (by simp)⟩

/-! ## The round trip -/

theorem sgn_mul_abs (v : ℚ) : sgn v * |v| = v := by
  obtain hv | rfl | hv := lt_trichotomy v 0
  · simp [sgn, hv, abs_of_neg hv]
  · simp
  · simp [sgn, hv.not_gt, hv.ne', abs_of_pos hv]

theorem abs_sgn_le_one (v : ℚ) : |(sgn v : ℚ)| ≤ 1 := by
  rw [sgn]; split_ifs <;> simp

/-- A sign is stored without loss, and its code is not the reserved one (10_state.md R32). -/
theorem stored_sgn (v : ℚ) : (BitVec.ofInt 2 (sgn v)).toInt = sgn v ∧ BitVec.ofInt 2 (sgn v) ≠ 0b10#2 := by
  rw [sgn]; split_ifs <;> decide

theorem decimalPart_nonneg {sf : ℚ} (hsf : 0 < sf) (a : ℚ) : 0 ≤ decimalPart sf a :=
  (rnd_between (by rw [Int.cast_zero]; exact mul_nonneg (Int.fract_nonneg a) hsf.le) (Int.le_ceil _)).1

/-- A decimal part is stored without loss (40_numerics.md R100). -/
theorem toInt_ofInt_decimalPart {sf a : ℚ} (hsf : 0 < sf) (h : decimalPart sf a ≤ maxDpart) :
    (BitVec.ofInt 64 (decimalPart sf a)).toInt = decimalPart sf a := by
  have hnonneg := decimalPart_nonneg hsf a
  exact BitVec.toInt_ofInt_eq_self (by decide) (by omega) (by rw [maxDpart] at h; omega)

/-- The ideal reconstruction of the record `ASMQ` makes of the value `v` (43_adaptive_sign_magnitude.md R143). -/
def recordedValue (sf v : ℚ) : ℚ := adaptiveValue sf (sgn v) (integerPart |v|) (decimalPart sf |v|)

section
variable {sf : ℚ} (hsf : 0 < sf) (v : ℚ)

include hsf

/-- It moves `v` by the rounding of the scaled fraction, scaled back. -/
theorem abs_recordedValue_sub_le :
    |recordedValue sf v - v| ≤ |(|v| - ⌊|v|⌋) * sf - decimalPart sf (|v|)| / sf := by
  have hdiff : recordedValue sf v - v = sgn v * (-(((|v| - ⌊|v|⌋) * sf - decimalPart sf |v|) / sf)) := by
    calc recordedValue sf v - v = recordedValue sf v - sgn v * |v| := by rw [sgn_mul_abs]
      _ = _ := by rw [recordedValue, adaptiveValue, integerPart]; field_simp; ring
  rw [hdiff, abs_mul, abs_neg, abs_div, abs_of_pos hsf]
  exact mul_le_of_le_one_left (by positivity) (abs_sgn_le_one v)

theorem abs_recordedValue_sub_le_half : |recordedValue sf v - v| ≤ 1 / (2 * sf) := by
  rw [← div_div]
  exact (abs_recordedValue_sub_le hsf v).trans (by gcongr; exact abs_sub_rnd_le_half _)

/-- Since the rounded scaled fraction is no further from the fraction than zero is, even a small factor does not make the
reconstruction large. -/
theorem abs_recordedValue_le : |recordedValue sf v| ≤ 2 * |v| := by
  have hfrac : 0 ≤ |v| - ⌊|v|⌋ := Int.fract_nonneg _
  have hfloor : (0 : ℚ) ≤ ⌊|v|⌋ := by exact_mod_cast Int.floor_nonneg.2 (abs_nonneg v)
  have hmoved : |recordedValue sf v - v| ≤ |v| := by
    calc |recordedValue sf v - v| ≤ |(|v| - ⌊|v|⌋) * sf - decimalPart sf (|v|)| / sf := abs_recordedValue_sub_le hsf v
      _ ≤ |(|v| - ⌊|v|⌋) * sf - (0 : ℤ)| / sf := by gcongr ?_ / sf; exact abs_sub_rnd_le _ 0
      _ = |v| - ⌊|v|⌋ := by
        rw [Int.cast_zero, sub_zero, abs_of_nonneg (mul_nonneg hfrac hsf.le), mul_div_cancel_right₀ _ hsf.ne']
      _ ≤ |v| := by linarith
  linarith [abs_sub_abs_le_abs_sub (recordedValue sf v) v]

end

/-- `ASMDQ` reads from a record that fits its elements what `ASMQ` has written to it. -/
theorem adaptiveRecon_of_record {sf : ℚ} {w : BitVec 6} (v : Nat → ℚ) {i : Nat} (hsf : 0 < sf) (hw : legalWidth w = true)
    (hint : integerPart |v i| ≤ maxCode w) (hdec : decimalPart sf |v i| ≤ maxDpart) :
    adaptiveRecon sf (fun i => BitVec.ofInt 2 (sgn (v i))) (fun i => BitVec.ofInt 32 (integerPart |v i|))
      (fun i => BitVec.ofInt 64 (decimalPart sf |v i|)) i = recordedValue sf (v i) := by
  have hip : ((BitVec.ofInt 32 (integerPart |v i|)).toNat : ℤ) = integerPart |v i| :=
    toNat_ofInt_code hw ⟨Int.floor_nonneg.2 (abs_nonneg (v i)), hint⟩
  rw [adaptiveRecon, (stored_sgn _).1, toInt_ofInt_decimalPart hsf hdec, ← Int.cast_natCast, hip]
  rfl

/-- The reconstruction of a sample whose integer part fits does not overflow: it is far below `MAXF`. -/
theorem two_mul_le_maxf {w : BitVec 6} {a : ℚ} (f : FloatWidth) (hw : legalWidth w = true) (h : integerPart a ≤ maxCode w) :
    2 * a ≤ f.maxf := by
  have ha : a < 2 ^ w.toNat := not_le.1 (mt maxCode_lt_integerPart_iff.2 (not_lt.2 h))
  calc 2 * a ≤ 2 * 2 ^ 32 := by
        have : (2 : ℚ) ^ w.toNat ≤ 2 ^ 32 := pow_le_pow_right₀ one_le_two ((legalWidth_iff w).1 hw).2
        linarith
    _ ≤ f.maxf := by cases f <;> decide +kernel

/-- What a successful `ASMQ` has checked and written. -/
theorem asmq_success {s t : State} {w : BitVec 6} {sfs : Bool} {x : Nat → Word} (hx : Samples s x)
    (h : exec (.asmq w sfs) s = .next t) (herr : statusErr t.status = false) :
    ∃ sfb, t = succeed (asmqWrites s x sfb) ∧ s.cfg.flen.isFinite sfb = true ∧ 0 < s.cfg.flen.val sfb ∧
      ∀ i < s.n.toNat, integerPart (mags s.cfg.flen x i) ≤ maxCode w ∧
        decimalPart (s.cfg.flen.val sfb) (mags s.cfg.flen x i) ≤ maxDpart := by
  obtain ⟨u, hu, rfl⟩ := exec_success h herr
  obtain ⟨-, d, sfb, hd, -, hfactor, -⟩ := asmqResult_ok hu
  obtain rfl := Except.ok.inj ((finiteElems_of_holds .data hx.2.1 hx.2.2).symm.trans hd)
  rw [abs_samples] at hfactor
  obtain ⟨hfin, hpos⟩ := scalingFactor_legal hx hfactor
  rw [commandResult, asmqResult_of_factor hx hfactor] at hu
  simp only [bind_eq_ok, checkIntegerParts_ok_iff, checkEach_ok_iff, decide_eq_false_iff_not, not_lt] at hu
  obtain ⟨-, hint, -, hdec, hwritten⟩ := hu
  have hmem (i : Nat) (hi : i < s.n.toNat) : mags s.cfg.flen x i ∈ (List.range s.n.toNat).map (mags s.cfg.flen x) :=
    List.mem_map_of_mem (List.mem_range.2 hi)
  exact ⟨sfb, by rw [Except.ok.inj hwritten], hfin, hpos, fun i hi => ⟨hint _ (hmem i hi), hdec _ (hmem i hi)⟩⟩

/-- Settles O53: the record of each sample is stored without loss and does not overflow, so that `ASMDQ` delivers (O50) the ideal
reconstruction of it. -/
theorem adaptiveRoundTrip : Obligations.AdaptiveRoundTrip := by
  intro s t w sfs x hw hx hexec herr
  obtain ⟨sfb, rfl, hfin, hpos, hfits⟩ := asmq_success hx hexec herr
  have hrecord (i : Nat) (hi : i < s.n.toNat) := adaptiveRecon_of_record (fun i => s.cfg.flen.val (x i)) hpos hw
    (hfits i hi).1 (hfits i hi).2
  have hideal (i : Nat) (hi : i < s.n.toNat) :
      s.cfg.flen.fl (recordedValue (s.cfg.flen.val sfb) (s.cfg.flen.val (x i))) = some (s.cfg.flen.flFits _) :=
    fl_eq_flFits ((abs_recordedValue_le hpos _).trans (two_mul_le_maxf _ hw (hfits i hi).1))
  obtain ⟨u, hexecU, hu, hrecon, -⟩ := asmdqReconstructs (succeed (asmqWrites s x sfb)) false _ _ _ x _ x hx.1
    ⟨hfin, hpos⟩ (holds_writeAll _ _ _) (holds_writeAll _ _ _) (holds_writeAll _ _ _) (fun _ _ => (stored_sgn _).2)
    (fun i hi => (congrArg s.cfg.flen.fl (hrecord i hi)).trans (hideal i hi)) nofun
  refine ⟨u, hexecU, by rw [hu]; exact statusErr_successWord _, hpos, fun i hi => ?_⟩
  have hnear := abs_recordedValue_sub_le_half hpos (s.cfg.flen.val (x i))
  exact ⟨_, _, hrecon i hi, hideal i hi, hnear,
    (abs_sub_le _ _ _).trans ((add_comm _ _).trans_le (add_le_add hnear (abs_val_sub_le_roundingTerm (hideal i hi))))⟩

end Sys2Proof.Machine
end

section
/-! SUPPORT. The offset-refinement quantizer and dequantizer of 44_offset_refinement.md: the check of a supplied `OFFSET` (O40),
what `ORQ` writes and how it reports a difference that does not fit (O54, O55), and what `ORDQ` writes (O56). -/

namespace Sys2Proof.Machine

/-! ## The check of a supplied offset -/

/-- A supplied `OFFSET` that is not finite is reported once `SF`, if it is supplied, has passed its check (R150 step 4). -/
theorem checkSupplied_nonfiniteOffset {s : State} {sfs : Bool} (hsf : sfs = true → SfLegal s)
    (hof : s.cfg.flen.isFinite s.offset = false) :
    checkSupplied sfs true s = .error (.raise .nonfiniteScalar (finfoReg .offset)) := by
  have hoffset := (finiteScalar_error_iff s.cfg.flen .offset s.offset _).2 ⟨hof, rfl⟩
  cases sfs with
  | false => simp [checkSupplied, hoffset]
  | true => simp [checkSupplied, (suppliedSf_ok_iff s _).2 ⟨hsf rfl, rfl⟩, hoffset]

/-- `ORQ` on finite samples stops where the check of its supplied scalars does. -/
theorem orqResult_of_supplied_error {s : State} {w : BitVec 6} {sfs ofs : Bool} {x : Nat → Word} {e : Stop}
    (hx : Samples s x) (h : checkSupplied sfs ofs s = .error e) : orqResult w sfs ofs s = .error e := by
  simp only [orqResult, elementCount_of_legal hx.1, finiteElems_of_holds .data hx.2.1 hx.2.2, h, bind_ok, bind_error]

/-- Settles O40: in both commands the check of `OFFSET` follows that of `SF`, and nothing is reported before it. -/
theorem offsetOperandCheck : Obligations.OffsetOperandCheck := by
  intro s w sfs x hcount hof
  refine ⟨fun hsf => exec_of_raise (c := .nonfiniteScalar) (info := finfoReg .offset) ?_,
    fun hx hsf => exec_of_raise (c := .nonfiniteScalar) (info := finfoReg .offset)
      (orqResult_of_supplied_error hx (checkSupplied_nonfiniteOffset hsf hof))⟩
  simp only [commandResult, ordqResult, elementCount_of_legal hcount, (suppliedSf_ok_iff s _).2 ⟨hsf, rfl⟩,
    (finiteScalar_error_iff s.cfg.flen .offset s.offset _).2 ⟨hof, rfl⟩, bind_ok, bind_error]

/-! ## The quantizer -/

/-- Two checks that agree on every element of the array agree. -/
theorem checkEach_congr {α : Type} {bad bad' : α → Bool} {c : Cause} {b : Buf} {xs : List α}
    (h : ∀ y ∈ xs, bad y = bad' y) : checkEach bad c b xs = checkEach bad' c b xs := by
  cases hcheck : checkEach bad' c b xs with
  | ok u => exact (checkEach_ok_iff ..).2 fun y hy => (h y hy).trans ((checkEach_ok_iff ..).1 hcheck y hy)
  | error e =>
    obtain ⟨k, hk, hbad, hlow, rfl⟩ := (checkEach_error_iff ..).1 hcheck
    exact (checkEach_error_iff ..).2 ⟨k, hk, (h _ (List.getElem_mem hk)).trans hbad,
      fun j hj => (h _ (List.getElem_mem _)).trans (hlow j hj), rfl⟩

/-- A difference that fits is the integer its element stores (R150 step 8). -/
theorem offsetPart_of_fit {o a : ℚ} (h : OffsetFits o a) : offsetPart o a = (⌊a⌋ - o : ℚ).num := by
  calc offsetPart o a = ⌊((⌊a⌋ - o : ℚ).num : ℚ)⌋ := by rw [(Rat.den_eq_one_iff _).1 h.1]; rfl
    _ = _ := Int.floor_intCast _

theorem cast_offsetPart_of_fit {o a : ℚ} (h : OffsetFits o a) : (offsetPart o a : ℚ) = ⌊a⌋ - o := by
  rw [offsetPart_of_fit h, (Rat.den_eq_one_iff _).1 h.1]

section
variable {s : State} {w : BitVec 6} {sfs ofs : Bool} {x : Nat → Word} {sfb ofb : Word}

/-- Where every integer part and every difference fits, what is left of `ORQ` is the check of the decimal parts of `ASMQ`
(R153) and its writes. -/
theorem orqResult_of_fit (hx : Samples s x)
    (hfactor : scalingFactor sfs s ((List.range s.n.toNat).map (mags s.cfg.flen x)) = .ok sfb) (hof : OffsetLegal ofs s)
    (hoffset : offsetBits ofs s ((List.range s.n.toNat).map (mags s.cfg.flen x)) = ofb)
    (hint : checkIntegerParts w ((List.range s.n.toNat).map (mags s.cfg.flen x)) = .ok ())
    (hfit : ∀ i < s.n.toNat, OffsetFits (s.cfg.flen.val ofb) (mags s.cfg.flen x i)) :
    orqResult w sfs ofs s =
      checkEach (fun y => maxDpart < decimalPart (s.cfg.flen.val sfb) y) .dpartOvf .data
        ((List.range s.n.toNat).map (mags s.cfg.flen x)) >>= fun _ => .ok (orqWrites s x sfb ofb) := by
  have hdec (y : ℚ) (hy : y ∈ (List.range s.n.toNat).map (mags s.cfg.flen x)) :
      decide (maxDpart < decimalOffsetPart (s.cfg.flen.val sfb) (s.cfg.flen.val ofb) y) =
        decide (maxDpart < decimalPart (s.cfg.flen.val sfb) y) := by
    obtain ⟨i, hi, rfl⟩ := List.mem_map.1 hy
    rw [decimalOffsetPart_of_fit (hfit i (List.mem_range.1 hi))]
  rw [orqResult_of_factor hx hfactor hof hoffset, hint, bind_ok,
    checkEach_range_ok fun i hi => offsetUnfit_eq_false_iff.2 (hfit i hi), bind_ok,
    checkResidual_of_fit (scalingFactor_legal hx hfactor).2 hfit, bind_ok, checkEach_congr hdec]

/-- The decimal offset parts `ORQ` has written where every difference fits are the decimal parts of `ASMQ` (R153). -/
theorem dopart_orqWrites (hfit : ∀ i < s.n.toNat, OffsetFits (s.cfg.flen.val ofb) (mags s.cfg.flen x i)) :
    Holds (orqWrites s x sfb ofb).mem.dopart s.n.toNat
      (fun i => BitVec.ofInt 64 (decimalPart (s.cfg.flen.val sfb) (mags s.cfg.flen x i))) := fun i hi =>
  (holds_writeAll _ _ _ i hi).trans (congrArg (fun k => some (BitVec.ofInt 64 k)) (decimalOffsetPart_of_fit (hfit i hi)))

end

/-- Settles O54: the samples pass all four array checks, and the rule writes what the statement names. -/
theorem orqQuantizes : Obligations.OrqQuantizes := by
  intro s w sfs ofs x sfb ofb _ hx hfactor hoffset a dop hlt hfit hdop
  have hresult : commandResult (.orq w sfs ofs) s = .ok (orqWrites s x sfb ofb) := by
    rw [commandResult, orqResult_of_fit hx (scalingFactor_of_factorIs hfactor) (offsetLegal_of_offsetIs hoffset)
      (offsetBits_of_offsetIs hoffset) (checkIntegerParts_of_lt hlt) hfit, checkDecimalParts_of_le hdop, bind_ok]
  refine ⟨_, exec_of_ok hresult, rfl, ?_, fun i hi => ?_, dopart_orqWrites hfit, tailKept_writeAll _ (by simp),
    tailKept_writeAll _ (by simp), tailKept_writeAll _ (by simp)⟩
  · simp only [← ofInt_sgn]
    exact holds_writeAll _ _ _
  · exact (holds_writeAll _ _ _ i hi).trans (congrArg (fun k => some (BitVec.ofInt 8 k)) (offsetPart_of_fit (hfit i hi)))

/-- Settles O55: the check of the differences comes right after the width check, and it reports the lowest sample. -/
theorem offsetOutOfRange : Obligations.OffsetOutOfRange := by
  intro s w sfs ofs x sfb ofb k hx hfactor hoffset hlt hk hlow hbad
  have hcheck : checkEach (offsetUnfit (s.cfg.flen.val ofb)) .offsetRange .data
      ((List.range s.n.toNat).map (mags s.cfg.flen x)) = .error (.raise .offsetRange (finfoElem .data k)) :=
    checkEach_range_lowest hk (fun j hj => offsetUnfit_eq_false_iff.2 (hlow j hj))
      (Bool.eq_true_of_not_eq_false (mt offsetUnfit_eq_false_iff.1 hbad))
  refine exec_of_raise_elem (b := .data) (c := .offsetRange) hk ?_
  rw [commandResult, orqResult_of_factor hx (scalingFactor_of_factorIs hfactor) (offsetLegal_of_offsetIs hoffset)
    (offsetBits_of_offsetIs hoffset), checkIntegerParts_of_lt hlt, bind_ok, hcheck, bind_error]

/-! ## The dequantizer -/

/-- Settles O56: the record passes every check, and the list of the ideal values is delivered as the statement says. -/
theorem ordqReconstructs : Obligations.OrdqReconstructs := by
  intro s g iop dop r hcount hsf hof hg hiop hdop hsign hr
  have hrecon : roundElems s.cfg.flen .recon ((List.range s.n.toNat).map
      (offsetRecon (s.cfg.flen.val s.sf) (s.cfg.flen.val s.offset) g iop dop)) = .ok ((List.range s.n.toNat).map r) :=
    roundElems_of_fl hr
  have hresult : commandResult .ordq s = .ok { s with mem := { s.mem with
      recon := Buffer.writeAll s.mem.recon ((List.range s.n.toNat).map r) } } := by
    simp only [commandResult, ordqResult, elementCount_of_legal hcount, (suppliedSf_ok_iff s _).2 ⟨hsf, rfl⟩,
      (finiteScalar_ok_iff s.cfg.flen .offset s.offset _).2 ⟨hof, rfl⟩, signElems_of_holds hg hsign,
      readElems_of_holds .iopart hiop, readElems_of_holds .dopart hdop, bind_ok, offsetValues_range, hrecon]
  exact ⟨_, exec_of_ok hresult, rfl, holds_writeAll _ _ _, tailKept_writeAll _ (by simp)⟩

end Sys2Proof.Machine
end

section
/-! SUPPORT. How `ORQ` ends beside `ASMQ` on the same samples, `W` and factor, from the order of their checks
(44_offset_refinement.md R150, R156): the relation of the two (O58), and from it what a success of `ORQ` has checked, which the
round trip needs (O57). -/

namespace Sys2Proof.Machine

/-! ## The ends of the two rules -/

/-- What `ORQ` has checked when it succeeds, and with it all that `ASMQ` checks: the scalars are legal operands of `ORDQ`, and
the parts of each sample fit their elements (R150, R155). -/
structure PartsFit (s : State) (w : BitVec 6) (x : Nat → Word) (sfb ofb : Word) : Prop where
  sf_finite : s.cfg.flen.isFinite sfb = true
  sf_pos : 0 < s.cfg.flen.val sfb
  offset_finite : s.cfg.flen.isFinite ofb = true
  integerPart_le : ∀ i < s.n.toNat, integerPart (mags s.cfg.flen x i) ≤ maxCode w
  offsetFits : ∀ i < s.n.toNat, OffsetFits (s.cfg.flen.val ofb) (mags s.cfg.flen x i)
  decimalPart_le : ∀ i < s.n.toNat, decimalPart (s.cfg.flen.val sfb) (mags s.cfg.flen x i) ≤ maxDpart

/-- The causes that `ASMQ` reports later than `ORQ` checks a supplied `OFFSET` (R156). -/
def causesAfterOffset : List Cause := [.allZero, .outOvf, .ipartOvf, .dpartOvf]

/-- The ends of the rules of `ASMQ` and `ORQ` on the same samples, `W` and factor (R156). -/
inductive OrqBesideAsmq (s : State) (w : BitVec 6) (ofs : Bool) (x : Nat → Word) :
    Except Stop State → Except Stop State → Prop
  /-- Both stop, and with the same report. -/
  | sameStop (e : Stop) : OrqBesideAsmq s w ofs x (.error e) (.error e)
  /-- `ORQ` reports a supplied `OFFSET` that is not finite. -/
  | offsetUnusable {r : Except Stop State} (hofs : ofs = true) (hof : s.cfg.flen.isFinite s.offset = false)
      (hr : RaisesOnly (fun c _ => c ∈ causesAfterOffset) r) :
      OrqBesideAsmq s w ofs x r (.error (.raise .nonfiniteScalar (finfoReg .offset)))
  /-- `ORQ` reports a difference that does not fit. -/
  | offsetUnsuitable {r : Except Stop State} {k : Nat} (hk : k < s.n.toNat) (hr : RaisesOnly (fun c _ => c = .dpartOvf) r) :
      OrqBesideAsmq s w ofs x r (.error (.raise .offsetRange (finfoElem .data k)))
  /-- Both reach their end. -/
  | sameParts {sfb ofb : Word} (h : PartsFit s w x sfb ofb) :
      OrqBesideAsmq s w ofs x (.ok (asmqWrites s x sfb)) (.ok (orqWrites s x sfb ofb))

/-- Before they have samples both quantizers make the same checks. -/
theorem samples_or_sameStop (w : BitVec 6) (sfs ofs : Bool) (s : State) :
    (∃ x, Samples s x) ∨ ∃ e, asmqResult w sfs s = .error e ∧ orqResult w sfs ofs s = .error e := by
  by_cases hcount : CountLegal s
  · cases hd : finiteElems s.cfg.flen .data s.mem.data s.n.toNat with
    | ok d =>
      obtain ⟨x, hheld, hfin, -⟩ := (finiteElems_ok_iff ..).1 hd
      exact .inl ⟨x, hcount, hheld, hfin⟩
    | error e =>
      exact .inr ⟨e, commandResult_of_samples_error (i := .asmq w sfs) rfl hcount hd,
        commandResult_of_samples_error (i := .orq w sfs ofs) rfl hcount hd⟩
  · have hn := (elementCount_error_iff s _).2 ⟨hcount, rfl⟩
    exact .inr ⟨_, commandResult_of_count (i := .asmq w sfs) hn, commandResult_of_count (i := .orq w sfs ofs) hn⟩

section
variable {s : State} {w : BitVec 6} {sfs ofs : Bool} {x : Nat → Word} {sfb : Word} {e : Stop}

theorem asmqResult_of_factor_error (hx : Samples s x)
    (h : scalingFactor sfs s ((List.range s.n.toNat).map (mags s.cfg.flen x)) = .error e) : asmqResult w sfs s = .error e := by
  simp only [asmqResult, elementCount_of_legal hx.1, finiteElems_of_holds .data hx.2.1 hx.2.2, abs_samples, h, bind_ok,
    bind_error]

theorem orqResult_of_factor_error (hx : Samples s x) (hsup : checkSupplied sfs ofs s = .ok ())
    (h : scalingFactor sfs s ((List.range s.n.toNat).map (mags s.cfg.flen x)) = .error e) :
    orqResult w sfs ofs s = .error e := by
  simp only [orqResult, elementCount_of_legal hx.1, finiteElems_of_holds .data hx.2.1 hx.2.2, hsup, abs_samples, h, bind_ok,
    bind_error]

theorem checkSupplied_of_legal (hsf : sfs = true → SfLegal s) (hof : OffsetLegal ofs s) : checkSupplied sfs ofs s = .ok () := by
  cases sfs with
  | false => exact checkSupplied_inferredSf hof
  | true => exact checkSupplied_of_factor ((scalingFactor_supplied_ok_iff s [] _).2 ⟨hsf rfl, rfl⟩) hof

/-- On samples, and with a legal `SF` if it is supplied, `ASMQ` has only late causes left to report. -/
theorem asmqResult_raises_late (hx : Samples s x) (hsf : sfs = true → SfLegal s) :
    RaisesOnly (fun c _ => c ∈ causesAfterOffset) (asmqResult w sfs s) := by
  have hfactor (a : List ℚ) : RaisesOnly (fun c _ => c ∈ causesAfterOffset) (scalingFactor sfs s a) := by
    cases sfs with
    | false => exact inferSf_raises _ _ (by decide) (by decide)
    | true => rw [(scalingFactor_supplied_ok_iff s a _).2 ⟨hsf rfl, rfl⟩]; exact .ok _
  simp only [asmqResult, elementCount_of_legal hx.1, finiteElems_of_holds .data hx.2.1 hx.2.2, bind_ok]
  exact .bind (hfactor _) fun _ _ => .bind (checkEach_raises le_rfl fun _ _ => by decide) fun _ _ =>
    .bind (checkEach_raises le_rfl fun _ _ => by decide) fun _ _ => .ok _

/-- A legal `OFFSET` or the rounded median is an operand that `ORDQ` accepts (R151 step 2). -/
theorem offsetBits_isFinite (hof : OffsetLegal ofs s) (a : List ℚ) : s.cfg.flen.isFinite (offsetBits ofs s a) = true := by
  cases ofs with
  | true => exact hof rfl
  | false => exact (delivered_flFits _ _).1

/-- With a factor, and a legal `OFFSET` if it is supplied, the check of the differences is all that `ORQ` adds to the checks of
`ASMQ`, between the width check and that of the decimal parts. -/
theorem orqBesideAsmq_of_factor (hx : Samples s x) (hof : OffsetLegal ofs s)
    (hfactor : scalingFactor sfs s ((List.range s.n.toNat).map (mags s.cfg.flen x)) = .ok sfb) :
    OrqBesideAsmq s w ofs x (asmqResult w sfs s) (orqResult w sfs ofs s) := by
  have hmem (i : Nat) (hi : i < s.n.toNat) : mags s.cfg.flen x i ∈ (List.range s.n.toNat).map (mags s.cfg.flen x) :=
    List.mem_map_of_mem (List.mem_range.2 hi)
  obtain ⟨hfin, hpos⟩ := scalingFactor_legal hx hfactor
  cases hint : checkIntegerParts w ((List.range s.n.toNat).map (mags s.cfg.flen x)) with
  | error e =>
    rw [asmqResult_of_factor hx hfactor, orqResult_of_factor hx hfactor hof rfl, hint]
    exact .sameStop e
  | ok u =>
    rw [asmqResult_of_factor hx hfactor, hint, bind_ok]
    cases hcheck : checkEach (offsetUnfit (s.cfg.flen.val (offsetBits ofs s _))) .offsetRange .data
        ((List.range s.n.toNat).map (mags s.cfg.flen x)) with
    | error e =>
      obtain ⟨k, hk, -, -, rfl⟩ := (checkEach_error_iff ..).1 hcheck
      rw [orqResult_of_factor hx hfactor hof rfl, hint, bind_ok, hcheck]
      exact .offsetUnsuitable (by simpa using hk) (.bind (checkEach_raises le_rfl fun _ _ => rfl) fun _ _ => .ok _)
    | ok u' =>
      have hfit (i : Nat) (hi : i < s.n.toNat) := offsetUnfit_eq_false_iff.1 ((checkEach_ok_iff ..).1 hcheck _ (hmem i hi))
      rw [orqResult_of_fit hx hfactor hof rfl hint hfit]
      cases hdec : checkEach (fun y => maxDpart < decimalPart (s.cfg.flen.val sfb) y) .dpartOvf .data
          ((List.range s.n.toNat).map (mags s.cfg.flen x)) with
      | error e => exact .sameStop e
      | ok u'' =>
        exact .sameParts ⟨hfin, hpos, offsetBits_isFinite hof _,
          fun i hi => (checkIntegerParts_ok_iff ..).1 hint _ (hmem i hi), hfit,
          fun i hi => not_lt.1 (of_decide_eq_false ((checkEach_ok_iff ..).1 hdec _ (hmem i hi)))⟩

/-- Every check of `ASMQ` is one of `ORQ`, in the same order; what `ORQ` adds are the two checks of `OFFSET` (R156). -/
theorem orqBesideAsmq (w : BitVec 6) (sfs ofs : Bool) (hx : Samples s x) :
    OrqBesideAsmq s w ofs x (asmqResult w sfs s) (orqResult w sfs ofs s) := by
  by_cases hsf : sfs = true → SfLegal s
  · by_cases hof : OffsetLegal ofs s
    · cases hfactor : scalingFactor sfs s ((List.range s.n.toNat).map (mags s.cfg.flen x)) with
      | ok sfb => exact orqBesideAsmq_of_factor hx hof hfactor
      | error e =>
        rw [asmqResult_of_factor_error hx hfactor, orqResult_of_factor_error hx (checkSupplied_of_legal hsf hof) hfactor]
        exact .sameStop e
    · obtain ⟨rfl, hbad⟩ := Classical.not_imp.1 hof
      have hoffset := Bool.eq_false_of_not_eq_true hbad
      rw [orqResult_of_supplied_error hx (checkSupplied_nonfiniteOffset hsf hoffset)]
      exact .offsetUnusable rfl hoffset (asmqResult_raises_late hx hsf)
  · obtain ⟨rfl, hbad⟩ := Classical.not_imp.1 hsf
    cases hsup : suppliedSf s with
    | ok v => exact absurd ((suppliedSf_ok_iff s v).1 hsup).1 hbad
    | error e =>
      rw [asmqResult_of_factor_error (e := e) hx (by simp [scalingFactor, hsup]),
        orqResult_of_supplied_error (e := e) hx (by simp [checkSupplied, hsup])]
      exact .sameStop e

end

/-! ## The parts in their elements -/

/-- A difference that fits is stored without loss (10_state.md R31). -/
theorem toInt_ofInt_offsetPart {o a : ℚ} (h : OffsetFits o a) :
    (BitVec.ofInt 8 (offsetPart o a)).toInt = offsetPart o a := by
  have ⟨_, hlow, hhigh⟩ := h
  rw [← cast_offsetPart_of_fit h] at hlow hhigh
  exact BitVec.toInt_ofInt_eq_self (by decide) (by exact_mod_cast hlow) (Int.lt_add_one_iff.2 (by exact_mod_cast hhigh))

/-- The offset part and the offset make up the integer part that `ASMQ` stores (R156). -/
theorem offsetPart_add_offset {o a : ℚ} {w : BitVec 6} (hw : legalWidth w = true) (ha : 0 ≤ a)
    (hint : integerPart a ≤ maxCode w) (hfit : OffsetFits o a) :
    ((BitVec.ofInt 8 (offsetPart o a)).toInt : ℚ) + o = (BitVec.ofInt 32 (integerPart a)).toNat := by
  have hip : ((BitVec.ofInt 32 (integerPart a)).toNat : ℤ) = integerPart a :=
    toNat_ofInt_code hw ⟨Int.floor_nonneg.2 ha, hint⟩
  rw [toInt_ofInt_offsetPart hfit, cast_offsetPart_of_fit hfit, sub_add_cancel, ← Int.cast_natCast, hip, integerPart]

/-- The late causes, by the words they leave in `STATUS`. -/
theorem statusFault_of_mem_causesAfterOffset : ∀ c ∈ causesAfterOffset,
    statusFault c = 0x10407 ∨ statusFault c = 0x10E0B ∨ statusFault c = 0x1080B ∨ statusFault c = 0x10A0B := by decide

/-- Settles O58: the ends of the two rules beside each other, case by case. -/
theorem orqRefinesAsmq : Obligations.OrqRefinesAsmq := by
  intro s t w sfs ofs hw hexec offsetUnusable offsetUnsuitable
  obtain ⟨x, hbeside⟩ : ∃ x, OrqBesideAsmq s w ofs x (asmqResult w sfs s) (orqResult w sfs ofs s) := by
    obtain ⟨x, hx⟩ | ⟨e, hasmq, horq⟩ := samples_or_sameStop w sfs ofs s
    · exact ⟨x, orqBesideAsmq w sfs ofs hx⟩
    · exact ⟨0, by rw [hasmq, horq]; exact .sameStop e⟩
  rw [exec_eq_finish] at hexec ⊢
  simp only [commandResult] at hexec ⊢
  generalize asmqResult w sfs s = r at hexec hbeside
  generalize orqResult w sfs ofs s = q at hbeside ⊢
  have hend := (finish_next_iff s t r).1 hexec
  cases hbeside with
  | sameStop e =>
    obtain ⟨v, ⟨⟩, -⟩ | ⟨c, info, -, rfl⟩ := hend
    exact ⟨_, hexec, by rw [takeFault_status, statusErr_statusFault, if_pos rfl]; exact .inl rfl⟩
  | offsetUnusable hofs hof hr =>
    refine ⟨_, rfl, ?_⟩
    obtain ⟨v, -, rfl⟩ | ⟨c, info, hraise, rfl⟩ := hend
    · rw [succeed_status, statusErr_statusSuccess, if_neg Bool.false_ne_true]
      exact .inl ⟨hofs, hof, rfl⟩
    · rw [takeFault_status, statusErr_statusFault, if_pos rfl]
      exact .inr (.inl ⟨⟨hofs, hof, rfl⟩, statusFault_of_mem_causesAfterOffset c (hr c info hraise)⟩)
  | @offsetUnsuitable _ k hk hr =>
    have hreport : offsetUnsuitable (takeFault .offsetRange (finfoElem .data k) s) :=
      ⟨k, hk, by rw [finfoElem_eq_ofNat _ (hk.trans s.n.isLt)]; rfl⟩
    refine ⟨_, rfl, ?_⟩
    obtain ⟨v, -, rfl⟩ | ⟨c, info, hraise, rfl⟩ := hend
    · rw [succeed_status, statusErr_statusSuccess, if_neg Bool.false_ne_true]
      exact .inr (.inl hreport)
    · obtain rfl := hr c info hraise
      rw [takeFault_status, statusErr_statusFault, if_pos rfl]
      exact .inr (.inr ⟨hreport, rfl⟩)
  | @sameParts sfb ofb h =>
    refine ⟨_, rfl, ?_⟩
    obtain ⟨v, ⟨⟩, rfl⟩ | ⟨c, info, ⟨⟩, -⟩ := hend
    rw [succeed_status, statusErr_statusSuccess, if_neg Bool.false_ne_true]
    refine .inr (.inr ⟨statusErr_statusSuccess _, rfl, rfl, fun i hi => ?_⟩)
    exact ⟨_, _, _, holds_writeAll _ _ _ i hi, holds_writeAll _ _ _ i hi, holds_writeAll _ _ _ i hi,
      dopart_orqWrites h.offsetFits i hi, offsetPart_add_offset hw (abs_nonneg _) (h.integerPart_le i hi) (h.offsetFits i hi)⟩

/-! ## The round trip -/

/-- What a successful `ORQ` has checked and written. -/
theorem orq_success {s t : State} {w : BitVec 6} {sfs ofs : Bool} {x : Nat → Word} (hx : Samples s x)
    (h : exec (.orq w sfs ofs) s = .next t) (herr : statusErr t.status = false) :
    ∃ sfb ofb, t = succeed (orqWrites s x sfb ofb) ∧ PartsFit s w x sfb ofb := by
  obtain ⟨u, hu, rfl⟩ := exec_success h herr
  have hbeside := orqBesideAsmq w sfs ofs hx
  rw [show orqResult w sfs ofs s = .ok u from hu] at hbeside
  generalize asmqResult w sfs s = r at hbeside
  cases hbeside with
  | sameParts hfits => exact ⟨_, _, rfl, hfits⟩

/-- `ORDQ` reads from a record that fits its elements the value that `ASMDQ` reads from the record of `ASMQ` (R154). -/
theorem offsetRecon_of_record {sf o : ℚ} (v : Nat → ℚ) {i : Nat} (hsf : 0 < sf) (hfit : OffsetFits o |v i|)
    (hdec : decimalPart sf |v i| ≤ maxDpart) :
    offsetRecon sf o (fun i => BitVec.ofInt 2 (sgn (v i))) (fun i => BitVec.ofInt 8 (offsetPart o |v i|))
      (fun i => BitVec.ofInt 64 (decimalPart sf |v i|)) i = recordedValue sf (v i) := by
  rw [offsetRecon, (stored_sgn _).1, toInt_ofInt_offsetPart hfit, cast_offsetPart_of_fit hfit, toInt_ofInt_decimalPart hsf hdec,
    sub_add_cancel]
  rfl

/-- Settles O57: the record of each sample is stored without loss and does not overflow, so that `ORDQ` delivers (O56) the ideal
reconstruction of it, which is that of the adaptive record. -/
theorem offsetRoundTrip : Obligations.OffsetRoundTrip := by
  intro s t w sfs ofs x hw hx hexec herr
  obtain ⟨sfb, ofb, rfl, hfits⟩ := orq_success hx hexec herr
  have hideal (i : Nat) (hi : i < s.n.toNat) :
      s.cfg.flen.fl (recordedValue (s.cfg.flen.val sfb) (s.cfg.flen.val (x i))) = some (s.cfg.flen.flFits _) :=
    fl_eq_flFits ((abs_recordedValue_le hfits.sf_pos _).trans (two_mul_le_maxf _ hw (hfits.integerPart_le i hi)))
  have hrecord (i : Nat) (hi : i < s.n.toNat) := offsetRecon_of_record (fun i => s.cfg.flen.val (x i)) hfits.sf_pos
    (hfits.offsetFits i hi) (hfits.decimalPart_le i hi)
  obtain ⟨u, hexecU, hu, hrecon, -⟩ := ordqReconstructs (succeed (orqWrites s x sfb ofb)) _ _ _ _ hx.1
    ⟨hfits.sf_finite, hfits.sf_pos⟩ hfits.offset_finite (holds_writeAll _ _ _) (holds_writeAll _ _ _)
    (dopart_orqWrites hfits.offsetFits) (fun _ _ => (stored_sgn _).2)
    (fun i hi => (congrArg s.cfg.flen.fl (hrecord i hi)).trans (hideal i hi))
  refine ⟨u, hexecU, by rw [hu]; exact statusErr_successWord _, hfits.sf_pos, fun i hi => ?_⟩
  have hnear := abs_recordedValue_sub_le_half hfits.sf_pos (s.cfg.flen.val (x i))
  exact ⟨_, _, hrecon i hi, hideal i hi, hnear,
    (abs_sub_le _ _ _).trans ((add_comm _ _).trans_le (add_le_add hnear (abs_val_sub_le_roundingTerm (hideal i hi))))⟩

end Sys2Proof.Machine
end

section
/-! SUPPORT. How the commands report how they end (60_exceptions.md): the `STATUS` words (O11), what a `CMD` write leaves of the
state (O10), the causes of each command (O12), and the checks of `SF` where it is an operand (O39). -/

namespace Sys2Proof.Machine

/-! ## The `STATUS` words -/

/-- Settles O11: the words are closed, and each is its cause's fields put together. -/
theorem causeNumbers : Obligations.CauseNumbers :=
  ⟨rfl, rfl, rfl, rfl, rfl, rfl, rfl, rfl, rfl, rfl, rfl, rfl, rfl, rfl, rfl⟩

/-- The word of a fault as a number: `DONE`, `ERR` and `STICKY`, with `KIND` from bit 2 and `CAUSE` from bit 8 on
(10_state.md R25; 60_exceptions.md R166). -/
theorem statusFault_eq_ofNat (c : Cause) :
    statusFault c = BitVec.ofNat 17 (0x10003 + 4 * c.kind.toBits.toNat + 256 * c.code.toNat) := by cases c <;> rfl

/-- Settles O12: a next state with an error is that of a raised fault, which is one of the command's column. -/
theorem causesOfEachCommand : Obligations.CausesOfEachCommand := by
  intro i s t h herr
  obtain ⟨u, -, rfl⟩ | ⟨c, info, hraise, rfl⟩ := (exec_next_iff i s t).1 h
  · rw [succeed_status, statusErr_statusSuccess] at herr
    cases herr
  · exact ⟨c, (commandResult_raises i s c info hraise).cause_mem, takeFault_status c info s⟩

/-! ## What a `CMD` write leaves -/

/-- No rule writes `STATUS`: only the common end of a command does (60_exceptions.md R166, R167). -/
theorem commandResult_status {i : Instr} {s u : State} (h : commandResult i s = .ok u) : u.status = s.status := by
  cases i with
  | uq c => obtain ⟨-, _, _, -, -, -, rfl⟩ := uqResult_ok h; rfl
  | udq c => obtain ⟨-, _, -, -, rfl⟩ := udqResult_ok h; rfl
  | asmq c sfs => obtain ⟨-, _, _, -, -, -, rfl⟩ := asmqResult_ok h; rfl
  | asmdq e => obtain ⟨-, -, _, _, _, _, _, _, -, -, -, -, -, rfl⟩ := asmdqResult_ok h; rfl
  | orq c sfs ofs => obtain ⟨-, _, _, -, -, -, rfl⟩ := orqResult_ok h; rfl
  | ordq => obtain ⟨-, -, _, _, _, _, -, -, rfl⟩ := ordqResult_ok h; rfl
  | em => obtain ⟨-, _, _, _, -, -, -, rfl⟩ := emResult_ok h; rfl

/-- Everything a `CMD` write can answer as a next state: the end of the decoded command's rule, or the state in which the
command ran with the report of a fault, whether the command or the decoder found it. -/
theorem writeCmd_next_cases {v : Word} {s t : State} (h : writeCmd v s = .next t) :
    (∃ i u, commandResult i (storeCmd v s) = .ok u ∧ t = succeed u) ∨
      ∃ c info, legalInfo c info = true ∧ (finfoWhere info ≠ 0 → (finfoIndex info).toNat < s.n.toNat) ∧
        t = takeFault c info (storeCmd v s) := by
  unfold writeCmd at h
  split at h
  next i _ =>
    obtain ⟨u, hu, rfl⟩ | ⟨c, info, hraise, rfl⟩ := (exec_next_iff i _ t).1 h
    · exact .inl ⟨i, u, hu, rfl⟩
    · have hfault := commandResult_raises i _ c info hraise
      exact .inr ⟨c, info, hfault.legal, hfault.index_lt, rfl⟩
  next c hv =>
    cases h
    refine .inr ⟨c, finfoNone, ?_, fun hwhere => absurd rfl hwhere, rfl⟩
    obtain rfl | rfl | rfl := decode_error hv <;> rfl

/-- Settles O10: the step is the `CMD` write, which ends with the report of a success or of a fault. -/
theorem faultsArePreciseAndSuccessesReported : Obligations.FaultsArePreciseAndSuccessesReported := by
  intro s t rest v h
  have hwrite : writeCmd v { s with pending := rest } = .next t := (step_write_reg s rest v .cmd).symm.trans h
  obtain ⟨i, u, hu, rfl⟩ | ⟨c, info, hlegal, hindex, rfl⟩ := writeCmd_next_cases hwrite
  · rw [succeed_status, if_neg (by simp), statusSuccess_eq_successWord, commandResult_status hu]
    exact ⟨rfl, rfl⟩
  · rw [takeFault_status, if_pos (statusErr_statusFault c)]
    refine ⟨c, info, hlegal, hindex, ?_⟩
    rw [← statusFault_eq_ofNat]
    rfl

/-! ## The checks of the scaling factor -/

section
variable {s : State} {e : Stop}

/-- `ASMDQ` checks `SF` right after the element count (43_adaptive_sign_magnitude.md R141 step 2). -/
theorem asmdqResult_of_suppliedSf_error {err : Bool} (hcount : CountLegal s) (h : suppliedSf s = .error e) :
    asmdqResult err s = .error e := by
  simp only [asmdqResult, elementCount_of_legal hcount, h, bind_ok, bind_error]

/-- `ORDQ` checks `SF` right after the element count (44_offset_refinement.md R151 step 2). -/
theorem ordqResult_of_suppliedSf_error (hcount : CountLegal s) (h : suppliedSf s = .error e) : ordqResult s = .error e := by
  simp only [ordqResult, elementCount_of_legal hcount, h, bind_ok, bind_error]

theorem scalingFactor_of_suppliedSf_error (a : List ℚ) (h : suppliedSf s = .error e) : scalingFactor true s a = .error e := by
  simp [scalingFactor, h]

theorem checkSupplied_of_suppliedSf_error (ofs : Bool) (h : suppliedSf s = .error e) :
    checkSupplied true ofs s = .error e := by
  simp [checkSupplied, h]

end

/-- Settles O39: each of these commands stops where the check of `SF` does, which tests finiteness before the sign. -/
theorem scalingFactorChecks : Obligations.ScalingFactorChecks := by
  intro s i hcount hi
  have hstop (e : Stop) (h : suppliedSf s = .error e) : commandResult i s = .error e := by
    obtain rfl | rfl | rfl | ⟨x, hx, ⟨w, rfl⟩ | ⟨w, ofs, rfl⟩⟩ := hi
    · exact asmdqResult_of_suppliedSf_error hcount h
    · exact asmdqResult_of_suppliedSf_error hcount h
    · exact ordqResult_of_suppliedSf_error hcount h
    · exact asmqResult_of_factor_error hx (scalingFactor_of_suppliedSf_error _ h)
    · exact orqResult_of_supplied_error hx (checkSupplied_of_suppliedSf_error ofs h)
  refine ⟨fun hbad => exec_of_raise (c := .nonfiniteScalar) (info := finfoReg .sf) (hstop _ ?_),
    fun hfin hnonpos => exec_of_raise (c := .sfNonpos) (info := finfoReg .sf) (hstop _ ?_)⟩
  · exact (suppliedSf_error_iff s _).2 (.inl ⟨hbad, rfl⟩)
  · exact (suppliedSf_error_iff s _).2 (.inr ⟨hfin, hnonpos, rfl⟩)

end Sys2Proof.Machine
end

section
/-! SUPPORT. What outlives a step and what stops one (70_reset_and_hazards.md): `STICKY` stays set until reset (O13), and the rule
of a command stops the model only on an element of its operands that was never written (O14, O15). -/

namespace Sys2Proof.Machine

/-! ## `STATUS.STICKY` -/

@[simp] theorem statusSticky_statusFault (c : Cause) : statusSticky (statusFault c) = true := by cases c <;> rfl

@[simp] theorem statusSticky_statusSuccess (old : BitVec 17) : statusSticky (statusSuccess old) = statusSticky old := by
  rw [statusSuccess]; cases statusSticky old <;> rfl

/-- A command sets `STICKY` with a fault and keeps it with a success (60_exceptions.md R166, R167). -/
theorem exec_keeps_sticky {i : Instr} {s t : State} (h : exec i s = .next t) (hs : statusSticky s.status = true) :
    statusSticky t.status = true := by
  obtain ⟨u, hu, rfl⟩ | ⟨c, info, -, rfl⟩ := (exec_next_iff i s t).1 h
  · rw [succeed_status, statusSticky_statusSuccess, commandResult_status hu, hs]
  · exact statusSticky_statusFault c

theorem Performed.keeps_sticky {e : HostEvent} {s t : State} (h : Performed e s t) (he : e ≠ .reset)
    (hs : statusSticky s.status = true) : statusSticky t.status = true := by
  cases h with
  | command a v i _ ht => exact exec_keeps_sticky ht hs
  | illegal a v c _ _ => exact statusSticky_statusFault c
  | reset => exact absurd rfl he
  | _ => exact hs

/-- Settles O13: only a command and the reset event write `STATUS`, and a command keeps `STICKY`. -/
theorem onlyResetClearsSticky : Obligations.OnlyResetClearsSticky := by
  intro s t h hs hreset
  obtain ⟨-, rfl⟩ | ⟨e, rest, hpending, hperf⟩ := step_next_cases h
  · exact hs
  · exact hperf.keeps_sticky (by simpa [hpending] using hreset) hs

/-! ## Which unwritten elements a computation can stop on -/

/-- Every unwritten element that stops a computation has `P`. -/
def StopsOnlyOn {α : Type} (P : Buf → Nat → Prop) (x : Except Stop α) : Prop :=
  ∀ b k, x = .error (.unwritten b k) → P b k

section
variable {α β : Type} {P : Buf → Nat → Prop}

theorem StopsOnlyOn.ok (a : α) : StopsOnlyOn P (.ok a) := nofun

theorem StopsOnlyOn.raise (c : Cause) (info : BitVec 36) : StopsOnlyOn P (.error (.raise c info) : Except Stop α) := nofun

theorem StopsOnlyOn.bind {x : Except Stop α} {f : α → Except Stop β} (hx : StopsOnlyOn P x)
    (hf : ∀ a, StopsOnlyOn P (f a)) : StopsOnlyOn P (x >>= f) := by
  intro b k h
  obtain h | ⟨a, -, h⟩ := (bind_eq_error x f _).1 h
  · exact hx b k h
  · exact hf a b k h

/-- The count of a sequence that goes on is `N`. -/
theorem StopsOnlyOn.bind_elementCount {s : State} {f : Nat → Except Stop α} (hf : StopsOnlyOn P (f s.n.toNat)) :
    StopsOnlyOn P (elementCount s >>= f) := by
  intro b k h
  obtain h | ⟨n, hn, h⟩ := (bind_eq_error _ f _).1 h
  · simp [elementCount_error_iff] at h
  · obtain ⟨-, rfl⟩ := (elementCount_ok_iff s n).1 hn
    exact hf b k h

/-! ### The scans read the elements below `N` -/

section
variable {w n : Nat} {b : Buf}

/-- A scan that can stop at an index only on the element of that index, and only where it was never written. -/
theorem forIndex_stops {m : Buffer w} {f : Nat → Except Stop β} (hP : ∀ i < n, Buffer.read? m i = none → P b i)
    (hf : ∀ i c k, f i = .error (.unwritten c k) → Buffer.read? m i = none ∧ c = b ∧ k = i) :
    StopsOnlyOn P (forIndex f n) := by
  intro c k h
  obtain ⟨i, hi, h, -⟩ := (forIndex_error_iff f n _).1 h
  obtain ⟨hnone, rfl, rfl⟩ := hf i c k h
  exact hP k hi hnone

theorem readElems_stops {m : Buffer w} (hP : ∀ i < n, Buffer.read? m i = none → P b i) :
    StopsOnlyOn P (readElems b m n) :=
  forIndex_stops hP fun i c k h => by simpa [readElem_error_iff] using h

theorem finiteElems_stops (f : FloatWidth) {m : Buffer 64} (hP : ∀ i < n, Buffer.read? m i = none → P b i) :
    StopsOnlyOn P (finiteElems f b m n) :=
  forIndex_stops hP fun i c k h => by simpa [finiteElem_error_iff] using h

theorem codeElems_stops (c : BitVec 6) {m : Buffer 32} (hP : ∀ i < n, Buffer.read? m i = none → P .code i) :
    StopsOnlyOn P (forIndex (codeElem c m) n) :=
  forIndex_stops hP fun i c k h => by simpa [codeElem_error_iff] using h

theorem signElems_stops {m : Buffer 2} (hP : ∀ i < n, Buffer.read? m i = none → P .sign i) :
    StopsOnlyOn P (forIndex (signElem m) n) :=
  forIndex_stops hP fun i c k h => by simpa [signElem_error_iff] using h

end

/-! ### The other checks read no element -/

theorem finiteScalar_stops (f : FloatWidth) (r : Reg) (x : Word) : StopsOnlyOn P (finiteScalar f r x) := fun b k h => by
  simp [finiteScalar_error_iff] at h

theorem suppliedSf_stops (s : State) : StopsOnlyOn P (suppliedSf s) := fun b k h => by
  simp [suppliedSf_error_iff] at h

theorem inferSf_stops (f : FloatWidth) (a : List ℚ) : StopsOnlyOn P (inferSf f a) := by
  simp only [inferSf]
  split
  · exact .raise _ _
  · split
    · exact .raise _ _
    · exact .ok _

theorem scalingFactor_stops (sfs : Bool) (s : State) (a : List ℚ) : StopsOnlyOn P (scalingFactor sfs s a) := by
  cases sfs with
  | true => exact .bind (suppliedSf_stops s) fun _ => .ok _
  | false => exact inferSf_stops _ a

theorem checkEach_stops (bad : α → Bool) (c : Cause) (b : Buf) (xs : List α) : StopsOnlyOn P (checkEach bad c b xs) :=
  fun b' k h => by simp [checkEach_error_iff] at h

theorem roundElems_stops (f : FloatWidth) (b : Buf) (vs : List ℚ) : StopsOnlyOn P (roundElems f b vs) :=
  .bind (checkEach_stops _ _ _ _) fun _ => .ok _

theorem checkSupplied_stops (sfs ofs : Bool) (s : State) : StopsOnlyOn P (checkSupplied sfs ofs s) := by
  have hoffset : StopsOnlyOn P (checkSupplied false ofs s) := by
    cases ofs with
    | true => exact .bind (finiteScalar_stops _ _ _) fun _ => .ok _
    | false => exact .ok _
  cases sfs with
  | true => exact .bind (suppliedSf_stops s) fun _ => hoffset
  | false => exact hoffset

end

/-! ## The unwritten elements of each command -/

/-- The buffers a command reads (10_state.md R33, the entries R). -/
def operandBufs : Instr → List Buf
  | .uq _ => [.data]
  | .udq _ => [.code]
  | .asmq _ _ => [.data]
  | .asmdq e => [.sign, .ipart, .dpart] ++ if e then [.data] else []
  | .orq _ _ _ => [.data]
  | .ordq => [.sign, .iopart, .dopart]
  | .em => [.data, .recon]

/-- An operand element that was never written: of a buffer the command reads, and at an index below `N`. -/
structure UnwrittenOperand (i : Instr) (s : State) (b : Buf) (k : Nat) : Prop where
  operand : b ∈ operandBufs i
  lt_n : k < s.n.toNat
  unwritten : readElement s.mem b k = none

/-- The element of a buffer has no value where its entry is missing: the port only extends stored bits. -/
theorem UnwrittenOperand.of_read {i : Instr} {s : State} {b : Buf} {w : Nat} {m : Buffer w}
    (hb : b ∈ operandBufs i := by simp [operandBufs])
    (hm : ∀ k, Buffer.read? m k = none → readElement s.mem b k = none := by simp [readElement]) :
    ∀ k < s.n.toNat, Buffer.read? m k = none → UnwrittenOperand i s b k :=
  fun k hk h => ⟨hb, hk, hm k h⟩

theorem uqResult_stops (c : BitVec 6) (s : State) : StopsOnlyOn (UnwrittenOperand (.uq c) s) (uqResult c s) := by
  refine .bind_elementCount <| .bind (finiteElems_stops _ .of_read) fun d => ?_
  dsimp only
  cases s.cfg.flen.fl (uniformScale c (minOf d) (maxOf d)) with
  | none => exact .raise _ _
  | some scale => exact .ok _

theorem udqResult_stops (c : BitVec 6) (s : State) : StopsOnlyOn (UnwrittenOperand (.udq c) s) (udqResult c s) :=
  .bind_elementCount <| .bind (finiteScalar_stops _ _ _) fun _ => .bind (finiteScalar_stops _ _ _) fun _ =>
    .bind (finiteScalar_stops _ _ _) fun _ => .bind (codeElems_stops _ .of_read) fun _ => .ok _

theorem asmqResult_stops (c : BitVec 6) (sfs : Bool) (s : State) :
    StopsOnlyOn (UnwrittenOperand (.asmq c sfs) s) (asmqResult c sfs s) :=
  .bind_elementCount <| .bind (finiteElems_stops _ .of_read) fun _ => .bind (scalingFactor_stops _ _ _) fun _ =>
    .bind (checkEach_stops _ _ _ _) fun _ => .bind (checkEach_stops _ _ _ _) fun _ => .ok _

theorem asmdqResult_stops (e : Bool) (s : State) : StopsOnlyOn (UnwrittenOperand (.asmdq e) s) (asmdqResult e s) := by
  have hsamples : StopsOnlyOn (UnwrittenOperand (.asmdq e) s)
      (if e then finiteElems s.cfg.flen .data s.mem.data s.n.toNat else .ok []) := by
    cases e with
    | true => exact finiteElems_stops _ .of_read
    | false => exact .ok _
  simp only [asmdqResult, ite_bind_same]
  exact .bind_elementCount <| .bind (suppliedSf_stops s) fun _ => .bind (signElems_stops .of_read) fun _ =>
    .bind hsamples fun _ => .bind (readElems_stops .of_read) fun _ => .bind (readElems_stops .of_read) fun _ =>
    .bind (roundElems_stops _ _ _) fun _ => .bind (roundElems_stops _ _ _) fun _ => .ok _

theorem orqResult_stops (c : BitVec 6) (sfs ofs : Bool) (s : State) :
    StopsOnlyOn (UnwrittenOperand (.orq c sfs ofs) s) (orqResult c sfs ofs s) :=
  .bind_elementCount <| .bind (finiteElems_stops _ .of_read) fun _ => .bind (checkSupplied_stops _ _ _) fun _ =>
    .bind (scalingFactor_stops _ _ _) fun _ => .bind (checkEach_stops _ _ _ _) fun _ =>
    .bind (checkEach_stops _ _ _ _) fun _ => .bind (checkEach_stops _ _ _ _) fun _ =>
    .bind (checkEach_stops _ _ _ _) fun _ => .ok _

theorem ordqResult_stops (s : State) : StopsOnlyOn (UnwrittenOperand .ordq s) (ordqResult s) :=
  .bind_elementCount <| .bind (suppliedSf_stops s) fun _ => .bind (finiteScalar_stops _ _ _) fun _ =>
    .bind (signElems_stops .of_read) fun _ => .bind (readElems_stops .of_read) fun _ =>
    .bind (readElems_stops .of_read) fun _ => .bind (roundElems_stops _ _ _) fun _ => .ok _

theorem emResult_stops (s : State) : StopsOnlyOn (UnwrittenOperand .em s) (emResult s) := by
  refine .bind_elementCount <| .bind (finiteElems_stops _ .of_read) fun o =>
    .bind (finiteElems_stops _ .of_read) fun r => ?_
  cases s.cfg.flen.fl (exactMse o r) with
  | none => exact .raise _ _
  | some mse => exact .ok _

/-- The rule of a command stops the model only on its own unwritten operands (70_reset_and_hazards.md R193). -/
theorem commandResult_stops (i : Instr) (s : State) : StopsOnlyOn (UnwrittenOperand i s) (commandResult i s) := by
  cases i with
  | uq c => exact uqResult_stops c s
  | udq c => exact udqResult_stops c s
  | asmq c sfs => exact asmqResult_stops c sfs s
  | asmdq e => exact asmdqResult_stops e s
  | orq c sfs ofs => exact orqResult_stops c sfs ofs s
  | ordq => exact ordqResult_stops s
  | em => exact emResult_stops s

/-! ## How a command ends -/

theorem exec_fault_unwrittenOperand {i : Instr} {s : State} {x : Fault} (h : exec i s = .fault x) :
    ∃ b k, x = .unwrittenElement b k ∧ UnwrittenOperand i s b k := by
  obtain ⟨b, k, hstop, rfl⟩ := (exec_fault_iff i s x).1 h
  exact ⟨b, k, rfl, commandResult_stops i s b k hstop⟩

theorem exec_ne_refused (i : Instr) (s : State) (x : Refusal) : exec i s ≠ .refused x := by
  rw [exec_eq_finish]; exact finish_ne_refused s _ x

/-- The readiness of a command's operands, said of the buffers it reads (70_reset_and_hazards.md R192). -/
theorem operandsWritten_iff (i : Instr) (s : State) :
    OperandsWritten i s ↔ ∀ b ∈ operandBufs i, ∀ k < s.n.toNat, (readElement s.mem b k).isSome = true := by
  cases i with
  | asmdq e => cases e <;> simp [OperandsWritten, operandBufs, readElement]
  | _ => simp [OperandsWritten, operandBufs, readElement]

/-- Settles O14: a command is never refused, and one that stops the model has an unwritten operand. -/
theorem commandsTerminate : Obligations.CommandsTerminate := by
  intro i s hwritten
  cases h : exec i s with
  | next t => exact ⟨t, rfl⟩
  | fault x =>
    obtain ⟨b, k, -, hoperand⟩ := exec_fault_unwrittenOperand h
    have hvalue := (operandsWritten_iff i s).1 hwritten b hoperand.operand k hoperand.lt_n
    simp [hoperand.unwritten] at hvalue
  | refused x => exact absurd h (exec_ne_refused i s x)

/-- A `HostRead` of an element without a value is refused (93_implementation_defined.md U1). -/
theorem step_read_unwritten (s : State) (rest : List HostEvent) {b : Buf} {k : Nat} (hk : k < s.cfg.nmax)
    (h : readElement s.mem b k = none) :
    step { s with pending := .read (elemSlot s.cfg b k) :: rest } = .refused (.unwrittenRead b k) := by
  rw [step_cons rfl]
  simp only [perform, hostRead, slotOf_elemSlot s.cfg b hk, h]

/-- Settles O15: the stop of a command is at one of its unwritten operands, and that of a read at the element it names. -/
theorem onlyUnwrittenElementsStop : Obligations.OnlyUnwrittenElementsStop := by
  refine ⟨fun i s x h => ?_, exec_ne_refused, fun s rest b k hk h => step_read_unwritten s rest hk h⟩
  obtain ⟨b, k, rfl, hoperand⟩ := exec_fault_unwrittenOperand h
  exact ⟨b, k, rfl, hoperand.lt_n, hoperand.unwritten⟩

end Sys2Proof.Machine
end
